-- ==== Sys2Proof/Params.lean ====
section
/-! DEFINITION. The parameters that the source fixes (R3), in the order of its table; the FIFO depths, one for
each unit, are in `Config.lean`. Types and definitions name the parameter and not its value (R8). -/

namespace Sys2Proof.Config

/-- Width of an instruction word and of a register (R3 `XLEN`). -/
abbrev xlen : Nat := 32
/-- Processor instances that may co-run (R3 `NPROC`). -/
abbrev nProc : Nat := 2
/-- Logical thread contexts of a processor (R3 `NTHREADS`). -/
abbrev nThreads : Nat := 32
/-- Global registers (R3 `NGLOBAL`). -/
abbrev nGlobal : Nat := 8
/-- Private registers of a thread (R3 `NPRIVATE`). -/
abbrev nPrivate : Nat := 24
/-- Depth of the call stack (R3 `CS_DEPTH`). -/
abbrev csDepth : Nat := 4
/-- Most delay-slot instructions of a branch (R3 `MAX_DELAY`). -/
abbrev maxDelay : Nat := 2
/-- Clocks between two scheduler arbitrations (R3 `SCHED_PERIOD`). -/
abbrev schedPeriod : Nat := 16
/-- Size of the code segment in bytes (R3 `CODE_BYTES`). -/
abbrev codeBytes : Nat := 32768
/-- Size of the private SRAM in bytes (R3 `SRAM_BYTES`, R42). -/
abbrev sramBytes : Nat := 49152
/-- Size of the context-save segment in bytes (R3 `CTX_BYTES`, R46). -/
abbrev ctxBytes : Nat := 3072
/-- Size of the common segment in bytes (R3 `COMMON_BYTES`, R44). -/
abbrev commonBytes : Nat := 65536
/-- Size of the IO window in bytes (R3 `IO_BYTES`, R43). -/
abbrev ioBytes : Nat := 1024
/-- Words of the IO window: `IO_BYTES` in words, as `ioWords_eq` says. -/
abbrev ioWords : Nat := 256
/-- The words are all of the window (R26, R43). -/
theorem ioWords_eq : 4 * ioWords = ioBytes := rfl
/-- Shared semaphores (R3 `NSEM`). -/
abbrev nSem : Nat := 8
/-- Result slots of a result table (R3 `NRESULT_SLOTS`). -/
abbrev nResultSlots : Nat := 4
/-- Lookup-result tables (R3 `NLOOKUP_TABLES`). -/
abbrev nLookupTables : Nat := 3
/-- Chained 16-bit timers (R3 `NTIMERS`). -/
abbrev nTimers : Nat := 4

end Sys2Proof.Config
end

