-- ==== Sys2Proof/Word.lean ====
section
/-! DEFINITION. The plain types of the Runner core: words, bytes, code offsets, register and thread
numbers, and the closed sets of names (processors, accelerator units, hash key widths) that the
configuration, the syntax and the machine share. -/

namespace Sys2Proof

/-- Words of `n` bits, where `n` is written out and checked to be `XLEN`: the width of a `Word` is thereby a numeral
in every term, and is not one if the parameter says otherwise. -/
abbrev WordOf (n : Nat) (_isXlen : n = Config.xlen := by rfl) : Type := BitVec n

/-- An instruction word or register value (R3 `XLEN`, R11, R60). -/
abbrev Word := WordOf 32

/-- One 8-bit byte of any address space (R40). -/
abbrev Byte := BitVec 8

/-- A byte offset into the code segment, as the program counter holds it (R15). -/
abbrev CodeOff := BitVec 16

/-- A 5-bit register index naming `r0..r31` (R11, R95). -/
abbrev Reg := BitVec 5

/-- A context (thread) identifier 0..31 (R19). -/
abbrev ThreadId := Fin Config.nThreads

/-- A result slot of a result table (R22, R240). -/
abbrev ResultSlot := Fin Config.nResultSlots

/-- A lookup-result table (R22, R240). -/
abbrev LookupTable := Fin Config.nLookupTables

/-- A number of delay-slot instructions (R180). -/
abbrev DelayCount := Fin (Config.maxDelay + 1)

/-- The index of a word of the IO window: byte offset divided by 4 (R26, R43). -/
abbrev IoIndex := Fin Config.ioWords

/-- The two processor instances (R10). -/
inductive ProcId where
  | p0
  | p1
  deriving DecidableEq, Repr, Inhabited

/-- The number of a processor (`me` of R7, R10). -/
def ProcId.number : ProcId → Fin Config.nProc
  | .p0 => 0
  | .p1 => 1

/-- The other processor (`peer` of R7). -/
def ProcId.other : ProcId → ProcId
  | .p0 => .p1
  | .p1 => .p0

/-- The six queued accelerator units, in the tie order of R243 (R21, R240). -/
inductive Accel where
  | dma
  | ramman
  | hash
  | counter
  | bbtx
  | bbmsg
  deriving DecidableEq, Repr, Inhabited

/-- The units in the order in which completions with equal clocks are applied (R243). -/
def Accel.inOrder : List Accel := [.dma, .ramman, .hash, .counter, .bbtx, .bbmsg]

/-- The width of a hash key: 48 or 60 bits (R76, R251). -/
inductive KeyWidth where
  | k48
  | k60
  deriving DecidableEq, Repr, Inhabited

end Sys2Proof
end

