-- ==== Sys2Proof/Config.lean ====
section
/-! DEFINITION. What an implementation fixes: the parameters the source gives (R3), the ones the spec
decided (R4), and, as constants with no body, the ones left OPEN (R5): no proof can see what an
`opaque` constant is, so a claim holds for every value of it. -/

namespace Sys2Proof.Config

/-! ## Parameters the source fixes (R3), the rest of them in `Params.lean` -/

/-- Depth of each accelerator FIFO (R3 `DEPTH_u`, R240). -/
def depth : Accel → Nat
  | .dma => 7
  | .ramman => 1
  | .hash => 4
  | .counter => 4
  | .bbtx => 4
  | .bbmsg => 4

/-! ## Parameters the spec decided (R4) -/

/-- The mask applied to every computed program counter (R4 `PC_MASK`, D2). -/
abbrev pcMask : CodeOff := 0x7FFC
/-- The program counter after reset (R4 `RESET_PC`, D43). -/
abbrev resetPc : CodeOff := 0x0000
/-- Data address of the first byte of the IO window (R4 `IO_BASE`, D17). -/
abbrev ioBase : Nat := 0xC000
/-- Index of the link register among the private registers (R4 `LINK_REG`, R14). -/
abbrev linkReg : Fin nPrivate := 16
/-- The 4-bit DMA-group code (R4 `DMA_PREFIX`, D3). -/
abbrev dmaPrefix : BitVec 4 := 0b1111
/-- The 5-bit jump code (R4 `JMP_PREFIX`, D3). -/
abbrev jmpPrefix : BitVec 5 := 0b11101
/-- Arbitration happens in the ticks with `clk mod schedPeriod = schedPhase` (R4 `SCHED_PHASE`, D25). -/
abbrev schedPhase : Nat := 0

/-! ## Parameters left OPEN (R5) -/

/-- The buffer-pool base offset (R5 `BPOOL_BASE`, R246). -/
opaque bpoolBase : Word

/-- The hash function: table, key width, key, and the contents of the common segment, the DDR array and
the packet-SRAM array (R5 `HASH_FN`, R252). -/
opaque hashFn : LookupTable → KeyWidth → BitVec 60 → List Host.Cell → List Host.Cell → List Host.Cell → Word

/-- The associative lookup: key, mask, size operand, and the contents of the common segment, the DDR
array and the packet-SRAM array (R5 `CAM_FN`, R256). -/
opaque camFn : Word → Word → BitVec 2 → List Host.Cell → List Host.Cell → List Host.Cell → Word

/-- The value that the reference's lookup stub always reports (R5 `CAM_NOMATCH`, R256). No rule reads
it: `camFn` is open, and the reference is the one choice of it that is constantly this value. -/
opaque camNoMatch : Word

/-- The integrity-check function (R5 `ICHK_FN`, R148). -/
opaque ichkFn : Word → Word → Word

/-- The write mask of the named storage register at a byte offset of the IO window (R5 `WMASK`, R303). -/
opaque wmask : Nat → Word

/-- Size of the DDR array in bytes (R5 `DDR_BYTES`, R45); no rule reads it. -/
opaque ddrBytes : Nat
/-- Size of the packet-SRAM array in bytes (R5 `PSRAM_BYTES`, R45); no rule reads it. -/
opaque psramBytes : Nat

/-- The parameters of a CRC profile of order `w` (R255). -/
structure CrcParams (w : Nat) where
  poly : BitVec w
  init : BitVec w
  xorout : BitVec w
  reflect : Bool
  deriving DecidableEq, Repr, Inhabited

/-- Profile 0, the 32-bit one the source gives: non-reflected CRC-32 (R255). -/
def crc32 : CrcParams 32 := ⟨0x04C11DB7, 0xFFFFFFFF, 0xFFFFFFFF, false⟩
/-- Profile 1, of order 16 (R5 `CRC_PROFILE[1]`). -/
opaque crc16 : CrcParams 16
/-- Profile 2, of order 10 (R5 `CRC_PROFILE[2]`). -/
opaque crc10 : CrcParams 10
/-- Profile 3, of order 5 (R5 `CRC_PROFILE[3]`). -/
opaque crc5 : CrcParams 5

/-! ### Latencies

A window with `1 ≤ latMin u ≤ latMax u` (R5) is a base and a span; every such window is one. -/

/-- `LAT_MIN[u]` less one (R5). -/
opaque latBase : Accel → Nat
/-- `LAT_MAX[u]` less `LAT_MIN[u]` (R5). -/
opaque latSpan : Accel → Nat
/-- The environment's draws, one for each enqueue, numbered in the order in which they are taken
(R242 `draw`, R268). -/
opaque latencyDraw : Nat → Nat

/-- The least latency of a unit (R5 `LAT_MIN[u]`). -/
def latMin (u : Accel) : Nat := latBase u + 1
/-- The greatest latency of a unit (R5 `LAT_MAX[u]`). -/
def latMax (u : Accel) : Nat := latMin u + latSpan u

/-- The latency that draw number `n` gives when unit `u` takes it: some value of the unit's window, and
every value of it for some draw (R242). -/
def latency (u : Accel) (n : Nat) : Nat := latMin u + latencyDraw n % (latSpan u + 1)

/-! ### The interleaving of the two processors -/

/-- The processor whose turn tick number `n` of the run is, the first tick being number 0 (R5, R352: any sequence
of ticks is an execution, so any function is a schedule). -/
opaque schedule : Nat → ProcId

end Sys2Proof.Config
end

