-- ==== Sys2Proof/Syntax.lean ====
section
/-! DEFINITION. The instructions of the Runner core: one constructor for each row (mnemonic and layout)
of `spec/opcode_table.json` (R63 to R86). Reserved values of sub-fields (R88) are unrepresentable,
but for the register pairs that would run past `r31`, which `WellFormed` excludes. -/

namespace Sys2Proof

/-- Access size of a load or store (R68 `size`, R161). -/
inductive Size where
  | b8
  | b16
  | b32
  | b64
  deriving DecidableEq, Repr

/-- Condition of a short jump (R64 `cond`, R183). -/
inductive Cond where
  | always
  | zero
  | less
  | greater
  | bitTest
  deriving DecidableEq, Repr

/-- Comparison of a compare-jump (R65 `cmp`, R188). -/
inductive Cmp where
  | eq
  | gt
  | bitOr
  | bitAnd
  deriving DecidableEq, Repr

/-- Which bits a zero-test branch tests (R66 `half`, R187). -/
inductive Half where
  | all
  | low
  | high
  deriving DecidableEq, Repr

/-- The modifiers of an ALU word: flag update, inversion, direction and amount of the byte shift of
operand B (R70). -/
structure AluMods where
  f : Bool
  inv : Bool
  sdir : Bool
  samt : BitVec 2
  deriving DecidableEq, Repr

/-- The instructions, in the order of `spec/opcode_table.json`. A name ending in `R` or `I` is the
register or immediate form; `D`, `XI`, `XR` are the three load/store layouts of R68. -/
inductive Instr where
  | nop
  | addR (rd ra : Reg) (m : AluMods) (rb : Reg)
  | addI (rd ra : Reg) (m : AluMods) (imm10 : BitVec 10)
  | subR (rd ra : Reg) (m : AluMods) (rb : Reg)
  | subI (rd ra : Reg) (m : AluMods) (imm10 : BitVec 10)
  | andR (rd ra : Reg) (m : AluMods) (rb : Reg)
  | andI (rd ra : Reg) (m : AluMods) (imm10 : BitVec 10)
  | orR (rd ra : Reg) (m : AluMods) (rb : Reg)
  | orI (rd ra : Reg) (m : AluMods) (imm10 : BitVec 10)
  | xorR (rd ra : Reg) (m : AluMods) (rb : Reg)
  | xorI (rd ra : Reg) (m : AluMods) (imm10 : BitVec 10)
  | mulR (rd ra : Reg) (m : AluMods) (rb : Reg)
  | mulI (rd ra : Reg) (m : AluMods) (imm10 : BitVec 10)
  | movi (rd : Reg) (high clear : Bool) (imm16 : BitVec 16)
  | sllR (rd ra rb : Reg)
  | sllI (rd ra : Reg) (amt5 : BitVec 5)
  | srlR (rd ra rb : Reg)
  | srlI (rd ra : Reg) (amt5 : BitVec 5)
  | sraR (rd ra rb : Reg)
  | sraI (rd ra : Reg) (amt5 : BitVec 5)
  | insert (rd ra : Reg) (pos wm1 : BitVec 5)
  | extract (rd ra : Reg) (pos wm1 : BitVec 5)
  | sext8 (rd ra : Reg)
  | sext16 (rd ra : Reg)
  | ldD (rd ra : Reg) (size : Size) (off12 : BitVec 12)
  | ldXI (rd ra : Reg) (size : Size) (idx12 : BitVec 12)
  | ldXR (rd ra : Reg) (size : Size) (rb : Reg)
  | stD (rd ra : Reg) (size : Size) (off12 : BitVec 12)
  | stXI (rd ra : Reg) (size : Size) (idx12 : BitVec 12)
  | stXR (rd ra : Reg) (size : Size) (rb : Reg)
  | ldcD (rd ra : Reg) (size : Size) (off12 : BitVec 12)
  | ldcXI (rd ra : Reg) (size : Size) (idx12 : BitVec 12)
  | ldcXR (rd ra : Reg) (size : Size) (rb : Reg)
  | stcD (rd ra : Reg) (size : Size) (off12 : BitVec 12)
  | stcXI (rd ra : Reg) (size : Size) (idx12 : BitVec 12)
  | stcXR (rd ra : Reg) (size : Size) (rb : Reg)
  | cmpjR (ds : DelayCount) (inv : Bool) (cmp : Cmp) (ra rb : Reg) (off10 : BitVec 10)
  | cmpjI (ds : DelayCount) (inv : Bool) (cmp : Cmp) (ra : Reg) (imm5 : BitVec 5) (off10 : BitVec 10)
  | bz (ds : DelayCount) (inv : Bool) (half : Half) (ra : Reg) (off16 : BitVec 16)
  | ctxswap (save : Bool)
  | hash (wake : Bool) (kw : KeyWidth) (tbl : LookupTable) (slot : BitVec 2) (rk : Reg)
  | crc (wake : Bool) (slot prof : BitVec 2) (ra : Reg) (n : BitVec 10)
  | cam (wake : Bool) (slot tsz : BitVec 2) (rk rm : Reg)
  | bbtx (wake last inc : Bool) (rs : Reg) (len : BitVec 10)
  | bbmsg (wake w64 : Bool) (mtype dest : BitVec 4) (rp : Reg)
  | ffi (rd ra : Reg)
  | ichk (rd ra rb : Reg)
  | cnt (wake dec w4 frz : Bool) (rc : Reg) (amt : BitVec 8)
  | crypto (first last : Bool) (rs : Reg) (len : BitVec 10)
  | ret
  | jmp (ds : DelayCount) (inv : Bool) (cond : Cond) (rc : Reg) (bit : BitVec 5) (off9 : BitVec 9)
  | jmpr (ds : DelayCount) (inv : Bool) (cond : Cond) (rc : Reg) (bit : BitVec 5) (rt : Reg)
  | ljmp (ds : DelayCount) (inv : Bool) (addr16 : BitVec 16)
  | lcall (ds : DelayCount) (inv : Bool) (addr16 : BitVec 16)
  | dmard (wake bp : Bool) (rs rc : Reg) (len : BitVec 10)
  | dmawr (wake bp : Bool) (rs rc : Reg) (len : BitVec 10)
  | dmal (wake : Bool) (esz : BitVec 2) (rs rb ri : Reg)
  deriving DecidableEq, Repr

end Sys2Proof
end

