-- ==== Sys2Proof/WellFormed.lean ====
section
/-! DEFINITION. The instructions that some legal word encodes: every term of `Instr` but those that name
a register pair running past `r31` (R95, R88). -/

namespace Sys2Proof

/-- The register after a pair's first exists (R95). -/
def pairOk (first : Reg) : Bool := first != 31

/-- A 64-bit transfer names a pair that exists (R88: `size = 3` with `rd = 31` is illegal). -/
def transferOk (size : Size) (rd : Reg) : Bool :=
  match size with
  | .b64 => pairOk rd
  | .b8 | .b16 | .b32 => true

/-- The instruction is one that a legal word encodes (R88, R95). -/
def Instr.wellFormed : Instr → Bool
  | .nop | .ret => true
  | .addR .. | .addI .. | .subR .. | .subI .. | .andR .. | .andI .. => true
  | .orR .. | .orI .. | .xorR .. | .xorI .. | .mulR .. | .mulI .. => true
  | .movi .. | .sllR .. | .sllI .. | .srlR .. | .srlI .. | .sraR .. | .sraI .. => true
  | .insert .. | .extract .. | .sext8 .. | .sext16 .. | .ffi .. | .ichk .. => true
  | .ldD rd _ size _ | .ldXI rd _ size _ | .ldXR rd _ size _ => transferOk size rd
  | .stD rd _ size _ | .stXI rd _ size _ | .stXR rd _ size _ => transferOk size rd
  | .ldcD rd _ size _ | .ldcXI rd _ size _ | .ldcXR rd _ size _ => transferOk size rd
  | .stcD rd _ size _ | .stcXI rd _ size _ | .stcXR rd _ size _ => transferOk size rd
  | .cmpjR .. | .cmpjI .. | .bz .. | .ctxswap .. => true
  | .hash _ _ _ _ rk => pairOk rk
  | .bbmsg _ w64 _ _ rp => !w64 || pairOk rp
  | .crc .. | .cam .. | .bbtx .. | .cnt .. | .crypto .. => true
  | .jmp .. | .jmpr .. | .ljmp .. | .lcall .. => true
  | .dmard .. | .dmawr .. | .dmal .. => true

/-- The control-transfer instructions, which may stand neither in a delay slot nor in a CTXSWAP shadow
(R180, R190, R212). -/
def Instr.isControlTransfer : Instr → Bool
  | .jmp .. | .jmpr .. | .ljmp .. | .lcall .. | .bz .. | .cmpjR .. | .cmpjI .. | .ret | .ctxswap .. => true
  | .nop => false
  | .addR .. | .addI .. | .subR .. | .subI .. | .andR .. | .andI .. => false
  | .orR .. | .orI .. | .xorR .. | .xorI .. | .mulR .. | .mulI .. => false
  | .movi .. | .sllR .. | .sllI .. | .srlR .. | .srlI .. | .sraR .. | .sraI .. => false
  | .insert .. | .extract .. | .sext8 .. | .sext16 .. | .ffi .. | .ichk .. => false
  | .ldD .. | .ldXI .. | .ldXR .. | .stD .. | .stXI .. | .stXR .. => false
  | .ldcD .. | .ldcXI .. | .ldcXR .. | .stcD .. | .stcXI .. | .stcXR .. => false
  | .hash .. | .crc .. | .cam .. | .bbtx .. | .bbmsg .. | .cnt .. | .crypto .. => false
  | .dmard .. | .dmawr .. | .dmal .. => false

end Sys2Proof
end

