-- ==== Sys2Proof/Decode.lean ====
section
/-! DEFINITION. The bitfield decoder (R61), the dispatch and the layouts (R62 to R89) as a total decoder that
rejects by name, and after it the encoder written from the same tables. -/

namespace Sys2Proof

/-! ## The bitfield decoder and its inverse -/

/-- The field of `w` at the MSB-first, inclusive-exclusive range `(s,e)`, bit 0 being the most significant bit
(R61). The third argument makes a range outside the contract unrepresentable. -/
def fld (w : Word) (s e : Nat) (_valid : s < e ∧ e ≤ 32 := by decide) : BitVec (e - s) :=
  w.extractLsb' (32 - e) (e - s)

/-- The one-bit field of `w` at MSB-first bit `s`. -/
def flag (w : Word) (s : Nat) (_valid : s < 32 := by decide) : Bool := w.getLsbD (31 - s)

/-- The word whose field `(s,e)` is `v` and whose other bits are 0 (R6, R61). -/
def put (s e : Nat) (v : BitVec (e - s)) (_valid : s < e ∧ e ≤ 32 := by decide) : Word :=
  v.setWidth 32 <<< (32 - e)

/-- The word whose MSB-first bit `s` is `b` and whose other bits are 0. -/
def putFlag (s : Nat) (b : Bool) (_valid : s < 32 := by decide) : Word :=
  (BitVec.ofBool b).setWidth 32 <<< (31 - s)

/-- The four bytes of a word, most significant first (R47). -/
def wordBytes (w : Word) : List Byte := [fld w 0 8, fld w 8 16, fld w 16 24, fld w 24 32]

/-- The word made of four bytes, the first the most significant (R47). -/
def joinBytes (b0 b1 b2 b3 : Byte) : Word := b0 ++ b1 ++ b2 ++ b3

/-! ## Reserved encodings -/

/-- Why a word has no instruction (R88): each is raised as `FatalDecode` when the word is about to run (R341). -/
inductive DecodeError where
  /-- `op6` names no handler (0x1C..0x39). -/
  | noHandler
  /-- The DMA prefix with `sub = 3`. -/
  | reservedDmaSub
  /-- `ds = 3` in JMP, JMPR, LJMP, LCALL, BZ or CMPJ. -/
  | reservedDelay
  /-- `cond` 5..7 in JMP or JMPR. -/
  | reservedCond
  /-- `half = 3` in BZ. -/
  | reservedHalf
  /-- `mode = 3` in the shift layout. -/
  | reservedShiftMode
  /-- `sz` 2 or 3 in the sign-extend layout. -/
  | reservedSextSize
  /-- `am = 3` in the load/store layout. -/
  | reservedAddressing
  /-- `tbl = 3` in HASH. -/
  | reservedTable
  /-- A register pair whose first register is `r31`. -/
  | pairPastLast
  /-- Fewer than four bytes (not a case of the spec: a fetch always reads four). -/
  | truncated
  deriving DecidableEq, Repr

/-! ## Sub-fields -/

/-- `size` of the load/store layout (R68). -/
def sizeOfBits (b : BitVec 2) : Size :=
  match b with
  | 0 => .b8
  | 1 => .b16
  | 2 => .b32
  | _ => .b64

/-- The bits of `size` (R68). -/
def Size.bits : Size → BitVec 2
  | .b8 => 0
  | .b16 => 1
  | .b32 => 2
  | .b64 => 3

/-- `ds` of the four branch layouts (R64 to R67); 3 is reserved. -/
def delayOfBits (b : BitVec 2) : Except DecodeError DelayCount :=
  match b with
  | 0 => .ok 0
  | 1 => .ok 1
  | 2 => .ok 2
  | _ => .error .reservedDelay

/-- The bits of a field that holds 0, 1 or 2 (`ds`, `tbl`). -/
def bitsOfThree (d : Fin 3) : BitVec 2 := BitVec.ofNat 2 d.val

/-- `tbl` of the hash layout (R76); 3 is reserved. -/
def tableOfBits (b : BitVec 2) : Except DecodeError LookupTable :=
  match b with
  | 0 => .ok 0
  | 1 => .ok 1
  | 2 => .ok 2
  | _ => .error .reservedTable

/-- `cond` of the jump layout (R64); 5, 6, 7 are reserved. -/
def condOfBits (b : BitVec 3) : Except DecodeError Cond :=
  match b with
  | 0 => .ok .always
  | 1 => .ok .zero
  | 2 => .ok .less
  | 3 => .ok .greater
  | 4 => .ok .bitTest
  | _ => .error .reservedCond

/-- The bits of `cond` (R64). -/
def Cond.bits : Cond → BitVec 3
  | .always => 0
  | .zero => 1
  | .less => 2
  | .greater => 3
  | .bitTest => 4

/-- `cmp` of the compare-jump layout (R65). -/
def cmpOfBits (b : BitVec 2) : Cmp :=
  match b with
  | 0 => .eq
  | 1 => .gt
  | 2 => .bitOr
  | _ => .bitAnd

/-- The bits of `cmp` (R65). -/
def Cmp.bits : Cmp → BitVec 2
  | .eq => 0
  | .gt => 1
  | .bitOr => 2
  | .bitAnd => 3

/-- `half` of the branch-if-zero layout (R66); 3 is reserved. -/
def halfOfBits (b : BitVec 2) : Except DecodeError Half :=
  match b with
  | 0 => .ok .all
  | 1 => .ok .low
  | 2 => .ok .high
  | _ => .error .reservedHalf

/-- The bits of `half` (R66). -/
def Half.bits : Half → BitVec 2
  | .all => 0
  | .low => 1
  | .high => 2

/-- `kw` of the hash layout (R76). -/
def keyWidthOfBit (b : Bool) : KeyWidth := if b then .k60 else .k48

/-- The bit of `kw` (R76). -/
def KeyWidth.bit : KeyWidth → Bool
  | .k48 => false
  | .k60 => true

/-- The modifiers of an ALU word (R70). -/
def aluModsOf (w : Word) : AluMods := ⟨flag w 17, flag w 18, flag w 19, fld w 20 22⟩

/-! ## The layouts -/

/-- Layout "ALU" (R70): bit `i` chooses the register or the immediate form. -/
def decodeAlu (mkR : Reg → Reg → AluMods → Reg → Instr) (mkI : Reg → Reg → AluMods → BitVec 10 → Instr)
    (w : Word) : Instr :=
  if flag w 16 then mkI (fld w 6 11) (fld w 11 16) (aluModsOf w) (fld w 22 32)
  else mkR (fld w 6 11) (fld w 11 16) (aluModsOf w) (fld w 22 27)

/-- Layout "shift" (R71): `mode` chooses the shift, bit `i` the register or the immediate amount. -/
def decodeShift (w : Word) : Except DecodeError Instr :=
  let rd : Reg := fld w 6 11
  let ra : Reg := fld w 11 16
  let rb : Reg := fld w 22 27
  let amt5 : BitVec 5 := fld w 27 32
  match (fld w 16 18 : BitVec 2) with
  | 0 => .ok (if flag w 18 then .sllI rd ra amt5 else .sllR rd ra rb)
  | 1 => .ok (if flag w 18 then .srlI rd ra amt5 else .srlR rd ra rb)
  | 2 => .ok (if flag w 18 then .sraI rd ra amt5 else .sraR rd ra rb)
  | _ => .error .reservedShiftMode

/-- Layout "sign-extend" (R73). -/
def decodeSext (w : Word) : Except DecodeError Instr :=
  match (fld w 16 18 : BitVec 2) with
  | 0 => .ok (.sext8 (fld w 6 11) (fld w 11 16))
  | 1 => .ok (.sext16 (fld w 6 11) (fld w 11 16))
  | _ => .error .reservedSextSize

/-- Layout "load/store" (R68): `am` chooses the addressing; a 64-bit transfer needs a pair (R88). -/
def decodeLoadStore (mkD mkXI : Reg → Reg → Size → BitVec 12 → Instr) (mkXR : Reg → Reg → Size → Reg → Instr)
    (w : Word) : Except DecodeError Instr :=
  let rd : Reg := fld w 6 11
  let ra : Reg := fld w 11 16
  let size := sizeOfBits (fld w 16 18)
  match (fld w 18 20 : BitVec 2) with
  | 3 => .error .reservedAddressing
  | am =>
    if transferOk size rd then
      .ok (if am = 0 then mkD rd ra size (fld w 20 32)
        else if am = 1 then mkXI rd ra size (fld w 20 32)
        else mkXR rd ra size (fld w 27 32))
    else .error .pairPastLast

/-- Layout "compare-jump" (R65). -/
def decodeCmpj (w : Word) : Except DecodeError Instr := do
  let ds ← delayOfBits (fld w 6 8)
  let cmp := cmpOfBits (fld w 9 11)
  return if flag w 16 then .cmpjI ds (flag w 8) cmp (fld w 11 16) (fld w 17 22) (fld w 22 32)
    else .cmpjR ds (flag w 8) cmp (fld w 11 16) (fld w 17 22) (fld w 22 32)

/-- Layout "branch-if-zero" (R66). -/
def decodeBz (w : Word) : Except DecodeError Instr := do
  let ds ← delayOfBits (fld w 6 8)
  let half ← halfOfBits (fld w 9 11)
  return .bz ds (flag w 8) half (fld w 11 16) (fld w 16 32)

/-- Layout "hash" (R76). -/
def decodeHash (w : Word) : Except DecodeError Instr := do
  let tbl ← tableOfBits (fld w 8 10)
  let rk : Reg := fld w 12 17
  if pairOk rk then return .hash (flag w 6) (keyWidthOfBit (flag w 7)) tbl (fld w 10 12) rk
  else .error .pairPastLast

/-- Layout "CRC/CAM" (R77): `mode` chooses the unit's mode. -/
def decodeRamman (w : Word) : Instr :=
  if flag w 7 then .cam (flag w 6) (fld w 8 10) (fld w 10 12) (fld w 12 17) (fld w 17 22)
  else .crc (flag w 6) (fld w 8 10) (fld w 10 12) (fld w 12 17) (fld w 22 32)

/-- Layout "buffer-message" (R79). -/
def decodeBbmsg (w : Word) : Except DecodeError Instr :=
  let rp : Reg := fld w 16 21
  if !flag w 7 || pairOk rp then .ok (.bbmsg (flag w 6) (flag w 7) (fld w 8 12) (fld w 12 16) rp)
  else .error .pairPastLast

/-- Layouts "jump" (R64) and "long-jump" (R67), behind the jump prefix: bit `L`, then `tm` or `call`. -/
def decodeJump (w : Word) : Except DecodeError Instr := do
  let ds ← delayOfBits (fld w 6 8)
  if flag w 5 then
    return if flag w 9 then .lcall ds (flag w 8) (fld w 16 32) else .ljmp ds (flag w 8) (fld w 16 32)
  else
    let cond ← condOfBits (fld w 9 12)
    return if flag w 12 then .jmpr ds (flag w 8) cond (fld w 13 18) (fld w 18 23) (fld w 27 32)
      else .jmp ds (flag w 8) cond (fld w 13 18) (fld w 18 23) (fld w 23 32)

/-- Layouts "DMA" (R74) and "DMA-lookup" (R75), behind the DMA prefix, by `sub`. -/
def decodeDma (w : Word) : Except DecodeError Instr :=
  match (fld w 4 6 : BitVec 2) with
  | 0 => .ok (.dmard (flag w 6) (flag w 7) (fld w 8 13) (fld w 13 18) (fld w 22 32))
  | 1 => .ok (.dmawr (flag w 6) (flag w 7) (fld w 8 13) (fld w 13 18) (fld w 22 32))
  | 2 => .ok (.dmal (flag w 6) (fld w 7 9) (fld w 9 14) (fld w 14 19) (fld w 19 24))
  | _ => .error .reservedDmaSub

/-- The general 6-bit opcode table (R63). -/
def decodeGeneral (w : Word) : Except DecodeError Instr :=
  match (fld w 0 6 : BitVec 6) with
  | 0x00 => .ok .nop
  | 0x01 => .ok (decodeAlu .addR .addI w)
  | 0x02 => .ok (decodeAlu .subR .subI w)
  | 0x03 => .ok (decodeAlu .andR .andI w)
  | 0x04 => .ok (decodeAlu .orR .orI w)
  | 0x05 => .ok (decodeAlu .xorR .xorI w)
  | 0x06 => .ok (decodeAlu .mulR .mulI w)
  | 0x07 => .ok (.movi (fld w 6 11) (flag w 11) (flag w 12) (fld w 16 32))
  | 0x08 => decodeShift w
  | 0x09 => .ok (.insert (fld w 6 11) (fld w 11 16) (fld w 16 21) (fld w 21 26))
  | 0x0A => .ok (.extract (fld w 6 11) (fld w 11 16) (fld w 16 21) (fld w 21 26))
  | 0x0B => decodeSext w
  | 0x0C => decodeLoadStore .ldD .ldXI .ldXR w
  | 0x0D => decodeLoadStore .stD .stXI .stXR w
  | 0x0E => decodeLoadStore .ldcD .ldcXI .ldcXR w
  | 0x0F => decodeLoadStore .stcD .stcXI .stcXR w
  | 0x10 => decodeCmpj w
  | 0x11 => decodeBz w
  | 0x12 => .ok (.ctxswap (flag w 6))
  | 0x13 => decodeHash w
  | 0x14 => .ok (decodeRamman w)
  | 0x15 => .ok (.bbtx (flag w 6) (flag w 7) (flag w 8) (fld w 9 14) (fld w 22 32))
  | 0x16 => decodeBbmsg w
  | 0x17 => .ok (.ffi (fld w 6 11) (fld w 11 16))
  | 0x18 => .ok (.ichk (fld w 6 11) (fld w 11 16) (fld w 22 27))
  | 0x19 => .ok (.cnt (flag w 6) (flag w 7) (flag w 8) (flag w 9) (fld w 11 16) (fld w 24 32))
  | 0x1A => .ok (.crypto (flag w 6) (flag w 7) (fld w 11 16) (fld w 22 32))
  | 0x1B => .ok .ret
  | _ => .error .noHandler

/-- The instruction of a word, or the name of what is wrong with it (R62: the DMA prefix first, then the jump
prefix, then the general table). -/
def decodeWord (w : Word) : Except DecodeError Instr :=
  if fld w 0 4 = Config.dmaPrefix then decodeDma w
  else if fld w 0 5 = Config.jmpPrefix then decodeJump w
  else decodeGeneral w

/-- The first instruction of a string of bytes and the bytes after it (R41: four bytes, the most significant
first). -/
def decode : List Byte → Except DecodeError (Instr × List Byte)
  | b0 :: b1 :: b2 :: b3 :: rest => (decodeWord (joinBytes b0 b1 b2 b3)).map (fun i => (i, rest))
  | _ => .error .truncated

/-! ## The encoder -/

/-- Layout "ALU" (R70). -/
def encodeAlu (op : BitVec 6) (rd ra : Reg) (i : Bool) (m : AluMods) : Word :=
  put 0 6 op ||| put 6 11 rd ||| put 11 16 ra ||| putFlag 16 i ||| putFlag 17 m.f ||| putFlag 18 m.inv |||
    putFlag 19 m.sdir ||| put 20 22 m.samt

/-- Layout "shift" (R71). -/
def encodeShift (mode : BitVec 2) (rd ra : Reg) (i : Bool) : Word :=
  put 0 6 0x08 ||| put 6 11 rd ||| put 11 16 ra ||| put 16 18 mode ||| putFlag 18 i

/-- Layout "insert/extract" (R72). -/
def encodeBitField (op : BitVec 6) (rd ra : Reg) (pos wm1 : BitVec 5) : Word :=
  put 0 6 op ||| put 6 11 rd ||| put 11 16 ra ||| put 16 21 pos ||| put 21 26 wm1

/-- Layout "load/store" (R68). -/
def encodeLoadStore (op : BitVec 6) (rd ra : Reg) (size : Size) (am : BitVec 2) : Word :=
  put 0 6 op ||| put 6 11 rd ||| put 11 16 ra ||| put 16 18 size.bits ||| put 18 20 am

/-- Layout "compare-jump" (R65). -/
def encodeCmpj (ds : DelayCount) (inv : Bool) (cmp : Cmp) (ra : Reg) (i : Bool) (b : BitVec 5) (off10 : BitVec 10) :
    Word :=
  put 0 6 0x10 ||| put 6 8 (bitsOfThree ds) ||| putFlag 8 inv ||| put 9 11 cmp.bits ||| put 11 16 ra |||
    putFlag 16 i ||| put 17 22 b ||| put 22 32 off10

/-- Layout "jump" (R64), but for the target. -/
def encodeJump (ds : DelayCount) (inv : Bool) (cond : Cond) (tm : Bool) (rc : Reg) (bit : BitVec 5) : Word :=
  put 0 5 Config.jmpPrefix ||| put 6 8 (bitsOfThree ds) ||| putFlag 8 inv ||| put 9 12 cond.bits |||
    putFlag 12 tm ||| put 13 18 rc ||| put 18 23 bit

/-- Layout "long-jump" (R67). -/
def encodeLong (ds : DelayCount) (inv call : Bool) (addr16 : BitVec 16) : Word :=
  put 0 5 Config.jmpPrefix ||| putFlag 5 true ||| put 6 8 (bitsOfThree ds) ||| putFlag 8 inv |||
    putFlag 9 call ||| put 16 32 addr16

/-- Layout "DMA" (R74). -/
def encodeDma (sub : BitVec 2) (wake bp : Bool) (rs rc : Reg) (len : BitVec 10) : Word :=
  put 0 4 Config.dmaPrefix ||| put 4 6 sub ||| putFlag 6 wake ||| putFlag 7 bp ||| put 8 13 rs ||| put 13 18 rc |||
    put 22 32 len

/-- The word of an instruction, its ignored bits 0 (R64 to R89). -/
def encode : Instr → Word
  | .nop => put 0 6 0x00
  | .addR rd ra m rb => encodeAlu 0x01 rd ra false m ||| put 22 27 rb
  | .addI rd ra m imm10 => encodeAlu 0x01 rd ra true m ||| put 22 32 imm10
  | .subR rd ra m rb => encodeAlu 0x02 rd ra false m ||| put 22 27 rb
  | .subI rd ra m imm10 => encodeAlu 0x02 rd ra true m ||| put 22 32 imm10
  | .andR rd ra m rb => encodeAlu 0x03 rd ra false m ||| put 22 27 rb
  | .andI rd ra m imm10 => encodeAlu 0x03 rd ra true m ||| put 22 32 imm10
  | .orR rd ra m rb => encodeAlu 0x04 rd ra false m ||| put 22 27 rb
  | .orI rd ra m imm10 => encodeAlu 0x04 rd ra true m ||| put 22 32 imm10
  | .xorR rd ra m rb => encodeAlu 0x05 rd ra false m ||| put 22 27 rb
  | .xorI rd ra m imm10 => encodeAlu 0x05 rd ra true m ||| put 22 32 imm10
  | .mulR rd ra m rb => encodeAlu 0x06 rd ra false m ||| put 22 27 rb
  | .mulI rd ra m imm10 => encodeAlu 0x06 rd ra true m ||| put 22 32 imm10
  | .movi rd high clear imm16 =>
    put 0 6 0x07 ||| put 6 11 rd ||| putFlag 11 high ||| putFlag 12 clear ||| put 16 32 imm16
  | .sllR rd ra rb => encodeShift 0 rd ra false ||| put 22 27 rb
  | .sllI rd ra amt5 => encodeShift 0 rd ra true ||| put 27 32 amt5
  | .srlR rd ra rb => encodeShift 1 rd ra false ||| put 22 27 rb
  | .srlI rd ra amt5 => encodeShift 1 rd ra true ||| put 27 32 amt5
  | .sraR rd ra rb => encodeShift 2 rd ra false ||| put 22 27 rb
  | .sraI rd ra amt5 => encodeShift 2 rd ra true ||| put 27 32 amt5
  | .insert rd ra pos wm1 => encodeBitField 0x09 rd ra pos wm1
  | .extract rd ra pos wm1 => encodeBitField 0x0A rd ra pos wm1
  | .sext8 rd ra => put 0 6 0x0B ||| put 6 11 rd ||| put 11 16 ra ||| put 16 18 0
  | .sext16 rd ra => put 0 6 0x0B ||| put 6 11 rd ||| put 11 16 ra ||| put 16 18 1
  | .ldD rd ra size off12 => encodeLoadStore 0x0C rd ra size 0 ||| put 20 32 off12
  | .ldXI rd ra size idx12 => encodeLoadStore 0x0C rd ra size 1 ||| put 20 32 idx12
  | .ldXR rd ra size rb => encodeLoadStore 0x0C rd ra size 2 ||| put 27 32 rb
  | .stD rd ra size off12 => encodeLoadStore 0x0D rd ra size 0 ||| put 20 32 off12
  | .stXI rd ra size idx12 => encodeLoadStore 0x0D rd ra size 1 ||| put 20 32 idx12
  | .stXR rd ra size rb => encodeLoadStore 0x0D rd ra size 2 ||| put 27 32 rb
  | .ldcD rd ra size off12 => encodeLoadStore 0x0E rd ra size 0 ||| put 20 32 off12
  | .ldcXI rd ra size idx12 => encodeLoadStore 0x0E rd ra size 1 ||| put 20 32 idx12
  | .ldcXR rd ra size rb => encodeLoadStore 0x0E rd ra size 2 ||| put 27 32 rb
  | .stcD rd ra size off12 => encodeLoadStore 0x0F rd ra size 0 ||| put 20 32 off12
  | .stcXI rd ra size idx12 => encodeLoadStore 0x0F rd ra size 1 ||| put 20 32 idx12
  | .stcXR rd ra size rb => encodeLoadStore 0x0F rd ra size 2 ||| put 27 32 rb
  | .cmpjR ds inv cmp ra rb off10 => encodeCmpj ds inv cmp ra false rb off10
  | .cmpjI ds inv cmp ra imm5 off10 => encodeCmpj ds inv cmp ra true imm5 off10
  | .bz ds inv half ra off16 =>
    put 0 6 0x11 ||| put 6 8 (bitsOfThree ds) ||| putFlag 8 inv ||| put 9 11 half.bits ||| put 11 16 ra |||
      put 16 32 off16
  | .ctxswap save => put 0 6 0x12 ||| putFlag 6 save
  | .hash wake kw tbl slot rk =>
    put 0 6 0x13 ||| putFlag 6 wake ||| putFlag 7 kw.bit ||| put 8 10 (bitsOfThree tbl) ||| put 10 12 slot |||
      put 12 17 rk
  | .crc wake slot prof ra n =>
    put 0 6 0x14 ||| putFlag 6 wake ||| putFlag 7 false ||| put 8 10 slot ||| put 10 12 prof ||| put 12 17 ra |||
      put 22 32 n
  | .cam wake slot tsz rk rm =>
    put 0 6 0x14 ||| putFlag 6 wake ||| putFlag 7 true ||| put 8 10 slot ||| put 10 12 tsz ||| put 12 17 rk |||
      put 17 22 rm
  | .bbtx wake last inc rs len =>
    put 0 6 0x15 ||| putFlag 6 wake ||| putFlag 7 last ||| putFlag 8 inc ||| put 9 14 rs ||| put 22 32 len
  | .bbmsg wake w64 mtype dest rp =>
    put 0 6 0x16 ||| putFlag 6 wake ||| putFlag 7 w64 ||| put 8 12 mtype ||| put 12 16 dest ||| put 16 21 rp
  | .ffi rd ra => put 0 6 0x17 ||| put 6 11 rd ||| put 11 16 ra
  | .ichk rd ra rb => put 0 6 0x18 ||| put 6 11 rd ||| put 11 16 ra ||| put 22 27 rb
  | .cnt wake dec w4 frz rc amt =>
    put 0 6 0x19 ||| putFlag 6 wake ||| putFlag 7 dec ||| putFlag 8 w4 ||| putFlag 9 frz ||| put 11 16 rc |||
      put 24 32 amt
  | .crypto first last rs len =>
    put 0 6 0x1A ||| putFlag 6 first ||| putFlag 7 last ||| put 11 16 rs ||| put 22 32 len
  | .ret => put 0 6 0x1B
  | .jmp ds inv cond rc bit off9 => encodeJump ds inv cond false rc bit ||| put 23 32 off9
  | .jmpr ds inv cond rc bit rt => encodeJump ds inv cond true rc bit ||| put 27 32 rt
  | .ljmp ds inv addr16 => encodeLong ds inv false addr16
  | .lcall ds inv addr16 => encodeLong ds inv true addr16
  | .dmard wake bp rs rc len => encodeDma 0 wake bp rs rc len
  | .dmawr wake bp rs rc len => encodeDma 1 wake bp rs rc len
  | .dmal wake esz rs rb ri =>
    put 0 4 Config.dmaPrefix ||| put 4 6 2 ||| putFlag 6 wake ||| put 7 9 esz ||| put 9 14 rs ||| put 14 19 rb |||
      put 19 24 ri

/-- The bytes of an instruction as the code segment stores them (R41, R57). -/
def encodeBytes (i : Instr) : List Byte := wordBytes (encode i)

/-! ## The opcode table's numbering -/

/-- The word whose bits the opcode table gives as the number `w` of `nbits` bits, the bits above them 0. -/
def tableWord (nbits w : Nat) : Word := BitVec.ofNat 32 (w % 2 ^ nbits)

/-- The instruction the decoder reads from the bytes of the table's word `w` (none where it refuses). -/
def decodeTableWord (nbits w : Nat) : Option Instr :=
  match decode (wordBytes (tableWord nbits w)) with
  | .ok (i, []) => some i
  | .ok (_, _ :: _) => none
  | .error _ => none

end Sys2Proof
end

