-- ==== Sys2Proof/Machine/Memory.lean ====
section
/-! DEFINITION. Byte memory: a list of (address, byte) pairs in one canonical form, its reads and writes, and
the big-endian 16- and 32-bit accesses built from bytes (R40, R47, R49). -/

namespace Sys2Proof.Machine

/-- The contents of one address space (R40): the bytes that differ from what an unlisted address reads as,
by strictly rising address. -/
abbrev Mem := List Host.Cell

/-- What an address that the memory does not list reads as. R57: "A file shorter than its segment leaves the
rest of the segment 0". -/
def unlisted : Byte := 0

/-- Every listed address is at least `lo`, the addresses rise strictly, and no entry holds `unlisted`. -/
def Mem.wfFrom (lo : Nat) : Mem → Bool
  | [] => true
  | (a, v) :: rest => decide (lo ≤ a) && (v != unlisted) && Mem.wfFrom (a + 1) rest

/-- The canonical form: equal memories are equal lists. -/
def Mem.wf (m : Mem) : Bool := Mem.wfFrom 0 m

/-- The byte at an address. -/
def Mem.read : Mem → Nat → Byte
  | [], _ => unlisted
  | (b, v) :: rest, a => if a < b then unlisted else if a = b then v else Mem.read rest a

/-- The memory with the byte at an address replaced; the canonical form is kept. -/
def Mem.write : Mem → Nat → Byte → Mem
  | [], a, v => if v = unlisted then [] else [(a, v)]
  | (b, w) :: rest, a, v =>
    if a < b then
      if v = unlisted then (b, w) :: rest else (a, v) :: (b, w) :: rest
    else if a = b then
      if v = unlisted then rest else (a, v) :: rest
    else (b, w) :: Mem.write rest a v

/-- The bytes at `a`, `a + 1`, …, `n` of them. -/
def Mem.readBytes (m : Mem) (a : Nat) : Nat → List Byte
  | 0 => []
  | n + 1 => m.read a :: m.readBytes (a + 1) n

/-- The memory with a string of bytes stored from `a` upward. -/
def Mem.writeBytes (m : Mem) (a : Nat) : List Byte → Mem
  | [] => m
  | b :: bs => (m.write a b).writeBytes (a + 1) bs

/-- The big-endian 16-bit datum at `a` (R47, R49). -/
def Mem.read16 (m : Mem) (a : Nat) : BitVec 16 := m.read a ++ m.read (a + 1)

/-- The big-endian 32-bit word at `a` (R47, R49). -/
def Mem.read32 (m : Mem) (a : Nat) : Word :=
  joinBytes (m.read a) (m.read (a + 1)) (m.read (a + 2)) (m.read (a + 3))

/-- Store the low 16 bits of a datum, most significant byte first (R49). -/
def Mem.write16 (m : Mem) (a : Nat) (v : BitVec 16) : Mem :=
  m.writeBytes a [v.extractLsb' 8 8, v.extractLsb' 0 8]

/-- Store a word, most significant byte first (R49). -/
def Mem.write32 (m : Mem) (a : Nat) (v : Word) : Mem := m.writeBytes a (wordBytes v)

/-- The memory that lists the bytes of a string from `a` upward. -/
def Mem.listed (a : Nat) : List Byte → Mem
  | [] => []
  | b :: bs => if b = unlisted then Mem.listed (a + 1) bs else (a, b) :: Mem.listed (a + 1) bs

/-- The memory that a flat image file fills: byte `k` of the file is byte `k` of the segment, the rest of the
segment 0 (R57); bytes of the file beyond the segment are not loaded. -/
def Mem.ofImage (size : Nat) (image : List Byte) : Mem := Mem.listed 0 (image.take size)

end Sys2Proof.Machine
end

