-- ==== Sys2Proof/Machine/State.lean ====
section
/-! DEFINITION. The state of the machine as plain data: the two processors, what the Simulator holds for both,
and the model's own record of whose tick is next; the reasons a step can stop; and the state after
reset (R10 to R33). -/

namespace Sys2Proof.Machine

/-! ## Flags, delay-slot buffer, scheduler, stall record -/

/-- The four flags (R16). -/
structure Flags where
  z : Bool
  n : Bool
  c : Bool
  v : Bool
  deriving DecidableEq, Repr

/-- A pending delay-slot instruction: the word captured when the branch issued and its own code offset (R18). -/
structure PipeEntry where
  word : Word
  ipc : CodeOff
  deriving DecidableEq, Repr

/-- The five scheduler bits of a thread (R19). -/
structure ThreadBits where
  sync : Bool
  asyncN : Bool
  asyncU : Bool
  mask : Bool
  aen : Bool
  deriving DecidableEq, Repr

/-- Why the processor does not advance (R20, R105); `normal` is "not stalled". -/
inductive StallCause where
  | normal
  | noContext
  | dmaFull
  | bbtxFull
  | bbmsgFull
  | loadIoPending
  | rammanBusy
  | counterBusy
  | hashFull
  deriving DecidableEq, Repr

/-- The stall record (R20). `dsPc` is optional in the spec itself. -/
structure Stall where
  cause : StallCause
  start : Nat
  resumePc : CodeOff
  dsPc : Option CodeOff
  deriving DecidableEq, Repr

/-! ## Accelerator queues -/

/-- A queued operation: its completion clock, the thread that issued it, whether it wakes that thread, and the
payload of its unit (R21). -/
structure Entry (α : Type) where
  comp : Nat
  owner : ThreadId
  wake : Bool
  payload : α
  deriving DecidableEq, Repr

/-- The queue of a unit, in issue order, and the largest occupancy it ever had (R21, R266). -/
structure Fifo (α : Type) where
  entries : List (Entry α)
  hwm : Nat
  deriving DecidableEq, Repr

/-- Direction of a DMA transfer: common to SRAM, SRAM to common, or the lookup of a table entry (R21). -/
inductive DmaKind where
  | rd
  | wr
  | lk
  deriving DecidableEq, Repr

/-- The DMA payload (R21). -/
structure DmaOp where
  kind : DmaKind
  saddr : Word
  caddr : Word
  nwords : Nat
  deriving DecidableEq, Repr

/-- The payload of the CRC/CAM unit: `mode` is the constructor (R21). -/
inductive RammanOp where
  | crc (slot : ResultSlot) (prof : BitVec 2) (saddr : Word) (nwords : Nat)
  | cam (slot : ResultSlot) (key kmask : Word) (tsz : BitVec 2)
  deriving DecidableEq, Repr

/-- The result slot that an operation of the CRC/CAM unit writes. -/
def RammanOp.slot : RammanOp → ResultSlot
  | .crc slot _ _ _ => slot
  | .cam slot _ _ _ => slot

/-- The hash payload (R21). -/
structure HashOp where
  tbl : LookupTable
  slot : ResultSlot
  width : KeyWidth
  key : BitVec 60
  deriving DecidableEq, Repr

/-- The counter payload (R21). -/
structure CounterOp where
  caddr : Word
  dec : Bool
  w4 : Bool
  frz : Bool
  amt : BitVec 8
  deriving DecidableEq, Repr

/-- The buffer-transmit payload (R21). -/
structure BbtxOp where
  saddr : Word
  len : Nat
  last : Bool
  deriving DecidableEq, Repr

/-- The buffer-message payload (R21). -/
structure BbmsgOp where
  w64 : Bool
  mtype : BitVec 4
  dest : BitVec 4
  p0 : Word
  p1 : Word
  deriving DecidableEq, Repr

/-! ## Output records -/

/-- A buffer-transmit event (R30, R261). -/
structure TxRecord where
  owner : ThreadId
  data : List Byte
  len : Nat
  last : Bool
  deriving DecidableEq, Repr

/-- A buffer-message event (R30, R263). -/
structure MsgRecord where
  owner : ThreadId
  mtype : BitVec 4
  dest : BitVec 4
  w64 : Bool
  p0 : Word
  p1 : Word
  deriving DecidableEq, Repr

/-- A crypto event (R30, R264). -/
structure CryptoRecord where
  owner : ThreadId
  first : Bool
  last : Bool
  data : List Byte
  len : Nat
  deriving DecidableEq, Repr

/-! ## Halt state -/

/-- Why a processor is halted (R27, R356). -/
inductive HaltCause where
  | none
  | decode
  | access
  | panic
  | stack
  | shadow
  deriving DecidableEq, Repr

/-- What caused a halt: the `info` of R356. -/
inductive HaltInfo where
  | nothing
  | word (w : Word)
  | address (a : Word)
  | thread (t : ThreadId)
  | push
  | pop
  deriving DecidableEq, Repr

/-- `halt_info`: the clock, the `ipc` and the info of a halt (R27, R109). -/
structure HaltRecord where
  clk : Nat
  ipc : CodeOff
  info : HaltInfo
  deriving DecidableEq, Repr

/-! ## Processor, shared state, machine -/

/-- Everything one processor owns (R10 to R30). -/
structure Proc where
  /-- `P[0..23]`, the resident private registers (R11). -/
  priv : Vector Word Config.nPrivate
  /-- `G[0..7]`, the global registers (R11). -/
  glob : Vector Word Config.nGlobal
  /-- `CTX`, the context-save segment (R13, R46). -/
  ctx : Mem
  /-- The program counter (R15). -/
  pc : CodeOff
  flags : Flags
  /-- The call stack (R17). -/
  cs : Vector CodeOff Config.csDepth
  csDepth : Fin (Config.csDepth + 1)
  /-- The pipeline buffer in program order (R18). -/
  pipe : List PipeEntry
  /-- The scheduler bits of every thread (R19). -/
  threads : Vector ThreadBits Config.nThreads
  prev : ThreadId
  cur : ThreadId
  next : ThreadId
  nextValid : Bool
  saveCtx : Bool
  noCandidate : Bool
  stall : Stall
  /-- The six accelerator queues (R21). -/
  dma : Fifo DmaOp
  ramman : Fifo RammanOp
  hash : Fifo HashOp
  counter : Fifo CounterOp
  bbtx : Fifo BbtxOp
  bbmsg : Fifo BbmsgOp
  /-- The result-ready bits (R22). -/
  lkReady : Vector (Vector Bool Config.nResultSlots) Config.nLookupTables
  rmReady : Vector Bool Config.nResultSlots
  /-- The timers and their control bits (R25). -/
  timer : Vector (BitVec 16) Config.nTimers
  tpause : BitVec 4
  tchain : BitVec 3
  /-- The stored words of the IO register file, one for each word of the window (R26). -/
  ioStore : Vector Word Config.ioWords
  halted : Bool
  haltCause : HaltCause
  haltInfo : HaltRecord
  /-- The clock counter (R28). -/
  clk : Nat
  /-- The code segment (R41). -/
  code : Mem
  /-- The private SRAM (R42). -/
  sram : Mem
  txOut : List TxRecord
  msgOut : List MsgRecord
  cryptoOut : List CryptoRecord
  deriving DecidableEq, Repr

/-- A semaphore (R23). -/
structure Semaphore where
  held : Bool
  owner : ProcId
  waiter : ThreadId
  waitProc : ProcId
  wakeOnRelease : Bool
  deriving DecidableEq, Repr

/-- The counter-lock flag (R24). -/
structure CtrLock where
  held : Bool
  owner : ProcId
  deriving DecidableEq, Repr

/-- What the Simulator owns and both processors reference (R10). -/
structure Shared where
  common : Mem
  ddr : Mem
  psram : Mem
  sem : Vector Semaphore Config.nSem
  ctrLock : CtrLock
  deriving DecidableEq, Repr

/-- The machine. `self` is the processor that ticks next and `me` says which of the two it is; `peer` is the
other one. `ticks` and `draws` are the model's own counters: the number of the tick that comes next, the
argument of the OPEN schedule, and the number of the next latency draw. -/
structure State where
  me : ProcId
  self : Proc
  peer : Proc
  shared : Shared
  ticks : Nat
  draws : Nat
  deriving DecidableEq, Repr

/-- Why a step stops. -/
inductive Fault where
  /-- Raised by `step` alone, when both processors are halted: "A halted processor has no step" (R101). Safe:
  the spec gives no further behaviour. -/
  | allHalted
  deriving DecidableEq, Repr

/-- Why an instruction has no meaning. -/
inductive Refusal where
  /-- Raised by an arm of `exec` whose instruction is not modelled yet; no arm is. Safe. -/
  | notModelled (mnemonic : String)
  deriving DecidableEq, Repr

/-- What `exec` and `step` answer. -/
abbrev Out := Host.Outcome State Fault Refusal

/-! ## Reset (R33, R57, R370, R371) -/

/-- The images that the host supplies for one processor (R57). -/
structure Images where
  code : List Byte
  sram : List Byte
  ctx : List Byte
  deriving DecidableEq, Repr

/-- A semaphore after reset: free, nobody waiting (R23). -/
def Semaphore.reset : Semaphore := ⟨false, .p0, 0, .p0, false⟩

/-- A processor after reset, its segments holding their images (R33). -/
def Proc.boot (im : Images) : Proc :=
  let ctx := Mem.ofImage Config.ctxBytes im.ctx
  { priv := Vector.ofFn (fun k => if k = 0 then 0 else ctx.read32 (4 * k.val))
    glob := Vector.replicate _ 0
    ctx := ctx
    pc := Config.resetPc
    flags := ⟨false, false, false, false⟩
    cs := Vector.replicate _ 0
    csDepth := 0
    pipe := []
    threads := Vector.replicate _ ⟨false, false, false, false, false⟩
    prev := 0
    cur := 0
    next := 0
    nextValid := false
    saveCtx := false
    noCandidate := false
    stall := ⟨.normal, 0, 0, Option.none⟩
    dma := ⟨[], 0⟩
    ramman := ⟨[], 0⟩
    hash := ⟨[], 0⟩
    counter := ⟨[], 0⟩
    bbtx := ⟨[], 0⟩
    bbmsg := ⟨[], 0⟩
    lkReady := Vector.replicate _ (Vector.replicate _ true)
    rmReady := Vector.replicate _ true
    timer := Vector.replicate _ 0
    tpause := 0
    tchain := 0
    ioStore := Vector.replicate _ 0
    halted := false
    haltCause := .none
    haltInfo := ⟨0, 0, .nothing⟩
    clk := 0
    code := Mem.ofImage Config.codeBytes im.code
    sram := Mem.ofImage Config.sramBytes im.sram
    txOut := []
    msgOut := []
    cryptoOut := [] }

/-- The machine after reset when processor `first` has the first turn: that processor holds the images `own`, the
other one the images `other` (R33, R371). -/
def State.start (first : ProcId) (own other : Images) (common : List Byte) : State :=
  { me := first
    self := Proc.boot own
    peer := Proc.boot other
    shared :=
      { common := Mem.ofImage Config.commonBytes common
        ddr := []
        psram := []
        sem := Vector.replicate _ Semaphore.reset
        ctrLock := ⟨false, .p0⟩ }
    ticks := 0
    draws := 0 }

/-- The machine after reset with the images the host loaded, `im0` for processor 0 and `im1` for processor 1; the
first turn may be either's (R33, R352, R371, R373). -/
def State.boot (first : ProcId) (im0 im1 : Images) (common : List Byte) : State :=
  match first with
  | .p0 => State.start .p0 im0 im1 common
  | .p1 => State.start .p1 im1 im0 common

/-- The machine right after reset, nothing loaded: every image is empty, so every segment reads 0; the schedule
says whose tick is the first (R33, R57, R352). -/
def State.reset : State := State.start (Config.schedule 0) ⟨[], [], []⟩ ⟨[], [], []⟩ []

end Sys2Proof.Machine
end

