-- ==== Sys2Proof/Machine/Ops.lean ====
section
/-! DEFINITION. The named operations that the meanings are written over: registers, program counter, call
stack, address spaces, the selected instruction, the halt that a fatal condition is, the stall record,
the bookkeeping of a completed instruction, branches with delay slots, accelerator queues, wakeups. -/

namespace Sys2Proof.Machine

/-! ## General registers (R11, R12) -/

/-- The registers above the private ones are the global ones (R11). -/
theorem globalIndex_lt (r : Reg) : r.toNat - Config.nPrivate < Config.nGlobal := by
  have h : r.toNat < 32 := r.isLt
  show r.toNat - 24 < 8
  omega

/-- `x[r]` of a processor: 0 for `r0`, private for `r1..r23`, global for `r24..r31` (R11, R12). -/
def Proc.reg (p : Proc) (r : Reg) : Word :=
  if r = 0 then 0
  else if h : r.toNat < Config.nPrivate then p.priv[r.toNat]
  else p.glob[r.toNat - Config.nPrivate]'(globalIndex_lt r)

/-- `x[r] <- v`; the write to `r0` is dropped (R12). -/
def Proc.setReg (p : Proc) (r : Reg) (v : Word) : Proc :=
  if r = 0 then p
  else if h : r.toNat < Config.nPrivate then { p with priv := p.priv.set r.toNat v }
  else { p with glob := p.glob.set (r.toNat - Config.nPrivate) v (globalIndex_lt r) }

/-- `x[r]` of the ticking processor. -/
def State.reg (s : State) (r : Reg) : Word := s.self.reg r

/-- `x[r] <- v` on the ticking processor. -/
def State.setReg (s : State) (r : Reg) (v : Word) : State := { s with self := s.self.setReg r v }

/-! ## Program counter and code (R15, R41) -/

/-- The mask that every computed program counter goes through (R15). -/
def maskPc (a : CodeOff) : CodeOff := a &&& Config.pcMask

/-- `pc <- t`, masked (R7, R15). -/
def State.setPc (s : State) (t : CodeOff) : State := { s with self := { s.self with pc := maskPc t } }

/-- The instruction word at a code offset (R41 `CodeRead`). -/
def Proc.codeRead (p : Proc) (a : CodeOff) : Word := p.code.read32 a.toNat

/-- `pipe_clk`: always the number of pending delay-slot instructions (R18). -/
def Proc.pipeClk (p : Proc) : Nat := p.pipe.length

/-- The instruction is selected from the delay-slot buffer (R102). -/
def State.fromPipe (s : State) : Bool :=
  match s.self.pipe with
  | [] => false
  | _ :: _ => true

/-- `ipc`: the code offset the selected instruction was fetched from (R102). -/
def State.ipc (s : State) : CodeOff :=
  match s.self.pipe with
  | [] => s.self.pc
  | e :: _ => e.ipc

/-- The word of the selected instruction (R102). -/
def State.word (s : State) : Word :=
  match s.self.pipe with
  | [] => s.self.codeRead s.self.pc
  | e :: _ => e.word

/-! ## Address spaces (R40, R49) -/

/-- The address spaces as the ticking processor sees them (R40). -/
inductive Space where
  | code
  | sram
  | ctx
  | common
  | ddr
  | psram
  deriving DecidableEq, Repr

/-- The contents of an address space. -/
def State.mem (s : State) : Space → Mem
  | .code => s.self.code
  | .sram => s.self.sram
  | .ctx => s.self.ctx
  | .common => s.shared.common
  | .ddr => s.shared.ddr
  | .psram => s.shared.psram

/-- One byte of an address space. -/
def State.readByte (s : State) (sp : Space) (a : Nat) : Byte := (s.mem sp).read a

/-- The private SRAM replaced. -/
def State.setSram (s : State) (m : Mem) : State := { s with self := { s.self with sram := m } }

/-- The common segment replaced. -/
def State.setCommon (s : State) (m : Mem) : State := { s with shared := { s.shared with common := m } }

/-- An address that an accelerator captures: aligned, and the whole range of `bytes` bytes inside a space of
`size` bytes, without wrap (R245). -/
def rangeOk (size align : Nat) (addr : Word) (bytes : Nat) : Bool :=
  decide (addr.toNat % align = 0) && decide (addr.toNat + bytes ≤ size)

/-! ## Fatal conditions (R109, R340) -/

/-- Taking a fatal condition: the processor halts with its cause and the record (clk, ipc, info), and nothing
else changes (R109, R340). There is no handler and no return (R349). -/
def State.halt (s : State) (cause : HaltCause) (ipc : CodeOff) (info : HaltInfo) : State :=
  { s with self := { s.self with halted := true, haltCause := cause, haltInfo := ⟨s.self.clk, ipc, info⟩ } }

/-- The numeric code of a halt cause (R356). -/
def HaltCause.code : HaltCause → Nat
  | .none => 0
  | .decode => 1
  | .access => 2
  | .panic => 3
  | .stack => 4
  | .shadow => 5

/-! ## The three outcomes of an instruction's rule (R104) -/

/-- What an instruction's own rule says: `Done` with its effects, `Stalled` or `Fatal`; the last two without
any change (R104). -/
inductive Result where
  | done (t : State)
  | stalled (c : StallCause)
  | fatal (k : HaltCause) (info : HaltInfo)

/-- The code offset of the delay-slot instruction behind the selected one, if there is one (R106). -/
def Proc.dsPc (p : Proc) : Option CodeOff :=
  match p.pipe with
  | _ :: e :: _ => some e.ipc
  | [_] => Option.none
  | [] => Option.none

/-- Stall entry: the cause, the clock and the offsets are recorded, but for a retry that failed again, which
leaves the record as it is (R106). Only the cause is compared: a stalled instruction is selected again
until it completes, so an equal cause is the same instruction's (R102, R107). -/
def State.recordStall (s : State) (c : StallCause) : State :=
  if s.self.stall.cause = c then s
  else { s with self := { s.self with stall := ⟨c, s.self.clk, s.ipc, s.self.dsPc⟩ } }

/-- `stall.cause <- Normal`, the first bookkeeping of an instruction that completes (R104). -/
def State.endStall (s : State) : State :=
  { s with self := { s.self with stall := { s.self.stall with cause := .normal } } }

/-- The bookkeeping of a completed instruction that is no control transfer: the stall ends; a delay-slot
instruction leaves the buffer and keeps `pc`, any other advances `pc` by one word (R104, R191). -/
def State.retire (s : State) : State :=
  match s.self.pipe with
  | [] => s.endStall.setPc (s.self.pc + 4)
  | _ :: rest => { s.endStall with self := { s.endStall.self with pipe := rest } }

/-- The outcome of an instruction that is no control transfer (R104, R106, R109). -/
def complete (r : Result) (s : State) : Out :=
  .next (match r with
    | .done t => t.retire
    | .stalled c => s.recordStall c
    | .fatal k info => s.halt k s.ipc info)

/-! ## Call stack and branches (R17, R181, R190) -/

/-- A code offset pushed on the call stack; no push when it is full (R17). -/
def Proc.pushReturn (p : Proc) (a : CodeOff) : Option Proc :=
  if h : p.csDepth.val < Config.csDepth then
    some { p with cs := p.cs.set p.csDepth.val a, csDepth := ⟨p.csDepth.val + 1, Nat.succ_lt_succ h⟩ }
  else Option.none

/-- The newest return address and the processor without it; none when the stack is empty (R17). -/
def Proc.popReturn (p : Proc) : Option (CodeOff × Proc) :=
  if h : 0 < p.csDepth.val then
    some (p.cs[p.csDepth.val - 1]'(by have := p.csDepth.isLt; omega),
      { p with csDepth := ⟨p.csDepth.val - 1, by have := p.csDepth.isLt; omega⟩ })
  else Option.none

/-- The `n` delay-slot instructions after `ipc`, captured at issue with their own offsets (R181). -/
def Proc.capture (p : Proc) (ipc : CodeOff) (n : Nat) : List PipeEntry :=
  (List.range n).map (fun k =>
    let a := maskPc (ipc + BitVec.ofNat 16 (4 * (k + 1)))
    ⟨p.codeRead a, a⟩)

/-- `take_branch`: capture the delay slots and redirect `pc` (R181). -/
def State.takeBranch (s : State) (ipc target : CodeOff) (n : Nat) : State :=
  { s with self := { s.self with pipe := s.self.capture ipc n, pc := maskPc target } }

/-- A control transfer selected from the delay-slot buffer is a fatal decode, whatever it would do (R190);
otherwise it runs, and a completed one ends a stall (R104). -/
def control (s : State) (run : State) : Out :=
  if s.fromPipe then .next (s.halt .decode s.ipc (.word s.word)) else .next run

/-- The shape of a branch that pushes nothing: to the target with its delay slots, or on to the next word
(R180, R182). -/
def State.branch (s : State) (taken : Bool) (target : CodeOff) (ds : DelayCount) : State :=
  if taken then s.endStall.takeBranch s.ipc target ds.val else s.endStall.setPc (s.ipc + 4)

/-! ## Wakeups (R218) -/

/-- The scheduler bits of one thread changed. -/
def Proc.onThread (p : Proc) (t : ThreadId) (f : ThreadBits → ThreadBits) : Proc :=
  { p with threads := p.threads.set t.val (f p.threads[t.val]) }

/-- `sync[t] <- 1` (R218). -/
def Proc.postSync (p : Proc) (t : ThreadId) : Proc := p.onThread t (fun b => { b with sync := true })

/-- `sync[t] <- 1` on processor `q` (R316). -/
def State.postSyncTo (s : State) (q : ProcId) (t : ThreadId) : State :=
  if q = s.me then { s with self := s.self.postSync t } else { s with peer := s.peer.postSync t }

/-! ## Accelerator queues (R242, R265) -/

/-- The largest completion clock queued, 0 when the queue is empty (R242 `far`). -/
def Fifo.furthest {α : Type} (f : Fifo α) : Nat := f.entries.foldl (fun m e => max m e.comp) 0

/-- The queue of unit `u` has no room (R265). -/
def Fifo.full {α : Type} (f : Fifo α) (u : Accel) : Bool := decide (Config.depth u ≤ f.entries.length)

/-- An operation appended, its completion clock floored by the furthest one queued (R242). -/
def Fifo.push {α : Type} (f : Fifo α) (clk lat : Nat) (owner : ThreadId) (wake : Bool) (payload : α) : Fifo α :=
  { entries := f.entries ++ [⟨max (clk + lat) f.furthest, owner, wake, payload⟩]
    hwm := max f.hwm (f.entries.length + 1) }

/-- The completion clock at the head of a queue. -/
def Fifo.headComp {α : Type} (f : Fifo α) : Option Nat := f.entries.head?.map (fun e => e.comp)

/-! ## Fields of the IO register file that hardware writes (R26) -/

/-- The word index of `LKUP_RES[t][s]` (R26: offset 0x080 + 16t + 4s). -/
def lkupIndex (t : LookupTable) (s : ResultSlot) : IoIndex :=
  ⟨32 + 4 * t.val + s.val, by have ht : t.val < 3 := t.isLt; have hs : s.val < 4 := s.isLt; show _ < 256; omega⟩

/-- The word index of `RAMMAN_RES[s]` (R26: offset 0x0C0 + 4s). -/
def rammanIndex (s : ResultSlot) : IoIndex :=
  ⟨48 + s.val, by have hs : s.val < 4 := s.isLt; show _ < 256; omega⟩

/-- The word index of `MSG[i]` (R26: offset 0x044 + 4i). -/
def msgIndex (i : Fin 3) : IoIndex := ⟨17 + i.val, by show _ < 256; omega⟩

/-- A stored word of the IO register file replaced. -/
def Proc.setIo (p : Proc) (i : IoIndex) (v : Word) : Proc := { p with ioStore := p.ioStore.set i.val v }

end Sys2Proof.Machine
end

