-- ==== Sys2Proof/Machine/Operands.lean ====
section
/-! DEFINITION. The operand forms: operand B of the ALU family, shift amounts, effective addresses, the space an
access reaches, branch targets and conditions, the hash key (R121, R141, R161, R162, R183 to R188, R251). -/

namespace Sys2Proof.Machine

/-! ## ALU and shifts -/

/-- Operand B: byte shift first, inversion second (R121). -/
def operandB (b0 : Word) (m : AluMods) : Word :=
  let k := 8 * m.samt.toNat
  let b1 := if m.sdir then b0 >>> k else b0 <<< k
  if m.inv then ~~~b1 else b1

/-- A shift amount taken from a register: its low 5 bits (R141). -/
def shiftAmount (v : Word) : Nat := (v.extractLsb' 0 5).toNat

/-- The mask of a bit field of width `wm1 + 1` at `pos`, cut at bit 31 (R144). -/
def fieldMask (pos wm1 : BitVec 5) : Word := BitVec.ofNat 32 (2 ^ (wm1.toNat + 1) - 1) <<< pos.toNat

/-! ## Effective addresses (R161) -/

/-- The number of bytes of an access (R161). -/
def Size.bytes : Size → Nat
  | .b8 => 1
  | .b16 => 2
  | .b32 => 4
  | .b64 => 8

/-- The code of a size, the base-2 logarithm of its bytes (R161). -/
def Size.code : Size → Nat
  | .b8 => 0
  | .b16 => 1
  | .b32 => 2
  | .b64 => 3

/-- Direct: a signed byte offset (R161, `am = 0`). -/
def eaDirect (base : Word) (off12 : BitVec 12) : Word := base + off12.signExtend 32

/-- Indexed by immediate: an element index scaled by the access size (R161, `am = 1`). -/
def eaIndexImm (base : Word) (size : Size) (idx12 : BitVec 12) : Word :=
  base + idx12.setWidth 32 * BitVec.ofNat 32 (Size.bytes size)

/-- Indexed by register: an element index scaled by the access size (R161, `am = 2`). -/
def eaIndexReg (base : Word) (size : Size) (idx : Word) : Word := base + idx <<< Size.code size

/-- An access of the given size is aligned: 16 bits even, 32 and 64 bits a multiple of 4 (R48). -/
def aligned (ea : Word) (size : Size) : Bool := decide (ea.toNat % min (Size.bytes size) 4 = 0)

/-- What an LD or ST reaches (R162). -/
inductive DataTarget where
  | sram
  | io (i : IoIndex)
  deriving DecidableEq, Repr

/-- The space that an LD or ST reaches, none for `FatalAccess`; alignment is checked first (R162). -/
def dataSpace (ea : Word) (size : Size) : Option DataTarget :=
  if !aligned ea size then Option.none
  else if ea.toNat + Size.bytes size ≤ Config.sramBytes then some .sram
  else if size = .b32 ∧ Config.ioBase ≤ ea.toNat ∧ ea.toNat ≤ Config.ioBase + Config.ioBytes - 4 then
    some (.io (Fin.ofNat _ ((ea.toNat - Config.ioBase) / 4)))
  else Option.none

/-- An LDC or STC at `ea` is aligned and inside the common segment (R165, R48, R49). -/
def commonOk (ea : Word) (size : Size) : Bool :=
  aligned ea size && decide (ea.toNat + Size.bytes size ≤ Config.commonBytes)

/-! ## Branches -/

/-- A PC-relative target: a signed word offset from the instruction's own address (R183, R187, R188). -/
def relTarget {k : Nat} (ipc : CodeOff) (off : BitVec k) : CodeOff := ipc + BitVec.ofInt 16 (4 * off.toInt)

/-- The condition of a short jump (R183). -/
def condHolds (cond : Cond) (flags : Flags) (rc : Word) (bit : BitVec 5) : Bool :=
  match cond with
  | .always => true
  | .zero => flags.z
  | .less => flags.n
  | .greater => !flags.n && !flags.z
  | .bitTest => rc.getLsbD bit.toNat

/-- The comparison of a compare-jump; "greater" is unsigned (R188). -/
def cmpHolds (cmp : Cmp) (a b : Word) : Bool :=
  match cmp with
  | .eq => a == b
  | .gt => decide (b.toNat < a.toNat)
  | .bitOr => (a ||| b) != 0
  | .bitAnd => (a &&& b) != 0

/-- The bits that a zero-test branch tests are all 0 (R187). -/
def halfIsZero (half : Half) (v : Word) : Bool :=
  match half with
  | .all => v == 0
  | .low => v.extractLsb' 0 16 == 0
  | .high => v.extractLsb' 16 16 == 0

/-! ## Hash key (R251) -/

/-- The low 48 or 60 bits of the register pair, the first register the high word (R251). -/
def hashKey (kw : KeyWidth) (hi lo : Word) : BitVec 60 :=
  let pair : BitVec 64 := hi ++ lo
  match kw with
  | .k48 => (pair.extractLsb' 0 48).setWidth 60
  | .k60 => pair.extractLsb' 0 60

end Sys2Proof.Machine
end

