-- ==== Sys2Proof/Machine/Accel.lean ====
section
/-! DEFINITION. The invoke instructions of the accelerator units: operands captured and checked at issue, then
the availability test, then the issue effects and the enqueue (R240 to R264). Completions are in
`Completion`. -/

namespace Sys2Proof.Machine

/-! ## Enqueue on each unit (R242)

Every enqueue takes the next latency draw. -/

/-- The draw counter advanced. -/
def State.drawn (s : State) : State := { s with draws := s.draws + 1 }

/-- Enqueue on the DMA unit (R242). -/
def State.enqueueDma (s : State) (wake : Bool) (op : DmaOp) : State :=
  { s.drawn with self :=
    { s.self with dma := s.self.dma.push s.self.clk (Config.latency .dma s.draws) s.self.cur wake op } }

/-- Enqueue on the CRC/CAM unit: the ready bit of its result slot is cleared at issue (R242, R253). -/
def State.enqueueRamman (s : State) (wake : Bool) (op : RammanOp) : State :=
  { s.drawn with self :=
    { s.self with
      rmReady := s.self.rmReady.set op.slot.val false
      ramman := s.self.ramman.push s.self.clk (Config.latency .ramman s.draws) s.self.cur wake op } }

/-- Enqueue on the hash unit: the ready bit of its result slot is cleared at issue (R242, R251). -/
def State.enqueueHash (s : State) (wake : Bool) (op : HashOp) : State :=
  { s.drawn with self :=
    { s.self with
      lkReady := s.self.lkReady.set op.tbl.val (s.self.lkReady[op.tbl.val].set op.slot.val false)
      hash := s.self.hash.push s.self.clk (Config.latency .hash s.draws) s.self.cur wake op } }

/-- Enqueue on the counter unit (R242). -/
def State.enqueueCounter (s : State) (wake : Bool) (op : CounterOp) : State :=
  { s.drawn with self :=
    { s.self with counter := s.self.counter.push s.self.clk (Config.latency .counter s.draws) s.self.cur wake op } }

/-- Enqueue on the buffer-transmit unit (R242). -/
def State.enqueueBbtx (s : State) (wake : Bool) (op : BbtxOp) : State :=
  { s.drawn with self :=
    { s.self with bbtx := s.self.bbtx.push s.self.clk (Config.latency .bbtx s.draws) s.self.cur wake op } }

/-- Enqueue on the buffer-message unit (R242). -/
def State.enqueueBbmsg (s : State) (wake : Bool) (op : BbmsgOp) : State :=
  { s.drawn with self :=
    { s.self with bbmsg := s.self.bbmsg.push s.self.clk (Config.latency .bbmsg s.draws) s.self.cur wake op } }

/-! ## DMA (R246 to R249) -/

/-- The common address of DMARD and DMAWR, raw or relative to the buffer pool (R246). -/
def dmaCommonAddr (x : Word) (bp : Bool) : Word := if bp then x + Config.bpoolBase else x

/-- The common address of DMAL: table base plus index times entry size (R249). -/
def dmaTableAddr (base idx : Word) (nwords : Nat) : Word := base + idx * BitVec.ofNat 32 (4 * nwords)

/-- The shape of a DMA invocation: the SRAM range, the common range, room, enqueue (R241, R246). -/
def dmaRule (wake : Bool) (op : DmaOp) (s : State) : Result :=
  if !rangeOk Config.sramBytes 4 op.saddr (4 * op.nwords) then .fatal .access (.address op.saddr)
  else if !rangeOk Config.commonBytes 4 op.caddr (4 * op.nwords) then .fatal .access (.address op.caddr)
  else if s.self.dma.full .dma then .stalled .dmaFull
  else .done (s.enqueueDma wake op)

/-- DMARD: common to SRAM (R247). -/
def ruleDmard (wake bp : Bool) (rs rc : Reg) (len : BitVec 10) (s : State) : Result :=
  dmaRule wake ⟨.rd, s.reg rs, dmaCommonAddr (s.reg rc) bp, len.toNat⟩ s

/-- DMAWR: SRAM to common (R248). -/
def ruleDmawr (wake bp : Bool) (rs rc : Reg) (len : BitVec 10) (s : State) : Result :=
  dmaRule wake ⟨.wr, s.reg rs, dmaCommonAddr (s.reg rc) bp, len.toNat⟩ s

/-- DMAL: the table entry with an index, to SRAM (R249). -/
def ruleDmal (wake : Bool) (esz : BitVec 2) (rs rb ri : Reg) (s : State) : Result :=
  let nwords := 2 ^ esz.toNat
  dmaRule wake ⟨.lk, s.reg rs, dmaTableAddr (s.reg rb) (s.reg ri) nwords, nwords⟩ s

/-! ## Hash, CRC, CAM, counter (R251, R254, R256, R258) -/

/-- HASH: a 48- or 60-bit key from a register pair (R251). -/
def ruleHash (wake : Bool) (kw : KeyWidth) (tbl : LookupTable) (slot : BitVec 2) (rk : Reg) (s : State) : Result :=
  if s.self.hash.full .hash then .stalled .hashFull
  else .done (s.enqueueHash wake ⟨tbl, slot.toFin, kw, hashKey kw (s.reg rk) (s.reg (rk + 1))⟩)

/-- CRC of `n` words of SRAM (R254). -/
def ruleCrc (wake : Bool) (slot prof : BitVec 2) (ra : Reg) (n : BitVec 10) (s : State) : Result :=
  let saddr := s.reg ra
  if !rangeOk Config.sramBytes 4 saddr (4 * n.toNat) then .fatal .access (.address saddr)
  else if s.self.ramman.full .ramman then .stalled .rammanBusy
  else .done (s.enqueueRamman wake (.crc slot.toFin prof saddr n.toNat))

/-- CAM: key and mask from registers (R256). -/
def ruleCam (wake : Bool) (slot tsz : BitVec 2) (rk rm : Reg) (s : State) : Result :=
  if s.self.ramman.full .ramman then .stalled .rammanBusy
  else .done (s.enqueueRamman wake (.cam slot.toFin (s.reg rk) (s.reg rm) tsz))

/-- The width of a counter in bytes (R258). -/
def counterBytes (w4 : Bool) : Nat := if w4 then 4 else 2

/-- CNT: a counter of 2 or 4 bytes in the common segment (R258). -/
def ruleCnt (wake dec w4 frz : Bool) (rc : Reg) (amt : BitVec 8) (s : State) : Result :=
  let caddr := s.reg rc
  let b := counterBytes w4
  if !rangeOk Config.commonBytes b caddr b then .fatal .access (.address caddr)
  else if s.self.counter.full .counter then .stalled .counterBusy
  else .done (s.enqueueCounter wake ⟨caddr, dec, w4, frz, amt⟩)

/-! ## Buffer-transmit, buffer-message, crypto (R260, R262, R264) -/

/-- BBTX: a range of SRAM bytes; with `inc` the address register moves past it at issue (R260). -/
def ruleBbtx (wake last inc : Bool) (rs : Reg) (len : BitVec 10) (s : State) : Result :=
  let saddr := s.reg rs
  if !rangeOk Config.sramBytes 4 saddr len.toNat then .fatal .access (.address saddr)
  else if s.self.bbtx.full .bbtx then .stalled .bbtxFull
  else
    let t := if inc then s.setReg rs (saddr + len.setWidth 32) else s
    .done (t.enqueueBbtx wake ⟨saddr, len.toNat, last⟩)

/-- BBMSG: a payload of one register or of a pair (R262). -/
def ruleBbmsg (wake w64 : Bool) (mtype dest : BitVec 4) (rp : Reg) (s : State) : Result :=
  if s.self.bbmsg.full .bbmsg then .stalled .bbmsgFull
  else .done (s.enqueueBbmsg wake ⟨w64, mtype, dest, s.reg rp, if w64 then s.reg (rp + 1) else 0⟩)

/-- CRYPTO: no queue; the chunk is emitted in the instruction's own tick (R264). -/
def ruleCrypto (first last : Bool) (rs : Reg) (len : BitVec 10) (s : State) : Result :=
  let saddr := s.reg rs
  if !rangeOk Config.sramBytes 4 saddr len.toNat then .fatal .access (.address saddr)
  else
    let data := s.self.sram.readBytes saddr.toNat len.toNat
    .done { s with self :=
      { s.self with cryptoOut := s.self.cryptoOut ++ [⟨s.self.cur, first, last, data, len.toNat⟩] } }

/-! ## The meanings -/

/-- DMARD, completed (R247, R104). -/
def execDmard (wake bp : Bool) (rs rc : Reg) (len : BitVec 10) (s : State) : Out :=
  complete (ruleDmard wake bp rs rc len s) s

/-- DMAWR, completed (R248, R104). -/
def execDmawr (wake bp : Bool) (rs rc : Reg) (len : BitVec 10) (s : State) : Out :=
  complete (ruleDmawr wake bp rs rc len s) s

/-- DMAL, completed (R249, R104). -/
def execDmal (wake : Bool) (esz : BitVec 2) (rs rb ri : Reg) (s : State) : Out :=
  complete (ruleDmal wake esz rs rb ri s) s

/-- HASH, completed (R251, R104). -/
def execHash (wake : Bool) (kw : KeyWidth) (tbl : LookupTable) (slot : BitVec 2) (rk : Reg) (s : State) : Out :=
  complete (ruleHash wake kw tbl slot rk s) s

/-- CRC, completed (R254, R104). -/
def execCrc (wake : Bool) (slot prof : BitVec 2) (ra : Reg) (n : BitVec 10) (s : State) : Out :=
  complete (ruleCrc wake slot prof ra n s) s

/-- CAM, completed (R256, R104). -/
def execCam (wake : Bool) (slot tsz : BitVec 2) (rk rm : Reg) (s : State) : Out :=
  complete (ruleCam wake slot tsz rk rm s) s

/-- CNT, completed (R258, R104). -/
def execCnt (wake dec w4 frz : Bool) (rc : Reg) (amt : BitVec 8) (s : State) : Out :=
  complete (ruleCnt wake dec w4 frz rc amt s) s

/-- BBTX, completed (R260, R104). -/
def execBbtx (wake last inc : Bool) (rs : Reg) (len : BitVec 10) (s : State) : Out :=
  complete (ruleBbtx wake last inc rs len s) s

/-- BBMSG, completed (R262, R104). -/
def execBbmsg (wake w64 : Bool) (mtype dest : BitVec 4) (rp : Reg) (s : State) : Out :=
  complete (ruleBbmsg wake w64 mtype dest rp s) s

/-- CRYPTO, completed (R264, R104). -/
def execCrypto (first last : Bool) (rs : Reg) (len : BitVec 10) (s : State) : Out :=
  complete (ruleCrypto first last rs len s) s

end Sys2Proof.Machine
end

