-- ==== Sys2Proof/Machine/Flags.lean ====
section
/-! DEFINITION. The write-back of the ALU family: the wrapped result, the four flags and the record of a
register write that did not fit (R128). -/

namespace Sys2Proof.Machine

/-- The exact result `X` modulo 2^32 (R128). -/
def wrap (X : Int) : Word := BitVec.ofInt 32 X

/-- The register write did not fit the representable range 0 to 2^32 - 1 (R128). -/
def writeOverflows (X : Int) : Bool := decide (X < 0 ∨ 2 ^ 32 ≤ X)

/-- The flags after an ALU instruction: all four recomputed with `f`, `V` only set without it (R128). -/
def aluFlags (old : Flags) (f : Bool) (X : Int) (carry : Bool) : Flags :=
  if f then ⟨wrap X == 0, (wrap X).getLsbD 31, carry, writeOverflows X⟩
  else { old with v := old.v || writeOverflows X }

/-- `writeback(rd, X, f)`: the register write, dropped for `r0`, and the flags, which are computed all the same
(R128, R12). -/
def State.writeback (s : State) (rd : Reg) (X : Int) (carry f : Bool) : State :=
  let t := s.setReg rd (wrap X)
  { t with self := { t.self with flags := aluFlags s.self.flags f X carry } }

end Sys2Proof.Machine
end

