-- ==== Sys2Proof/Machine/Alu.lean ====
section
/-! DEFINITION. The ALU family ADD, SUB, AND, OR, XOR, MUL in register and immediate form (R120 to R129). Each
instruction has its rule, which a CTXSWAP shadow runs too, and its meaning, the rule completed (R104). -/

namespace Sys2Proof.Machine

/-- The shape of the family: operands, exact result, write-back (R120). `op` gives the exact result and its
carry. -/
def aluRule (op : Word → Word → Int × Bool) (rd ra : Reg) (m : AluMods) (b0 : Word) (s : State) : Result :=
  let r := op (s.reg ra) (operandB b0 m)
  .done (s.writeback rd r.1 r.2 m.f)

/-- The exact sum and its carry (R122). -/
def addOp (a b : Word) : Int × Bool :=
  let X : Int := (a.toNat : Int) + (b.toNat : Int)
  (X, decide (2 ^ 32 ≤ X))

/-- The exact difference and its borrow (R123). -/
def subOp (a b : Word) : Int × Bool :=
  let X : Int := (a.toNat : Int) - (b.toNat : Int)
  (X, decide (X < 0))

/-- Bitwise and, no carry (R124). -/
def andOp (a b : Word) : Int × Bool := (((a &&& b).toNat : Int), false)

/-- Bitwise or, no carry (R125). -/
def orOp (a b : Word) : Int × Bool := (((a ||| b).toNat : Int), false)

/-- Bitwise exclusive or, no carry (R126). -/
def xorOp (a b : Word) : Int × Bool := (((a ^^^ b).toNat : Int), false)

/-- The exact unsigned product, no carry (R127). -/
def mulOp (a b : Word) : Int × Bool := ((a.toNat : Int) * (b.toNat : Int), false)

/-- ADD, register form (R122). -/
def ruleAddR (rd ra : Reg) (m : AluMods) (rb : Reg) (s : State) : Result := aluRule addOp rd ra m (s.reg rb) s

/-- ADD, immediate form (R122). -/
def ruleAddI (rd ra : Reg) (m : AluMods) (imm10 : BitVec 10) (s : State) : Result :=
  aluRule addOp rd ra m (imm10.setWidth 32) s

/-- ADD, register form, completed (R122, R104). -/
def execAddR (rd ra : Reg) (m : AluMods) (rb : Reg) (s : State) : Out := complete (ruleAddR rd ra m rb s) s

/-- ADD, immediate form, completed (R122, R104). -/
def execAddI (rd ra : Reg) (m : AluMods) (imm10 : BitVec 10) (s : State) : Out :=
  complete (ruleAddI rd ra m imm10 s) s

/-- SUB, register form (R123). -/
def ruleSubR (rd ra : Reg) (m : AluMods) (rb : Reg) (s : State) : Result := aluRule subOp rd ra m (s.reg rb) s

/-- SUB, immediate form (R123). -/
def ruleSubI (rd ra : Reg) (m : AluMods) (imm10 : BitVec 10) (s : State) : Result :=
  aluRule subOp rd ra m (imm10.setWidth 32) s

/-- SUB, register form, completed (R123, R104). -/
def execSubR (rd ra : Reg) (m : AluMods) (rb : Reg) (s : State) : Out := complete (ruleSubR rd ra m rb s) s

/-- SUB, immediate form, completed (R123, R104). -/
def execSubI (rd ra : Reg) (m : AluMods) (imm10 : BitVec 10) (s : State) : Out :=
  complete (ruleSubI rd ra m imm10 s) s

/-- AND, register form (R124). -/
def ruleAndR (rd ra : Reg) (m : AluMods) (rb : Reg) (s : State) : Result := aluRule andOp rd ra m (s.reg rb) s

/-- AND, immediate form (R124). -/
def ruleAndI (rd ra : Reg) (m : AluMods) (imm10 : BitVec 10) (s : State) : Result :=
  aluRule andOp rd ra m (imm10.setWidth 32) s

/-- AND, register form, completed (R124, R104). -/
def execAndR (rd ra : Reg) (m : AluMods) (rb : Reg) (s : State) : Out := complete (ruleAndR rd ra m rb s) s

/-- AND, immediate form, completed (R124, R104). -/
def execAndI (rd ra : Reg) (m : AluMods) (imm10 : BitVec 10) (s : State) : Out :=
  complete (ruleAndI rd ra m imm10 s) s

/-- OR, register form (R125). -/
def ruleOrR (rd ra : Reg) (m : AluMods) (rb : Reg) (s : State) : Result := aluRule orOp rd ra m (s.reg rb) s

/-- OR, immediate form (R125). -/
def ruleOrI (rd ra : Reg) (m : AluMods) (imm10 : BitVec 10) (s : State) : Result :=
  aluRule orOp rd ra m (imm10.setWidth 32) s

/-- OR, register form, completed (R125, R104). -/
def execOrR (rd ra : Reg) (m : AluMods) (rb : Reg) (s : State) : Out := complete (ruleOrR rd ra m rb s) s

/-- OR, immediate form, completed (R125, R104). -/
def execOrI (rd ra : Reg) (m : AluMods) (imm10 : BitVec 10) (s : State) : Out :=
  complete (ruleOrI rd ra m imm10 s) s

/-- XOR, register form (R126). -/
def ruleXorR (rd ra : Reg) (m : AluMods) (rb : Reg) (s : State) : Result := aluRule xorOp rd ra m (s.reg rb) s

/-- XOR, immediate form (R126). -/
def ruleXorI (rd ra : Reg) (m : AluMods) (imm10 : BitVec 10) (s : State) : Result :=
  aluRule xorOp rd ra m (imm10.setWidth 32) s

/-- XOR, register form, completed (R126, R104). -/
def execXorR (rd ra : Reg) (m : AluMods) (rb : Reg) (s : State) : Out := complete (ruleXorR rd ra m rb s) s

/-- XOR, immediate form, completed (R126, R104). -/
def execXorI (rd ra : Reg) (m : AluMods) (imm10 : BitVec 10) (s : State) : Out :=
  complete (ruleXorI rd ra m imm10 s) s

/-- MUL, register form (R127). -/
def ruleMulR (rd ra : Reg) (m : AluMods) (rb : Reg) (s : State) : Result := aluRule mulOp rd ra m (s.reg rb) s

/-- MUL, immediate form (R127). -/
def ruleMulI (rd ra : Reg) (m : AluMods) (imm10 : BitVec 10) (s : State) : Result :=
  aluRule mulOp rd ra m (imm10.setWidth 32) s

/-- MUL, register form, completed (R127, R104). -/
def execMulR (rd ra : Reg) (m : AluMods) (rb : Reg) (s : State) : Out := complete (ruleMulR rd ra m rb s) s

/-- MUL, immediate form, completed (R127, R104). -/
def execMulI (rd ra : Reg) (m : AluMods) (imm10 : BitVec 10) (s : State) : Out :=
  complete (ruleMulI rd ra m imm10 s) s

end Sys2Proof.Machine
end

