-- ==== Sys2Proof/Machine/Branch.lean ====
section
/-! DEFINITION. Jumps, branches, call and return with their delay slots (R180 to R192). A control transfer never
runs from the delay-slot buffer (R190): `control` turns it into a fatal decode. -/

namespace Sys2Proof.Machine

/-- JMP: conditional, PC-relative (R183). -/
def execJmp (ds : DelayCount) (inv : Bool) (cond : Cond) (rc : Reg) (bit : BitVec 5) (off9 : BitVec 9) (s : State) : Out :=
  control s (s.branch (condHolds cond s.self.flags (s.reg rc) bit ^^ inv) (relTarget s.ipc off9) ds)

/-- JMPR: conditional, to the offset in the low 16 bits of a register (R184). -/
def execJmpr (ds : DelayCount) (inv : Bool) (cond : Cond) (rc : Reg) (bit : BitVec 5) (rt : Reg) (s : State) : Out :=
  control s (s.branch (condHolds cond s.self.flags (s.reg rc) bit ^^ inv) ((s.reg rt).extractLsb' 0 16) ds)

/-- LJMP: to an absolute offset; inverted it is never taken (R185). -/
def execLjmp (ds : DelayCount) (inv : Bool) (addr16 : BitVec 16) (s : State) : Out :=
  control s (s.branch (!inv) addr16 ds)

/-- LCALL: as LJMP, pushing the offset after the delay slots when taken; a full stack is fatal (R185, R186). -/
def execLcall (ds : DelayCount) (inv : Bool) (addr16 : BitVec 16) (s : State) : Out :=
  control s
    (if inv then s.branch false addr16 ds
    else
      match s.self.pushReturn (maskPc (s.ipc + BitVec.ofNat 16 (4 * (1 + ds.val)))) with
      | Option.none => s.halt .stack s.ipc .push
      | some p => ({ s with self := p } : State).branch true addr16 ds)

/-- BZ: on a register or one half of it being zero (R187). -/
def execBz (ds : DelayCount) (inv : Bool) (half : Half) (ra : Reg) (off16 : BitVec 16) (s : State) : Out :=
  control s (s.branch (halfIsZero half (s.reg ra) ^^ inv) (relTarget s.ipc off16) ds)

/-- CMPJ with a register operand (R188). -/
def execCmpjR (ds : DelayCount) (inv : Bool) (cmp : Cmp) (ra rb : Reg) (off10 : BitVec 10) (s : State) : Out :=
  control s (s.branch (cmpHolds cmp (s.reg ra) (s.reg rb) ^^ inv) (relTarget s.ipc off10) ds)

/-- CMPJ with an immediate operand, zero-extended (R188). -/
def execCmpjI (ds : DelayCount) (inv : Bool) (cmp : Cmp) (ra : Reg) (imm5 : BitVec 5) (off10 : BitVec 10) (s : State) : Out :=
  control s (s.branch (cmpHolds cmp (s.reg ra) (imm5.setWidth 32) ^^ inv) (relTarget s.ipc off10) ds)

/-- RET: to the newest return address, always with two delay slots; an empty stack is fatal (R189). -/
def execRet (s : State) : Out :=
  control s
    (match s.self.popReturn with
    | Option.none => s.halt .stack s.ipc .pop
    | some (a, p) => ({ s with self := p } : State).branch true a 2)

end Sys2Proof.Machine
end

