-- ==== Sys2Proof/Machine/IoFile.lean ====
section
/-! DEFINITION. The memory-mapped IO register file: which register an offset names, what a load returns and what
a store does, with the wakeup, timer, semaphore and counter-lock commands (R26, R300 to R320). -/

namespace Sys2Proof.Machine

/-- The registers of the IO window (R26). -/
inductive IoReg where
  | control
  | wakeup
  | semCtrl0
  | semCtrl1
  | parserSum
  | parserCsum
  | timerCtrl
  | timer (i : Fin Config.nTimers)
  | counterLock
  | gpio
  | intCtrl (i : Fin 3)
  | msg (i : Fin 3)
  | lkupRes (t : LookupTable) (s : ResultSlot)
  | rammanRes (s : ResultSlot)
  | threadWakeup (t : ThreadId)
  | unnamed
  deriving DecidableEq, Repr

/-- The register at byte offset `4 * i` of the window (R26). -/
def ioReg (i : IoIndex) : IoReg :=
  let k := i.val
  if k = 0 then .control
  else if k = 1 then .wakeup
  else if k = 2 then .semCtrl0
  else if k = 3 then .semCtrl1
  else if k = 4 then .parserSum
  else if k = 5 then .parserCsum
  else if k = 6 then .timerCtrl
  else if k = 7 then .unnamed
  else if k < 12 then .timer (Fin.ofNat _ (k - 8))
  else if k = 12 then .counterLock
  else if k = 13 then .gpio
  else if k < 17 then .intCtrl (Fin.ofNat 3 (k - 14))
  else if k < 20 then .msg (Fin.ofNat 3 (k - 17))
  else if k < 32 then .unnamed
  else if k < 44 then .lkupRes (Fin.ofNat _ ((k - 32) / 4)) (Fin.ofNat _ (k - 32))
  else if k < 48 then .unnamed
  else if k < 52 then .rammanRes (Fin.ofNat _ (k - 48))
  else if k < 64 then .unnamed
  else if k < 96 then .threadWakeup (Fin.ofNat _ (k - 64))
  else .unnamed

/-- The word whose bit `i` is entry `i` of a list, the bits above 0. -/
def packBits (bs : List Bool) : Word := (BitVec.ofBoolListLE bs).setWidth 32

/-! ## Storage registers (R303, R304, R305) -/

/-- The stored word after a store through a write mask (R302). -/
def masked (old v mask : Word) : Word := (old &&& ~~~mask) ||| (v &&& mask)

/-- A store to a storage register (R302). -/
def State.storeMasked (s : State) (i : IoIndex) (v mask : Word) : State :=
  { s with self := s.self.setIo i (masked s.self.ioStore[i.val] v mask) }

/-! ## Scheduler registers (R306, R310) -/

/-- A store to `WAKEUP` (R306): one bit of one thread set; reserved modes have no effect. -/
def State.storeWakeup (s : State) (v : Word) : State :=
  let tmode : BitVec 2 := v.extractLsb' 5 2
  let kind : BitVec 2 := v.extractLsb' 7 2
  let th : ThreadId := if tmode = 0 then (v.extractLsb' 0 5).toFin else s.self.cur
  if 2 ≤ tmode.toNat ∨ kind = 3 then s
  else
    let set : ThreadBits → ThreadBits := fun b =>
      if kind = 0 then { b with sync := true }
      else if kind = 1 then { b with asyncN := true }
      else { b with asyncU := true }
    { s with self := s.self.onThread th set }

/-- The value of `THREAD_WAKEUP[t]` (R310). -/
def threadWord (b : ThreadBits) : Word := packBits [b.sync, b.asyncN, b.asyncU, b.mask, b.aen]

/-- The five bits that a store to `THREAD_WAKEUP[t]` leaves (R310). -/
def threadBitsOf (v : Word) : ThreadBits :=
  ⟨v.getLsbD 0, v.getLsbD 1, v.getLsbD 2, v.getLsbD 3, v.getLsbD 4⟩

/-! ## Timer control (R313) -/

/-- The value of `TIMER_CTRL` (R313). -/
def timerCtrlWord (p : Proc) : Word := (p.tchain.setWidth 32 <<< 8) ||| p.tpause.setWidth 32

/-- A store to `TIMER_CTRL`: pause and chain bits replaced, timers with a reset strobe cleared (R313). -/
def State.storeTimerCtrl (s : State) (v : Word) : State :=
  { s with self :=
    { s.self with
      tpause := v.extractLsb' 0 4
      tchain := v.extractLsb' 8 3
      timer := Vector.ofFn (fun i : Fin Config.nTimers => if v.getLsbD (4 + i.val) then 0 else s.self.timer[i.val]) } }

/-! ## Semaphores (R315, R316, R317) -/

/-- One semaphore replaced. -/
def State.setSem (s : State) (i : Fin Config.nSem) (m : Semaphore) : State :=
  { s with shared := { s.shared with sem := s.shared.sem.set i.val m } }

/-- Acquire: taken if free; if not, and asked to wait, the current thread becomes the waiter (R315). -/
def State.acquire (s : State) (i : Fin Config.nSem) (wait : Bool) : State :=
  let m := s.shared.sem[i.val]
  if !m.held then s.setSem i { m with held := true, owner := s.me }
  else if wait then s.setSem i { m with waiter := s.self.cur, waitProc := s.me, wakeOnRelease := true }
  else s

/-- Release: freed without an owner check; a recorded waiter gets a sync wakeup on its own processor (R316). -/
def State.release (s : State) (i : Fin Config.nSem) : State :=
  let m := s.shared.sem[i.val]
  let t := s.setSem i { m with held := false, owner := .p0, wakeOnRelease := false }
  if m.wakeOnRelease then t.postSyncTo m.waitProc m.waiter else t

/-- A store to `SEM_CTRL0` (R315). -/
def State.storeSemCtrl (s : State) (v : Word) : State :=
  let i : Fin Config.nSem := (v.extractLsb' 0 3).toFin
  let cmd : BitVec 2 := v.extractLsb' 3 2
  if cmd = 1 then s.acquire i (v.getLsbD 5)
  else if cmd = 2 then s.release i
  else s

/-- The value of `SEM_CTRL1`: the held bits, then the bits of those held by this processor (R317). -/
def semStatusWord (me : ProcId) (sem : Vector Semaphore Config.nSem) : Word :=
  packBits (sem.toList.map (fun m => m.held) ++ sem.toList.map (fun m => m.held && m.owner == me))

/-! ## Counter-lock (R319) -/

/-- A store to `COUNTER_LOCK`: a try-lock (R319). -/
def State.storeCounterLock (s : State) (v : Word) : State :=
  let l := s.shared.ctrLock
  if v.getLsbD 0 then
    if !l.held then { s with shared := { s.shared with ctrLock := ⟨true, s.me⟩ } } else s
  else if l.held && l.owner == s.me then { s with shared := { s.shared with ctrLock := { l with held := false } } }
  else s

/-- The value of `COUNTER_LOCK` (R319). -/
def counterLockWord (me : ProcId) (l : CtrLock) : Word :=
  packBits [l.held && l.owner == me, l.held && l.owner == me.other]

/-! ## The two accesses -/

/-- `IoLoad` of the register at offset `4 * i`; none when a result register is not ready (R301, R308). -/
def State.ioLoad (s : State) (i : IoIndex) : Option Word :=
  let stored := s.self.ioStore[i.val]
  match ioReg i with
  | .control | .parserSum | .parserCsum | .gpio | .intCtrl _ | .msg _ | .unnamed => some stored
  | .wakeup | .semCtrl0 => some 0
  | .semCtrl1 => some (semStatusWord s.me s.shared.sem)
  | .timerCtrl => some (timerCtrlWord s.self)
  | .timer k => some (s.self.timer[k.val].setWidth 32)
  | .counterLock => some (counterLockWord s.me s.shared.ctrLock)
  | .lkupRes t k => if s.self.lkReady[t.val][k.val] then some stored else Option.none
  | .rammanRes k => if s.self.rmReady[k.val] then some stored else Option.none
  | .threadWakeup t => some (threadWord s.self.threads[t.val])

/-- `IoStore` of a word to the register at offset `4 * i` (R302). -/
def State.ioStoreWord (s : State) (i : IoIndex) (v : Word) : State :=
  match ioReg i with
  | .control | .parserSum | .parserCsum | .gpio | .intCtrl _ => s.storeMasked i v (Config.wmask (4 * i.val))
  | .unnamed => s.storeMasked i v 0xFFFFFFFF
  | .semCtrl1 | .timer _ | .msg _ | .lkupRes _ _ | .rammanRes _ => s
  | .wakeup => s.storeWakeup v
  | .semCtrl0 => s.storeSemCtrl v
  | .timerCtrl => s.storeTimerCtrl v
  | .counterLock => s.storeCounterLock v
  | .threadWakeup t => { s with self := s.self.onThread t (fun _ => threadBitsOf v) }

end Sys2Proof.Machine
end

