-- ==== Sys2Proof/Machine/LoadStore.lean ====
section
/-! DEFINITION. Loads and stores of the private data space and of the common segment, in the three addressing
forms (R160 to R166). Every check comes before the first write. -/

namespace Sys2Proof.Machine

/-- A load of the given size from a memory into `rd`, the pair `rd, rd+1` for 64 bits; sub-word data are
zero-extended (R163, R50). -/
def State.loadFrom (s : State) (m : Mem) (a : Nat) (size : Size) (rd : Reg) : State :=
  match size with
  | .b8 => s.setReg rd ((m.read a).setWidth 32)
  | .b16 => s.setReg rd ((m.read16 a).setWidth 32)
  | .b32 => s.setReg rd (m.read32 a)
  | .b64 => (s.setReg rd (m.read32 a)).setReg (rd + 1) (m.read32 (a + 4))

/-- A memory with a store of the given size performed; `v1` is the second word of a 64-bit store (R164, R50). -/
def storeTo (m : Mem) (a : Nat) (size : Size) (v0 v1 : Word) : Mem :=
  match size with
  | .b8 => m.write a (v0.extractLsb' 0 8)
  | .b16 => m.write16 a (v0.extractLsb' 0 16)
  | .b32 => m.write32 a v0
  | .b64 => (m.write32 a v0).write32 (a + 4) v1

/-- LD at an effective address: SRAM, or a register of the IO window, which may not be ready (R163). -/
def ldRule (ea : Word) (size : Size) (rd : Reg) (s : State) : Result :=
  match dataSpace ea size with
  | Option.none => .fatal .access (.address ea)
  | some .sram => .done (s.loadFrom s.self.sram ea.toNat size rd)
  | some (.io i) =>
    match s.ioLoad i with
    | Option.none => .stalled .loadIoPending
    | some v => .done (s.setReg rd v)

/-- ST at an effective address (R164). -/
def stRule (ea : Word) (size : Size) (rd : Reg) (s : State) : Result :=
  match dataSpace ea size with
  | Option.none => .fatal .access (.address ea)
  | some .sram => .done (s.setSram (storeTo s.self.sram ea.toNat size (s.reg rd) (s.reg (rd + 1))))
  | some (.io i) => .done (s.ioStoreWord i (s.reg rd))

/-- LDC at an effective address (R165). -/
def ldcRule (ea : Word) (size : Size) (rd : Reg) (s : State) : Result :=
  if commonOk ea size then .done (s.loadFrom s.shared.common ea.toNat size rd)
  else .fatal .access (.address ea)

/-- STC at an effective address (R166). -/
def stcRule (ea : Word) (size : Size) (rd : Reg) (s : State) : Result :=
  if commonOk ea size then .done (s.setCommon (storeTo s.shared.common ea.toNat size (s.reg rd) (s.reg (rd + 1))))
  else .fatal .access (.address ea)

/-- LD, direct (R163, R161). -/
def ruleLdD (rd ra : Reg) (size : Size) (off12 : BitVec 12) (s : State) : Result :=
  ldRule (eaDirect (s.reg ra) off12) size rd s

/-- LD, direct, completed (R163, R104). -/
def execLdD (rd ra : Reg) (size : Size) (off12 : BitVec 12) (s : State) : Out :=
  complete (ruleLdD rd ra size off12 s) s

/-- LD, indexed by immediate (R163, R161). -/
def ruleLdXI (rd ra : Reg) (size : Size) (idx12 : BitVec 12) (s : State) : Result :=
  ldRule (eaIndexImm (s.reg ra) size idx12) size rd s

/-- LD, indexed by immediate, completed (R163, R104). -/
def execLdXI (rd ra : Reg) (size : Size) (idx12 : BitVec 12) (s : State) : Out :=
  complete (ruleLdXI rd ra size idx12 s) s

/-- LD, indexed by register (R163, R161). -/
def ruleLdXR (rd ra : Reg) (size : Size) (rb : Reg) (s : State) : Result :=
  ldRule (eaIndexReg (s.reg ra) size (s.reg rb)) size rd s

/-- LD, indexed by register, completed (R163, R104). -/
def execLdXR (rd ra : Reg) (size : Size) (rb : Reg) (s : State) : Out :=
  complete (ruleLdXR rd ra size rb s) s

/-- ST, direct (R164, R161). -/
def ruleStD (rd ra : Reg) (size : Size) (off12 : BitVec 12) (s : State) : Result :=
  stRule (eaDirect (s.reg ra) off12) size rd s

/-- ST, direct, completed (R164, R104). -/
def execStD (rd ra : Reg) (size : Size) (off12 : BitVec 12) (s : State) : Out :=
  complete (ruleStD rd ra size off12 s) s

/-- ST, indexed by immediate (R164, R161). -/
def ruleStXI (rd ra : Reg) (size : Size) (idx12 : BitVec 12) (s : State) : Result :=
  stRule (eaIndexImm (s.reg ra) size idx12) size rd s

/-- ST, indexed by immediate, completed (R164, R104). -/
def execStXI (rd ra : Reg) (size : Size) (idx12 : BitVec 12) (s : State) : Out :=
  complete (ruleStXI rd ra size idx12 s) s

/-- ST, indexed by register (R164, R161). -/
def ruleStXR (rd ra : Reg) (size : Size) (rb : Reg) (s : State) : Result :=
  stRule (eaIndexReg (s.reg ra) size (s.reg rb)) size rd s

/-- ST, indexed by register, completed (R164, R104). -/
def execStXR (rd ra : Reg) (size : Size) (rb : Reg) (s : State) : Out :=
  complete (ruleStXR rd ra size rb s) s

/-- LDC, direct (R165, R161). -/
def ruleLdcD (rd ra : Reg) (size : Size) (off12 : BitVec 12) (s : State) : Result :=
  ldcRule (eaDirect (s.reg ra) off12) size rd s

/-- LDC, direct, completed (R165, R104). -/
def execLdcD (rd ra : Reg) (size : Size) (off12 : BitVec 12) (s : State) : Out :=
  complete (ruleLdcD rd ra size off12 s) s

/-- LDC, indexed by immediate (R165, R161). -/
def ruleLdcXI (rd ra : Reg) (size : Size) (idx12 : BitVec 12) (s : State) : Result :=
  ldcRule (eaIndexImm (s.reg ra) size idx12) size rd s

/-- LDC, indexed by immediate, completed (R165, R104). -/
def execLdcXI (rd ra : Reg) (size : Size) (idx12 : BitVec 12) (s : State) : Out :=
  complete (ruleLdcXI rd ra size idx12 s) s

/-- LDC, indexed by register (R165, R161). -/
def ruleLdcXR (rd ra : Reg) (size : Size) (rb : Reg) (s : State) : Result :=
  ldcRule (eaIndexReg (s.reg ra) size (s.reg rb)) size rd s

/-- LDC, indexed by register, completed (R165, R104). -/
def execLdcXR (rd ra : Reg) (size : Size) (rb : Reg) (s : State) : Out :=
  complete (ruleLdcXR rd ra size rb s) s

/-- STC, direct (R166, R161). -/
def ruleStcD (rd ra : Reg) (size : Size) (off12 : BitVec 12) (s : State) : Result :=
  stcRule (eaDirect (s.reg ra) off12) size rd s

/-- STC, direct, completed (R166, R104). -/
def execStcD (rd ra : Reg) (size : Size) (off12 : BitVec 12) (s : State) : Out :=
  complete (ruleStcD rd ra size off12 s) s

/-- STC, indexed by immediate (R166, R161). -/
def ruleStcXI (rd ra : Reg) (size : Size) (idx12 : BitVec 12) (s : State) : Result :=
  stcRule (eaIndexImm (s.reg ra) size idx12) size rd s

/-- STC, indexed by immediate, completed (R166, R104). -/
def execStcXI (rd ra : Reg) (size : Size) (idx12 : BitVec 12) (s : State) : Out :=
  complete (ruleStcXI rd ra size idx12 s) s

/-- STC, indexed by register (R166, R161). -/
def ruleStcXR (rd ra : Reg) (size : Size) (rb : Reg) (s : State) : Result :=
  stcRule (eaIndexReg (s.reg ra) size (s.reg rb)) size rd s

/-- STC, indexed by register, completed (R166, R104). -/
def execStcXR (rd ra : Reg) (size : Size) (rb : Reg) (s : State) : Out :=
  complete (ruleStcXR rd ra size rb s) s

end Sys2Proof.Machine
end

