-- ==== Sys2Proof/Machine/Move.lean ====
section
/-! DEFINITION. Move-immediate, shifts, insert and extract, sign extension, FFI, integrity check, no-op (R140 to
R149). None reads or writes a flag, touches memory or stalls. -/

namespace Sys2Proof.Machine

/-- NOP: no effect (R149). -/
def ruleNop (s : State) : Result := .done s

/-- MOVI: one half of `rd` from the immediate, the other cleared or kept (R140). -/
def ruleMovi (rd : Reg) (high clear : Bool) (imm16 : BitVec 16) (s : State) : Result :=
  let old := s.reg rd
  let v : Word :=
    if high then imm16 ++ (if clear then 0 else old.extractLsb' 0 16)
    else (if clear then (0 : BitVec 16) else old.extractLsb' 16 16) ++ imm16
  .done (s.setReg rd v)

/-- The least bit number set, 32 when there is none (R147). -/
def firstSet (a : Word) : Nat := ((List.range Config.xlen).find? (fun k => a.getLsbD k)).getD Config.xlen

/-- SLL by a register amount: shift left, zeros in, bits shifted out lost (R141). -/
def ruleSllR (rd ra rb : Reg) (s : State) : Result :=
  .done (s.setReg rd (s.reg ra <<< shiftAmount (s.reg rb)))

/-- SLL by an immediate amount: shift left, zeros in, bits shifted out lost (R141). -/
def ruleSllI (rd ra : Reg) (amt5 : BitVec 5) (s : State) : Result :=
  .done (s.setReg rd (s.reg ra <<< amt5.toNat))

/-- SRL by a register amount: shift right, zeros in (R142). -/
def ruleSrlR (rd ra rb : Reg) (s : State) : Result :=
  .done (s.setReg rd (s.reg ra >>> shiftAmount (s.reg rb)))

/-- SRL by an immediate amount: shift right, zeros in (R142). -/
def ruleSrlI (rd ra : Reg) (amt5 : BitVec 5) (s : State) : Result :=
  .done (s.setReg rd (s.reg ra >>> amt5.toNat))

/-- SRA by a register amount: shift right, copies of bit 31 in (R143). -/
def ruleSraR (rd ra rb : Reg) (s : State) : Result :=
  .done (s.setReg rd ((s.reg ra).sshiftRight (shiftAmount (s.reg rb))))

/-- SRA by an immediate amount: shift right, copies of bit 31 in (R143). -/
def ruleSraI (rd ra : Reg) (amt5 : BitVec 5) (s : State) : Result :=
  .done (s.setReg rd ((s.reg ra).sshiftRight (amt5.toNat)))

/-- INSERT: the low bits of `ra` replace a field of `rd`, cut at bit 31 (R144). -/
def ruleInsert (rd ra : Reg) (pos wm1 : BitVec 5) (s : State) : Result :=
  let m := fieldMask pos wm1
  .done (s.setReg rd ((s.reg rd &&& ~~~m) ||| ((s.reg ra <<< pos.toNat) &&& m)))

/-- EXTRACT: a field of `ra`, zero-extended; bits above bit 31 read 0 (R145). -/
def ruleExtract (rd ra : Reg) (pos wm1 : BitVec 5) (s : State) : Result :=
  .done (s.setReg rd ((s.reg ra >>> pos.toNat) &&& BitVec.ofNat 32 (2 ^ (wm1.toNat + 1) - 1)))

/-- SEXT8: the low 8 bits of `ra` as a signed number (R146). -/
def ruleSext8 (rd ra : Reg) (s : State) : Result :=
  .done (s.setReg rd (((s.reg ra).extractLsb' 0 8).signExtend 32))

/-- SEXT16: the low 16 bits of `ra` as a signed number (R146). -/
def ruleSext16 (rd ra : Reg) (s : State) : Result :=
  .done (s.setReg rd (((s.reg ra).extractLsb' 0 16).signExtend 32))

/-- FFI: the number of the least-significant set bit, 32 for 0 (R147). -/
def ruleFfi (rd ra : Reg) (s : State) : Result := .done (s.setReg rd (BitVec.ofNat 32 (firstSet (s.reg ra))))

/-- ICHK: an OPEN function of two registers (R148). -/
def ruleIchk (rd ra rb : Reg) (s : State) : Result :=
  .done (s.setReg rd (Config.ichkFn (s.reg ra) (s.reg rb)))

/-- NOP, completed (R149, R104). -/
def execNop (s : State) : Out := complete (ruleNop s) s

/-- MOVI, completed (R140, R104). -/
def execMovi (rd : Reg) (high clear : Bool) (imm16 : BitVec 16) (s : State) : Out := complete (ruleMovi rd high clear imm16 s) s

/-- SLL by a register amount, completed (R141, R104). -/
def execSllR (rd ra rb : Reg) (s : State) : Out := complete (ruleSllR rd ra rb s) s

/-- SLL by an immediate amount, completed (R141, R104). -/
def execSllI (rd ra : Reg) (amt5 : BitVec 5) (s : State) : Out := complete (ruleSllI rd ra amt5 s) s

/-- SRL by a register amount, completed (R142, R104). -/
def execSrlR (rd ra rb : Reg) (s : State) : Out := complete (ruleSrlR rd ra rb s) s

/-- SRL by an immediate amount, completed (R142, R104). -/
def execSrlI (rd ra : Reg) (amt5 : BitVec 5) (s : State) : Out := complete (ruleSrlI rd ra amt5 s) s

/-- SRA by a register amount, completed (R143, R104). -/
def execSraR (rd ra rb : Reg) (s : State) : Out := complete (ruleSraR rd ra rb s) s

/-- SRA by an immediate amount, completed (R143, R104). -/
def execSraI (rd ra : Reg) (amt5 : BitVec 5) (s : State) : Out := complete (ruleSraI rd ra amt5 s) s

/-- INSERT, completed (R144, R104). -/
def execInsert (rd ra : Reg) (pos wm1 : BitVec 5) (s : State) : Out := complete (ruleInsert rd ra pos wm1 s) s

/-- EXTRACT, completed (R145, R104). -/
def execExtract (rd ra : Reg) (pos wm1 : BitVec 5) (s : State) : Out := complete (ruleExtract rd ra pos wm1 s) s

/-- SEXT8, completed (R146, R104). -/
def execSext8 (rd ra : Reg) (s : State) : Out := complete (ruleSext8 rd ra s) s

/-- SEXT16, completed (R146, R104). -/
def execSext16 (rd ra : Reg) (s : State) : Out := complete (ruleSext16 rd ra s) s

/-- FFI, completed (R147, R104). -/
def execFfi (rd ra : Reg) (s : State) : Out := complete (ruleFfi rd ra s) s

/-- ICHK, completed (R148, R104). -/
def execIchk (rd ra rb : Reg) (s : State) : Out := complete (ruleIchk rd ra rb s) s

end Sys2Proof.Machine
end

