-- ==== Sys2Proof/Machine/Scheduler.lean ====
section
/-! DEFINITION. The thread scheduler: arbitration, the swap procedure, parking, the scheduler tick (R214 to
R217). -/

namespace Sys2Proof.Machine

/-! ## Arbitration (R216) -/

/-- The order in which a pass visits the threads: 8 groups of 8, group `g` naming `(g div 2) * 8 + t` (R216). -/
def scanOrder : List ThreadId :=
  (List.range 8).flatMap (fun g => (List.range 8).map (fun t => Fin.ofNat _ (g / 2 * 8 + t)))

/-- Pass 1 accepts a thread: unmasked, with an enabled urgent wakeup or a sync wakeup (R216). -/
def acceptsUrgent (b : ThreadBits) : Bool := !b.mask && ((b.asyncU && b.aen) || b.sync)

/-- Pass 2 accepts a thread: unmasked, with an enabled normal wakeup or a sync wakeup (R216). -/
def acceptsNormal (b : ThreadBits) : Bool := !b.mask && ((b.asyncN && b.aen) || b.sync)

/-- The thread that an arbitration chooses: the first match of pass 1, else of pass 2 (R216). -/
def chooseThread (threads : Vector ThreadBits Config.nThreads) : Option ThreadId :=
  match scanOrder.find? (fun t => acceptsUrgent threads[t.val]) with
  | some t => some t
  | Option.none => scanOrder.find? (fun t => acceptsNormal threads[t.val])

/-- `arbitrate()`: the choice replaces the one before (R216). -/
def State.arbitrate (s : State) : State :=
  match chooseThread s.self.threads with
  | some t => { s with self := { s.self with next := t, nextValid := true, noCandidate := false } }
  | Option.none => { s with self := { s.self with nextValid := false, noCandidate := true } }

/-! ## The swap procedure (R215) -/

/-- The byte address of word `CTX[t*24 + k]` (R13, R46). -/
def ctxAddr (t : ThreadId) (k : Nat) : Nat := 4 * (t.val * Config.nPrivate + k)

/-- All 24 private registers stored in the save area of a thread (R215). -/
def saveRegs (ctx : Mem) (t : ThreadId) (priv : Vector Word Config.nPrivate) : Mem :=
  (List.finRange Config.nPrivate).foldl (fun m k => m.write32 (ctxAddr t k.val) priv[k.val]) ctx

/-- The private registers restored from the save area of a thread; `P[0]` stays (R215). -/
def restoreRegs (ctx : Mem) (t : ThreadId) (priv : Vector Word Config.nPrivate) : Vector Word Config.nPrivate :=
  Vector.ofFn (fun k : Fin Config.nPrivate => if k = 0 then priv[0] else ctx.read32 (ctxAddr t k.val))

/-- The swap procedure up to the resume address: save if asked, restore, `prev <- cur <- next`, the new thread's
wakeups and enable cleared, the pending choice, the save flag and the stall cleared, the buffer emptied (R215). -/
def Proc.swapContexts (p : Proc) (save : Bool) : Proc :=
  let ctx := if save then saveRegs p.ctx p.cur p.priv else p.ctx
  let q := p.onThread p.next
    (fun b => { b with sync := false, asyncN := false, asyncU := false, aen := false })
  { q with
    ctx := ctx
    priv := restoreRegs ctx p.next p.priv
    prev := p.cur
    cur := p.next
    nextValid := false
    saveCtx := false
    stall := { p.stall with cause := .normal }
    pipe := [] }

/-- The resume address: the high 16 bits of the link register, masked (R14, R215). -/
def Proc.resumePc (p : Proc) : CodeOff := maskPc (p.priv[Config.linkReg.val].extractLsb' 16 16)

/-- `do_swap(save)`: a resume address of 0 is a fatal panic, raised after the registers have moved (R215, R343).
`ipc` is the offset that a panic records (R109). -/
def State.doSwap (s : State) (save : Bool) (ipc : CodeOff) : State :=
  let t : State := { s with self := s.self.swapContexts save }
  if t.self.resumePc = 0 then t.halt .panic ipc (.thread t.self.cur)
  else t.setPc t.self.resumePc

/-- `park(save)`: the processor waits for a context, its resume record the offset after the shadow (R214). -/
def State.park (s : State) (save : Bool) : State :=
  { s with self :=
    { s.self with saveCtx := save, stall := ⟨.noContext, s.self.clk, s.self.pc, Option.none⟩ } }

/-! ## The scheduler tick (R216, R217) -/

/-- The scheduler tick: arbitration in its phase, and the completion of a parked swap (R216, R217). A panic here
records the offset after the shadow of the CTXSWAP that parked (R109). -/
def State.schedTick (s : State) : State :=
  if s.self.clk % Config.schedPeriod = Config.schedPhase then
    let t := s.arbitrate
    if t.self.stall.cause = .noContext ∧ t.self.nextValid = true then t.doSwap t.self.saveCtx t.self.stall.resumePc
    else t
  else s

end Sys2Proof.Machine
end

