-- ==== Sys2Proof/Machine/ContextSwap.lean ====
section
/-! DEFINITION. CTXSWAP: the two shadow instructions run in its own tick, then the swap or the parking (R212,
R213). -/

namespace Sys2Proof.Machine

/-- The rule of an instruction that may stand in a CTXSWAP shadow; none for a control transfer (R212). -/
def shadowRule (i : Instr) (s : State) : Option Result :=
  match i with
  | .nop => some (ruleNop s)
  | .addR rd ra m rb => some (ruleAddR rd ra m rb s)
  | .addI rd ra m imm10 => some (ruleAddI rd ra m imm10 s)
  | .subR rd ra m rb => some (ruleSubR rd ra m rb s)
  | .subI rd ra m imm10 => some (ruleSubI rd ra m imm10 s)
  | .andR rd ra m rb => some (ruleAndR rd ra m rb s)
  | .andI rd ra m imm10 => some (ruleAndI rd ra m imm10 s)
  | .orR rd ra m rb => some (ruleOrR rd ra m rb s)
  | .orI rd ra m imm10 => some (ruleOrI rd ra m imm10 s)
  | .xorR rd ra m rb => some (ruleXorR rd ra m rb s)
  | .xorI rd ra m imm10 => some (ruleXorI rd ra m imm10 s)
  | .mulR rd ra m rb => some (ruleMulR rd ra m rb s)
  | .mulI rd ra m imm10 => some (ruleMulI rd ra m imm10 s)
  | .movi rd high clear imm16 => some (ruleMovi rd high clear imm16 s)
  | .sllR rd ra rb => some (ruleSllR rd ra rb s)
  | .sllI rd ra amt5 => some (ruleSllI rd ra amt5 s)
  | .srlR rd ra rb => some (ruleSrlR rd ra rb s)
  | .srlI rd ra amt5 => some (ruleSrlI rd ra amt5 s)
  | .sraR rd ra rb => some (ruleSraR rd ra rb s)
  | .sraI rd ra amt5 => some (ruleSraI rd ra amt5 s)
  | .insert rd ra pos wm1 => some (ruleInsert rd ra pos wm1 s)
  | .extract rd ra pos wm1 => some (ruleExtract rd ra pos wm1 s)
  | .sext8 rd ra => some (ruleSext8 rd ra s)
  | .sext16 rd ra => some (ruleSext16 rd ra s)
  | .ldD rd ra size off12 => some (ruleLdD rd ra size off12 s)
  | .ldXI rd ra size idx12 => some (ruleLdXI rd ra size idx12 s)
  | .ldXR rd ra size rb => some (ruleLdXR rd ra size rb s)
  | .stD rd ra size off12 => some (ruleStD rd ra size off12 s)
  | .stXI rd ra size idx12 => some (ruleStXI rd ra size idx12 s)
  | .stXR rd ra size rb => some (ruleStXR rd ra size rb s)
  | .ldcD rd ra size off12 => some (ruleLdcD rd ra size off12 s)
  | .ldcXI rd ra size idx12 => some (ruleLdcXI rd ra size idx12 s)
  | .ldcXR rd ra size rb => some (ruleLdcXR rd ra size rb s)
  | .stcD rd ra size off12 => some (ruleStcD rd ra size off12 s)
  | .stcXI rd ra size idx12 => some (ruleStcXI rd ra size idx12 s)
  | .stcXR rd ra size rb => some (ruleStcXR rd ra size rb s)
  | .cmpjR _ _ _ _ _ _ => Option.none
  | .cmpjI _ _ _ _ _ _ => Option.none
  | .bz _ _ _ _ _ => Option.none
  | .ctxswap _ => Option.none
  | .hash wake kw tbl slot rk => some (ruleHash wake kw tbl slot rk s)
  | .crc wake slot prof ra n => some (ruleCrc wake slot prof ra n s)
  | .cam wake slot tsz rk rm => some (ruleCam wake slot tsz rk rm s)
  | .bbtx wake last inc rs len => some (ruleBbtx wake last inc rs len s)
  | .bbmsg wake w64 mtype dest rp => some (ruleBbmsg wake w64 mtype dest rp s)
  | .ffi rd ra => some (ruleFfi rd ra s)
  | .ichk rd ra rb => some (ruleIchk rd ra rb s)
  | .cnt wake dec w4 frz rc amt => some (ruleCnt wake dec w4 frz rc amt s)
  | .crypto first last rs len => some (ruleCrypto first last rs len s)
  | .ret => Option.none
  | .jmp _ _ _ _ _ _ => Option.none
  | .jmpr _ _ _ _ _ _ => Option.none
  | .ljmp _ _ _ => Option.none
  | .lcall _ _ _ => Option.none
  | .dmard wake bp rs rc len => some (ruleDmard wake bp rs rc len s)
  | .dmawr wake bp rs rc len => some (ruleDmawr wake bp rs rc len s)
  | .dmal wake esz rs rb ri => some (ruleDmal wake esz rs rb ri s)

/-- A shadow instruction either took effect or halted the processor. -/
inductive ShadowOutcome where
  | ran (t : State)
  | halted (t : State)

/-- Shadow instruction `k` of the CTXSWAP at `pc`: decoded and run by its own rule as if fetched from its own
offset, changing neither `pc` nor the buffer. A word that does not decode, a control transfer and a stall
are raised by the CTXSWAP; any other fatal condition by the shadow instruction (R212, R213). -/
def shadowStep (k : Nat) (s : State) : ShadowOutcome :=
  let a := maskPc (s.self.pc + BitVec.ofNat 16 (4 * k))
  let wk := s.self.codeRead a
  match decodeWord wk with
  | .error _ => .halted (s.halt .decode s.self.pc (.word wk))
  | .ok i =>
    match shadowRule i s with
    | Option.none => .halted (s.halt .shadow s.self.pc (.word wk))
    | some (.done t) => .ran t
    | some (.stalled _) => .halted (s.halt .shadow s.self.pc (.word wk))
    | some (.fatal kind info) => .halted (s.halt kind a info)

/-- What follows the shadow: `pc` moves past it, then the swap if a context is pending, else the processor parks
(R212, R214, R215). -/
def State.swapOrPark (s : State) (save : Bool) : State :=
  let ipc := s.self.pc
  let t := s.endStall.setPc (ipc + 12)
  if t.self.nextValid then t.doSwap save ipc else t.park save

/-- CTXSWAP (R212). -/
def execCtxswap (save : Bool) (s : State) : Out :=
  control s
    (match shadowStep 1 s with
    | .halted t => t
    | .ran s1 =>
      match shadowStep 2 s1 with
      | .halted t => t
      | .ran s2 => s2.swapOrPark save)

end Sys2Proof.Machine
end

