-- ==== Sys2Proof/Machine/Dispatch.lean ====
section
/-! DEFINITION. One arm for each instruction: its meaning on the ticking processor. -/

namespace Sys2Proof.Machine

def exec (i : Instr) (s : State) : Host.Outcome State Fault Refusal :=
  match i with
  | .nop => Sys2Proof.Machine.execNop s
  | .addR rd ra m rb => Sys2Proof.Machine.execAddR rd ra m rb s
  | .addI rd ra m imm10 => Sys2Proof.Machine.execAddI rd ra m imm10 s
  | .subR rd ra m rb => Sys2Proof.Machine.execSubR rd ra m rb s
  | .subI rd ra m imm10 => Sys2Proof.Machine.execSubI rd ra m imm10 s
  | .andR rd ra m rb => Sys2Proof.Machine.execAndR rd ra m rb s
  | .andI rd ra m imm10 => Sys2Proof.Machine.execAndI rd ra m imm10 s
  | .orR rd ra m rb => Sys2Proof.Machine.execOrR rd ra m rb s
  | .orI rd ra m imm10 => Sys2Proof.Machine.execOrI rd ra m imm10 s
  | .xorR rd ra m rb => Sys2Proof.Machine.execXorR rd ra m rb s
  | .xorI rd ra m imm10 => Sys2Proof.Machine.execXorI rd ra m imm10 s
  | .mulR rd ra m rb => Sys2Proof.Machine.execMulR rd ra m rb s
  | .mulI rd ra m imm10 => Sys2Proof.Machine.execMulI rd ra m imm10 s
  | .movi rd high clear imm16 => Sys2Proof.Machine.execMovi rd high clear imm16 s
  | .sllR rd ra rb => Sys2Proof.Machine.execSllR rd ra rb s
  | .sllI rd ra amt5 => Sys2Proof.Machine.execSllI rd ra amt5 s
  | .srlR rd ra rb => Sys2Proof.Machine.execSrlR rd ra rb s
  | .srlI rd ra amt5 => Sys2Proof.Machine.execSrlI rd ra amt5 s
  | .sraR rd ra rb => Sys2Proof.Machine.execSraR rd ra rb s
  | .sraI rd ra amt5 => Sys2Proof.Machine.execSraI rd ra amt5 s
  | .insert rd ra pos wm1 => Sys2Proof.Machine.execInsert rd ra pos wm1 s
  | .extract rd ra pos wm1 => Sys2Proof.Machine.execExtract rd ra pos wm1 s
  | .sext8 rd ra => Sys2Proof.Machine.execSext8 rd ra s
  | .sext16 rd ra => Sys2Proof.Machine.execSext16 rd ra s
  | .ldD rd ra size off12 => Sys2Proof.Machine.execLdD rd ra size off12 s
  | .ldXI rd ra size idx12 => Sys2Proof.Machine.execLdXI rd ra size idx12 s
  | .ldXR rd ra size rb => Sys2Proof.Machine.execLdXR rd ra size rb s
  | .stD rd ra size off12 => Sys2Proof.Machine.execStD rd ra size off12 s
  | .stXI rd ra size idx12 => Sys2Proof.Machine.execStXI rd ra size idx12 s
  | .stXR rd ra size rb => Sys2Proof.Machine.execStXR rd ra size rb s
  | .ldcD rd ra size off12 => Sys2Proof.Machine.execLdcD rd ra size off12 s
  | .ldcXI rd ra size idx12 => Sys2Proof.Machine.execLdcXI rd ra size idx12 s
  | .ldcXR rd ra size rb => Sys2Proof.Machine.execLdcXR rd ra size rb s
  | .stcD rd ra size off12 => Sys2Proof.Machine.execStcD rd ra size off12 s
  | .stcXI rd ra size idx12 => Sys2Proof.Machine.execStcXI rd ra size idx12 s
  | .stcXR rd ra size rb => Sys2Proof.Machine.execStcXR rd ra size rb s
  | .cmpjR ds inv cmp ra rb off10 => Sys2Proof.Machine.execCmpjR ds inv cmp ra rb off10 s
  | .cmpjI ds inv cmp ra imm5 off10 => Sys2Proof.Machine.execCmpjI ds inv cmp ra imm5 off10 s
  | .bz ds inv half ra off16 => Sys2Proof.Machine.execBz ds inv half ra off16 s
  | .ctxswap save => Sys2Proof.Machine.execCtxswap save s
  | .hash wake kw tbl slot rk => Sys2Proof.Machine.execHash wake kw tbl slot rk s
  | .crc wake slot prof ra n => Sys2Proof.Machine.execCrc wake slot prof ra n s
  | .cam wake slot tsz rk rm => Sys2Proof.Machine.execCam wake slot tsz rk rm s
  | .bbtx wake last inc rs len => Sys2Proof.Machine.execBbtx wake last inc rs len s
  | .bbmsg wake w64 mtype dest rp => Sys2Proof.Machine.execBbmsg wake w64 mtype dest rp s
  | .ffi rd ra => Sys2Proof.Machine.execFfi rd ra s
  | .ichk rd ra rb => Sys2Proof.Machine.execIchk rd ra rb s
  | .cnt wake dec w4 frz rc amt => Sys2Proof.Machine.execCnt wake dec w4 frz rc amt s
  | .crypto first last rs len => Sys2Proof.Machine.execCrypto first last rs len s
  | .ret => Sys2Proof.Machine.execRet s
  | .jmp ds inv cond rc bit off9 => Sys2Proof.Machine.execJmp ds inv cond rc bit off9 s
  | .jmpr ds inv cond rc bit rt => Sys2Proof.Machine.execJmpr ds inv cond rc bit rt s
  | .ljmp ds inv addr16 => Sys2Proof.Machine.execLjmp ds inv addr16 s
  | .lcall ds inv addr16 => Sys2Proof.Machine.execLcall ds inv addr16 s
  | .dmard wake bp rs rc len => Sys2Proof.Machine.execDmard wake bp rs rc len s
  | .dmawr wake bp rs rc len => Sys2Proof.Machine.execDmawr wake bp rs rc len s
  | .dmal wake esz rs rb ri => Sys2Proof.Machine.execDmal wake esz rs rb ri s

end Sys2Proof.Machine
end

