-- ==== Sys2Proof/Machine/Crc.lean ====
section
/-! DEFINITION. The bit-serial CRC of the CRC/CAM unit (R255). -/

namespace Sys2Proof.Machine

/-- One message bit fed at the top of the register (R255). -/
def crcBit {w : Nat} (p : Config.CrcParams w) (reg : BitVec w) (b : Bool) : BitVec w :=
  if reg.msb ^^ b then (reg <<< 1) ^^^ p.poly else reg <<< 1

/-- The bits of a byte in the order in which they are fed: 7 down to 0, or 0 up to 7 when reflected (R255). -/
def crcBits (reflect : Bool) (b : Byte) : List Bool :=
  let up := [0, 1, 2, 3, 4, 5, 6, 7].map (fun i => b.getLsbD i)
  if reflect then up else up.reverse

/-- One byte fed (R255). -/
def crcByte {w : Nat} (p : Config.CrcParams w) (reg : BitVec w) (b : Byte) : BitVec w :=
  (crcBits p.reflect b).foldl (crcBit p) reg

/-- The CRC of a string of bytes (R255). -/
def crc {w : Nat} (p : Config.CrcParams w) (bytes : List Byte) : BitVec w :=
  let reg := bytes.foldl (crcByte p) p.init
  (if p.reflect then reg.reverse else reg) ^^^ p.xorout

/-- The CRC under the profile of a number, zero-extended to a result word (R254, R255, R257). -/
def crcResult (prof : BitVec 2) (bytes : List Byte) : Word :=
  if prof = 0 then crc Config.crc32 bytes
  else if prof = 1 then (crc Config.crc16 bytes).setWidth 32
  else if prof = 2 then (crc Config.crc10 bytes).setWidth 32
  else (crc Config.crc5 bytes).setWidth 32

end Sys2Proof.Machine
end

