-- ==== Sys2Proof/Machine/Completion.lean ====
section
/-! DEFINITION. The accelerator tick: which queued operation completes next, and what each unit's completion does
(R243, R244, R250, R252, R257, R259, R261, R263). -/

namespace Sys2Proof.Machine

/-! ## What each unit's completion does -/

/-- DMA: the bytes are copied unchanged at the completion (R250). -/
def State.completeDma (s : State) (op : DmaOp) : State :=
  let sa := op.saddr.toNat
  let ca := op.caddr.toNat
  match op.kind with
  | .rd | .lk => s.setSram (s.self.sram.writeBytes sa (s.shared.common.readBytes ca (4 * op.nwords)))
  | .wr => s.setCommon (s.shared.common.writeBytes ca (s.self.sram.readBytes sa (4 * op.nwords)))

/-- The result of the CRC/CAM unit (R257). -/
def State.rammanResult (s : State) : RammanOp → Word
  | .crc _ prof saddr nwords => crcResult prof (s.self.sram.readBytes saddr.toNat (4 * nwords))
  | .cam _ key kmask tsz => Config.camFn key kmask tsz s.shared.common s.shared.ddr s.shared.psram

/-- CRC/CAM: the result register written and its ready bit set (R257). -/
def State.completeRamman (s : State) (op : RammanOp) : State :=
  let p := s.self.setIo (rammanIndex op.slot) (s.rammanResult op)
  { s with self := { p with rmReady := p.rmReady.set op.slot.val true } }

/-- Hash: the result register written and its ready bit set (R252). -/
def State.completeHash (s : State) (op : HashOp) : State :=
  let v := Config.hashFn op.tbl op.width op.key s.shared.common s.shared.ddr s.shared.psram
  let p := s.self.setIo (lkupIndex op.tbl op.slot) v
  { s with self :=
    { p with lkReady := p.lkReady.set op.tbl.val (p.lkReady[op.tbl.val].set op.slot.val true) } }

/-- The new value of a counter of width `w4` that holds `v` (R259): up or down by `amt`, wrapping or frozen at
the limit. -/
def counterNext (w4 dec frz : Bool) (v amt : Nat) : Nat :=
  let size := 2 ^ (if w4 then 32 else 16)
  if dec then
    if amt ≤ v then v - amt else if frz then 0 else v + size - amt
  else
    if v + amt < size then v + amt else if frz then size - 1 else v + amt - size

/-- Counter: an atomic read-modify-write of the common segment (R259). -/
def State.completeCounter (s : State) (op : CounterOp) : State :=
  let a := op.caddr.toNat
  let m := s.shared.common
  if op.w4 then
    let n := counterNext true op.dec op.frz (m.read32 a).toNat op.amt.toNat
    s.setCommon (m.write32 a (BitVec.ofNat 32 n))
  else
    let n := counterNext false op.dec op.frz (m.read16 a).toNat op.amt.toNat
    s.setCommon (m.write16 a (BitVec.ofNat 16 n))

/-- Buffer-transmit: the record of the bytes, read at the completion (R261). -/
def State.completeBbtx (s : State) (owner : ThreadId) (op : BbtxOp) : State :=
  let data := s.self.sram.readBytes op.saddr.toNat op.len
  { s with self := { s.self with txOut := s.self.txOut ++ [⟨owner, data, op.len, op.last⟩] } }

/-- The word that a completed message leaves in `MSG[0]` (R263). -/
def msgHeader (op : BbmsgOp) : Word :=
  (BitVec.ofBool op.w64).setWidth 32 <<< 8 ||| op.mtype.setWidth 32 <<< 4 ||| op.dest.setWidth 32

/-- Buffer-message: the three message registers and the record (R263). -/
def State.completeBbmsg (s : State) (owner : ThreadId) (op : BbmsgOp) : State :=
  let p := ((s.self.setIo (msgIndex 0) (msgHeader op)).setIo (msgIndex 1) op.p0).setIo (msgIndex 2) op.p1
  { s with self := { p with msgOut := p.msgOut ++ [⟨owner, op.mtype, op.dest, op.w64, op.p0, op.p1⟩] } }

/-! ## The tick (R243, R244) -/

/-- The completion clock at the head of a unit's queue. -/
def Proc.headComp (p : Proc) : Accel → Option Nat
  | .dma => p.dma.headComp
  | .ramman => p.ramman.headComp
  | .hash => p.hash.headComp
  | .counter => p.counter.headComp
  | .bbtx => p.bbtx.headComp
  | .bbmsg => p.bbmsg.headComp

/-- The earlier of two due heads, the first one when they are equal; a head that is not due does not count
(R243). -/
def earlierDue (p : Proc) (best : Option (Accel × Nat)) (u : Accel) : Option (Accel × Nat) :=
  match p.headComp u with
  | Option.none => best
  | some c =>
    if c ≤ p.clk then
      match best with
      | Option.none => some (u, c)
      | some (_, b) => if c < b then some (u, c) else best
    else best

/-- The unit whose head completes next: of the due heads the one with the least clock, the first in the order
of R243 among equal ones. -/
def Proc.nextDue (p : Proc) : Option Accel :=
  (Accel.inOrder.foldl (earlierDue p) Option.none).map (fun b => b.1)

/-- `sync[owner] <- 1` if the entry asked for it (R244). -/
def State.wakeOwner (s : State) (wake : Bool) (owner : ThreadId) : State :=
  if wake then { s with self := s.self.postSync owner } else s

/-- The head of a unit's queue removed and completed, its owner woken if it asked (R243, R244). -/
def State.completeHead (s : State) (u : Accel) : State :=
  match u with
  | .dma =>
    match s.self.dma.entries with
    | [] => s
    | e :: rest =>
      (({ s with self := { s.self with dma := { s.self.dma with entries := rest } } } : State).completeDma
        e.payload).wakeOwner e.wake e.owner
  | .ramman =>
    match s.self.ramman.entries with
    | [] => s
    | e :: rest =>
      (({ s with self := { s.self with ramman := { s.self.ramman with entries := rest } } } : State).completeRamman
        e.payload).wakeOwner e.wake e.owner
  | .hash =>
    match s.self.hash.entries with
    | [] => s
    | e :: rest =>
      (({ s with self := { s.self with hash := { s.self.hash with entries := rest } } } : State).completeHash
        e.payload).wakeOwner e.wake e.owner
  | .counter =>
    match s.self.counter.entries with
    | [] => s
    | e :: rest =>
      (({ s with self := { s.self with counter := { s.self.counter with entries := rest } } } : State).completeCounter
        e.payload).wakeOwner e.wake e.owner
  | .bbtx =>
    match s.self.bbtx.entries with
    | [] => s
    | e :: rest =>
      (({ s with self := { s.self with bbtx := { s.self.bbtx with entries := rest } } } : State).completeBbtx
        e.owner e.payload).wakeOwner e.wake e.owner
  | .bbmsg =>
    match s.self.bbmsg.entries with
    | [] => s
    | e :: rest =>
      (({ s with self := { s.self with bbmsg := { s.self.bbmsg with entries := rest } } } : State).completeBbmsg
        e.owner e.payload).wakeOwner e.wake e.owner

/-- How many operations a processor has queued. -/
def Proc.queued (p : Proc) : Nat :=
  p.dma.entries.length + p.ramman.entries.length + p.hash.entries.length + p.counter.entries.length +
    p.bbtx.entries.length + p.bbmsg.entries.length

/-- At most `n` completions, until no head is due (R243). -/
def accLoop : Nat → State → State
  | 0, s => s
  | n + 1, s =>
    match s.self.nextDue with
    | Option.none => s
    | some u => accLoop n (s.completeHead u)

/-- The accelerator tick (R243): every round removes an entry, so as many rounds as entries are all of them. -/
def State.accTick (s : State) : State := accLoop s.self.queued s

end Sys2Proof.Machine
end

