-- ==== Sys2Proof/Machine/Tick.lean ====
section
/-! DEFINITION. The parts of a tick around the instruction: timers, the end of a tick, whose tick is next, and
the place the next instruction is fetched from (R100, R102, R311, R352). -/

namespace Sys2Proof.Machine

/-! ## Timers (R311) -/

/-- Timer `i` of a timer tick: the timers so far, and whether the timer below wrapped (R311). -/
def timerStep (tpause : BitVec 4) (tchain : BitVec 3) (acc : Vector (BitVec 16) Config.nTimers × Bool) (i : Fin Config.nTimers) :
    Vector (BitVec 16) Config.nTimers × Bool :=
  let chained := decide (i.val ≠ 0) && tchain.getLsbD (i.val - 1)
  let counts := !tpause.getLsbD i.val && (!chained || acc.2)
  if counts then
    let v := acc.1[i.val] + 1
    (acc.1.set i.val v, v == 0)
  else (acc.1, false)

/-- The timer tick (R311). -/
def State.timerTick (s : State) : State :=
  let r := (List.finRange Config.nTimers).foldl (timerStep s.self.tpause s.self.tchain) (s.self.timer, true)
  { s with self := { s.self with timer := r.1 } }

/-! ## The end of a tick (R100) -/

/-- `clk <- clk + 1` (R28). -/
def State.clockTick (s : State) : State := { s with self := { s.self with clk := s.self.clk + 1 } }

/-- Steps 2 to 5 of a tick: completions, scheduler, timers, clock; a panic in the scheduler step ends the tick
(R100, R109). -/
def State.endTick (s : State) : State :=
  let t := s.accTick.schedTick
  if t.self.halted then t else t.timerTick.clockTick

/-- What follows the instruction: nothing if it halted the processor, else steps 2 to 5 (R100, R109). -/
def State.afterInstr (s : State) : State := if s.self.halted then s else s.endTick

/-! ## Whose tick is next (R352) -/

/-- The other processor's tick is next. -/
def State.passTurn (s : State) : State := { s with me := s.me.other, self := s.peer, peer := s.self }

/-- A processor that is not halted ticks if there is one (R101, R352). -/
def State.runnable (s : State) : State := if s.self.halted then s.passTurn else s

/-- The tick is counted, and the schedule says whose is the one that comes next (R352: any sequence). -/
def State.nextTurn (s : State) : State :=
  let t : State := { s with ticks := s.ticks + 1 }
  if Config.schedule t.ticks = s.me then t else t.passTurn

/-! ## Where the next instruction is fetched from (R41, R102) -/

/-- The ticking processor made ready to run `w` as its next instruction: a halt and a parking are lifted, and
the word replaces the one that is selected next, in the delay-slot buffer or in the code at `pc`. -/
def Proc.withNextWord (p : Proc) (w : Word) : Proc :=
  let stall := if p.stall.cause = .noContext then { p.stall with cause := .normal } else p.stall
  let q := { p with halted := false, stall := stall }
  match p.pipe with
  | [] => { q with code := p.code.write32 p.pc.toNat w }
  | e :: rest => { q with pipe := { e with word := w } :: rest }

end Sys2Proof.Machine
end

