-- ==== Sys2Proof/Machine/Step.lean ====
section
/-! DEFINITION. One step of the machine: one tick of the processor whose turn it is (R100 to R109). -/

namespace Sys2Proof.Machine

/-- One tick (R100). With both processors halted nothing can step (R101). A parked processor runs no instruction
(R108); a word that does not decode halts it (R341); a halt skips the rest of the tick (R109). -/
def step (s0 : State) : Host.Outcome State Fault Refusal :=
  let s := s0.runnable
  if s.self.halted then .fault .allHalted
  else if s.self.stall.cause = .noContext then .next s.endTick.nextTurn
  else
    match decodeWord s.word with
    | .error _ => .next (s.halt .decode s.ipc (.word s.word)).nextTurn
    | .ok i =>
      match exec i s with
      | .next t => .next t.afterInstr.nextTurn
      | .fault r => .fault r
      | .refused r => .refused r

/-- The state whose next step fetches and runs the opcode table's word `w` of `nbits` bits. -/
def State.withFetchWord (s : State) (nbits w : Nat) : State :=
  { s with self := s.self.withNextWord (tableWord nbits w) }

end Sys2Proof.Machine
end

