-- ==== Sys2Proof/Safety.lean ====
section
/-! DEFINITION. The terms that claims about the machine are stated in: views of the state, what an instruction
leaves and what it leaves unchanged, the reserved encodings of R88, and the invariants of R31 and R245. -/

namespace Sys2Proof.Machine

/-! ## Views -/

/-- The processor of a number, whichever of the two ticks next (R10). -/
def State.proc (s : State) (q : ProcId) : Proc := if q = s.me then s.self else s.peer

/-- The processor whose tick a step is: a halted one has none (R101). -/
def State.ticking (s : State) : ProcId := if s.self.halted then s.me.other else s.me

/-- `MemRead`: the big-endian number made of `n` bytes, `n` at most 4 (R47, R49). -/
def State.bytesWord (s : State) (sp : Space) (a n : Nat) : Word :=
  (List.range n).foldl (fun acc k => (acc <<< 8) ||| (s.readByte sp (a + k)).setWidth 32) 0

/-- The word `CTX[t*24 + k]` (R13, R46). -/
def State.ctxWord (s : State) (t : ThreadId) (k : Nat) : Word := s.bytesWord .ctx (4 * (t.val * Config.nPrivate + k)) 4

/-- `MemWrite`: the low `n` bytes of a value, most significant first (R49). -/
def storedBytes (n : Nat) (v : Word) : List Byte :=
  (List.range n).map (fun k => v.extractLsb' (8 * (n - 1 - k)) 8)

/-- The bytes that a store of the given size writes; 64 bits are two words (R50, R164). -/
def dataBytes (size : Size) (v0 v1 : Word) : List Byte :=
  match size with
  | .b8 => storedBytes 1 v0
  | .b16 => storedBytes 2 v0
  | .b32 => storedBytes 4 v0
  | .b64 => storedBytes 4 v0 ++ storedBytes 4 v1

/-! ## What an instruction leaves -/

/-- Every byte of every space that the processor sees reads as before. -/
def SameMemory (s t : State) : Prop := ∀ sp a, t.readByte sp a = s.readByte sp a

/-- A string of bytes was stored at an address, and every other byte of every space reads as before. -/
def Stores (sp : Space) (a : Nat) (bytes : List Byte) (s t : State) : Prop :=
  ∀ sp' a', t.readByte sp' a' =
    if sp' = sp ∧ a ≤ a' ∧ a' < a + bytes.length then bytes.getD (a' - a) 0 else s.readByte sp' a'

/-- `x[rd] <- v`: `rd` holds `v`, unless it is `r0`, and every other register is as before (R12). -/
def Writes (rd : Reg) (v : Word) (s t : State) : Prop :=
  ∀ r, t.reg r = if r = rd ∧ rd ≠ 0 then v else s.reg r

/-- `x[rd] <- v0; x[rd+1] <- v1`, a write to `r0` dropped, and every other register is as before (R50, R12). -/
def WritesPair (rd : Reg) (v0 v1 : Word) (s t : State) : Prop :=
  ∀ r, t.reg r = if r = 0 then 0 else if r = rd + 1 then v1 else if r = rd then v0 else s.reg r

/-- A load of the given size wrote its registers (R163, R165). -/
def Loads (size : Size) (rd : Reg) (sp : Space) (a : Nat) (s t : State) : Prop :=
  match size with
  | .b8 => Writes rd (s.bytesWord sp a 1) s t
  | .b16 => Writes rd (s.bytesWord sp a 2) s t
  | .b32 => Writes rd (s.bytesWord sp a 4) s t
  | .b64 => WritesPair rd (s.bytesWord sp a 4) (s.bytesWord sp (a + 4) 4) s t

/-- The bookkeeping of a completed instruction that is no control transfer: the stall has ended; one that came
from `pc` advanced it, one that came from the delay-slot buffer left the buffer and kept `pc` (R104 (a)). -/
def Sequenced (s t : State) : Prop :=
  t.self.stall = { s.self.stall with cause := .normal } ∧
  (match s.self.pipe with
   | [] => t.self.pipe = [] ∧ t.self.pc = (s.self.pc + 4) &&& Config.pcMask
   | _ :: rest => t.self.pipe = rest ∧ t.self.pc = s.self.pc)

/-- `u` with the program counter, the delay-slot buffer and the stall record of `t`: what the bookkeeping of R104
may change. -/
def State.sequencedAs (u t : State) : State :=
  { u with self := { u.self with pc := t.self.pc, pipe := t.self.pipe, stall := t.self.stall } }

/-- Nothing but general registers and the bookkeeping changed. -/
def OnlyRegisters (s t : State) : Prop :=
  t = ({ s with self := { s.self with priv := t.self.priv, glob := t.self.glob } } : State).sequencedAs t

/-- Nothing but general registers, flags and the bookkeeping changed. -/
def OnlyRegistersAndFlags (s t : State) : Prop :=
  t = ({ s with self := { s.self with priv := t.self.priv, glob := t.self.glob, flags := t.self.flags } } :
    State).sequencedAs t

/-- Nothing but the private SRAM and the bookkeeping changed. -/
def OnlySram (s t : State) : Prop :=
  t = ({ s with self := { s.self with sram := t.self.sram } } : State).sequencedAs t

/-- Nothing but the common segment and the bookkeeping changed. -/
def OnlyCommon (s t : State) : Prop :=
  t = ({ s with shared := { s.shared with common := t.shared.common } } : State).sequencedAs t

/-- The instruction completes and does no more than write `v` to `rd`. -/
def GivesRegister (i : Instr) (s : State) (rd : Reg) (v : Word) : Prop :=
  ∃ t, exec i s = .next t ∧ Writes rd v s t ∧ Sequenced s t ∧ OnlyRegisters s t ∧ SameMemory s t

/-- The exact result does not fit a register: the representable range is 0 to 2^32 - 1 (R128). -/
def Overflows (X : Int) : Prop := X < 0 ∨ 2 ^ 32 ≤ X

/-- The instruction completes with the exact result `X` written back: the register modulo 2^32, all four flags
with `f`, without it `V` set by an overflow and the rest kept (R128). -/
def GivesAluResult (i : Instr) (s : State) (rd : Reg) (X : Int) (carry : Prop) (f : Bool) : Prop :=
  ∃ t, exec i s = .next t ∧ Writes rd (BitVec.ofInt 32 X) s t ∧
    (if f then
      (t.self.flags.z = true ↔ BitVec.ofInt 32 X = 0) ∧
      (t.self.flags.n = (BitVec.ofInt 32 X).getLsbD 31) ∧
      (t.self.flags.c = true ↔ carry) ∧
      (t.self.flags.v = true ↔ Overflows X)
    else
      t.self.flags.z = s.self.flags.z ∧ t.self.flags.n = s.self.flags.n ∧ t.self.flags.c = s.self.flags.c ∧
      (t.self.flags.v = true ↔ s.self.flags.v = true ∨ Overflows X)) ∧
    Sequenced s t ∧ OnlyRegistersAndFlags s t ∧ SameMemory s t

/-- The instruction completes and does no more than load from `a`. -/
def GivesLoad (i : Instr) (s : State) (size : Size) (rd : Reg) (sp : Space) (a : Nat) : Prop :=
  ∃ t, exec i s = .next t ∧ Loads size rd sp a s t ∧ Sequenced s t ∧ OnlyRegisters s t ∧ SameMemory s t

/-- The instruction halts the processor and does nothing else (R109, R340). -/
def IsFatal (i : Instr) (s : State) (cause : HaltCause) (info : HaltInfo) : Prop :=
  exec i s = .next { s with self :=
    { s.self with halted := true, haltCause := cause, haltInfo := ⟨s.self.clk, s.ipc, info⟩ } }

/-- The instruction stalls: the record is written, but for a retry of the same cause, and nothing else changes
(R104 (b), R106). -/
def IsStalled (i : Instr) (s : State) (cause : StallCause) : Prop :=
  exec i s = .next (
    if s.self.stall.cause = cause then s
    else { s with self :=
      { s.self with stall := ⟨cause, s.self.clk, s.ipc, (s.self.pipe[1]?).map (fun e => e.ipc)⟩ } })

/-! ## Branches (R181, R182) -/

/-- The delay slots of a branch at `pc`: the next `n` words, each with its own offset (R181). -/
def State.delaySlots (s : State) (n : Nat) : List PipeEntry :=
  (List.range n).map (fun k =>
    let a := (s.self.pc + BitVec.ofNat 16 (4 * (k + 1))) &&& Config.pcMask
    ⟨s.self.codeRead a, a⟩)

/-- The state after a branch at `pc`: taken, its delay slots are captured and `pc` is the target; not taken, `pc`
advances; a stall has ended and nothing else changes (R181, R182, R104). -/
def State.branched (s : State) (taken : Bool) (target : CodeOff) (n : Nat) : State :=
  { s with self :=
    { s.self with
      stall := { s.self.stall with cause := .normal }
      pipe := if taken then s.delaySlots n else []
      pc := (if taken then target else s.self.pc + 4) &&& Config.pcMask } }

/-! ## The CTXSWAP shadow (R212, R213) -/

/-- The shadow instruction at `a` of a CTXSWAP at `ipc` halts the processor, and `u` is the state it leaves: the
word does not decode, or it is a control transfer, or it would stall, or its own rule is fatal. -/
def ShadowHalts (s : State) (ipc a : CodeOff) (u : State) : Prop :=
  (∃ e, decodeWord (s.self.codeRead a) = .error e ∧ u = s.halt .decode ipc (.word (s.self.codeRead a))) ∨
  (∃ i, decodeWord (s.self.codeRead a) = .ok i ∧
    ((i.isControlTransfer = true ∧ u = s.halt .shadow ipc (.word (s.self.codeRead a))) ∨
     (∃ c, shadowRule i s = some (.stalled c) ∧ u = s.halt .shadow ipc (.word (s.self.codeRead a))) ∨
     (∃ k info, shadowRule i s = some (.fatal k info) ∧ u = s.halt k a info)))

/-- The shadow instruction at `a` takes effect, leaving `u`. -/
def ShadowRuns (s : State) (a : CodeOff) (u : State) : Prop :=
  ∃ i, decodeWord (s.self.codeRead a) = .ok i ∧ shadowRule i s = some (.done u)

/-! ## Reserved encodings (R88) -/

/-- The words that raise `FatalDecode` when they are about to run (R88). -/
abbrev IllegalWord (w : Word) : Prop :=
  (0x1C ≤ (fld w 0 6).toNat ∧ (fld w 0 6).toNat ≤ 0x39) ∨
  (fld w 0 4 = 0b1111 ∧ fld w 4 6 = 3) ∨
  ((fld w 0 5 = 0b11101 ∨ fld w 0 6 = 0x10 ∨ fld w 0 6 = 0x11) ∧ fld w 6 8 = 3) ∨
  (fld w 0 6 = 0x3A ∧ 5 ≤ (fld w 9 12).toNat) ∨
  (fld w 0 6 = 0x11 ∧ fld w 9 11 = 3) ∨
  (fld w 0 6 = 0x08 ∧ fld w 16 18 = 3) ∨
  (fld w 0 6 = 0x0B ∧ 2 ≤ (fld w 16 18).toNat) ∨
  (0x0C ≤ (fld w 0 6).toNat ∧ (fld w 0 6).toNat ≤ 0x0F ∧
    (fld w 18 20 = 3 ∨ (fld w 16 18 = 3 ∧ fld w 6 11 = 31))) ∨
  (fld w 0 6 = 0x13 ∧ (fld w 8 10 = 3 ∨ fld w 12 17 = 31)) ∨
  (fld w 0 6 = 0x16 ∧ fld w 7 8 = 1 ∧ fld w 16 21 = 31)

/-! ## Timers (R311) -/

/-- Timer `i` wraps to 0 in a timer tick: it counts and holds 0xFFFF (R311). -/
def Proc.timerWraps (p : Proc) : Nat → Bool
  | 0 => !p.tpause.getLsbD 0 && p.timer[0] == 0xFFFF
  | i + 1 =>
    !p.tpause.getLsbD (i + 1) && (!p.tchain.getLsbD i || p.timerWraps i) && p.timer.toList.getD (i + 1) 0 == 0xFFFF

/-- Timer `i` counts in a timer tick: it is not paused, and if it is chained the timer below wraps (R311). -/
def Proc.timerCounts (p : Proc) : Nat → Bool
  | 0 => !p.tpause.getLsbD 0
  | i + 1 => !p.tpause.getLsbD (i + 1) && (!p.tchain.getLsbD i || p.timerWraps i)

/-! ## Scheduler (R216) -/

/-- A thread that the first pass accepts: unmasked, with a sync wakeup or an enabled urgent wakeup (R216). -/
abbrev Proc.UrgentReady (p : Proc) (t : ThreadId) : Prop :=
  p.threads[t.val].mask = false ∧
    ((p.threads[t.val].asyncU = true ∧ p.threads[t.val].aen = true) ∨ p.threads[t.val].sync = true)

/-- A thread that the second pass accepts: unmasked, with a sync wakeup or an enabled normal wakeup (R216). -/
abbrev Proc.NormalReady (p : Proc) (t : ThreadId) : Prop :=
  p.threads[t.val].mask = false ∧
    ((p.threads[t.val].asyncN = true ∧ p.threads[t.val].aen = true) ∨ p.threads[t.val].sync = true)

/-- The scheduler bits differ from those of another processor state at most by sync wakeups posted (R218). -/
def WakeupsOnly (p q : Proc) : Prop :=
  q = { p with threads := q.threads } ∧
  ∀ t : ThreadId, q.threads[t.val] = p.threads[t.val] ∨ q.threads[t.val] = { p.threads[t.val] with sync := true }

/-! ## Invariants -/

/-- The processor's memories are in canonical form. -/
abbrev Proc.MemoryCanonical (p : Proc) : Prop := p.code.wf = true ∧ p.sram.wf = true ∧ p.ctx.wf = true

/-- Every memory is in canonical form. -/
abbrev State.MemoryCanonical (s : State) : Prop :=
  s.self.MemoryCanonical ∧ s.peer.MemoryCanonical ∧
  s.shared.common.wf = true ∧ s.shared.ddr.wf = true ∧ s.shared.psram.wf = true

/-- R31 (d), (e), (f), (g) for one processor: FIFO occupancy within depth, at most two delay-slot entries, a
masked `pc`, and `P[0] = 0`; and a parked processor has no pending delay slot (R190, R214). -/
abbrev Proc.Structured (p : Proc) : Prop :=
  p.dma.entries.length ≤ Config.depth .dma ∧ p.ramman.entries.length ≤ Config.depth .ramman ∧
  p.hash.entries.length ≤ Config.depth .hash ∧ p.counter.entries.length ≤ Config.depth .counter ∧
  p.bbtx.entries.length ≤ Config.depth .bbtx ∧ p.bbmsg.entries.length ≤ Config.depth .bbmsg ∧
  p.pipe.length ≤ Config.maxDelay ∧ p.pc &&& ~~~Config.pcMask = 0 ∧ p.priv[0] = 0 ∧
  (p.stall.cause = .noContext → p.pipe = [])

/-- R31 (d) to (g) for both processors. -/
abbrev State.Structured (s : State) : Prop := s.self.Structured ∧ s.peer.Structured

/-- The completion clocks of a queue never decrease along it (R31 (c), R242). -/
abbrev Fifo.Ordered {α : Type} (f : Fifo α) : Prop :=
  (f.entries.map (fun e => e.comp)).Pairwise (fun a b => a ≤ b)

/-- No completion clock of a queue is in the past (R31 (c)). -/
abbrev Fifo.NotPast {α : Type} (f : Fifo α) (clk : Nat) : Prop := ∀ e ∈ f.entries, clk ≤ e.comp

/-- R31 (c) for one processor: the completion clocks of every queue never decrease along it, and unless the
processor is halted none is in the past (R242). -/
abbrev Proc.Timely (p : Proc) : Prop :=
  (p.dma.Ordered ∧ p.ramman.Ordered ∧ p.hash.Ordered ∧ p.counter.Ordered ∧ p.bbtx.Ordered ∧ p.bbmsg.Ordered) ∧
  (p.halted = true ∨
   (p.dma.NotPast p.clk ∧ p.ramman.NotPast p.clk ∧ p.hash.NotPast p.clk ∧ p.counter.NotPast p.clk ∧
    p.bbtx.NotPast p.clk ∧ p.bbmsg.NotPast p.clk))

/-- R31 (c) for both processors. -/
abbrev State.Timely (s : State) : Prop := s.self.Timely ∧ s.peer.Timely

/-- The addresses of a queued CRC lie in the SRAM; a CAM has none (R245). -/
def RammanOp.inRange : RammanOp → Bool
  | .crc _ _ saddr nwords => rangeOk Config.sramBytes 4 saddr (4 * nwords)
  | .cam _ _ _ _ => true

/-- Every address that a processor's queues hold is aligned and its whole range inside its space (R245). -/
abbrev Proc.QueuesInRange (p : Proc) : Prop :=
  (∀ e ∈ p.dma.entries,
    rangeOk Config.sramBytes 4 e.payload.saddr (4 * e.payload.nwords) = true ∧
    rangeOk Config.commonBytes 4 e.payload.caddr (4 * e.payload.nwords) = true) ∧
  (∀ e ∈ p.ramman.entries, e.payload.inRange = true) ∧
  (∀ e ∈ p.counter.entries,
    rangeOk Config.commonBytes (counterBytes e.payload.w4) e.payload.caddr (counterBytes e.payload.w4) = true) ∧
  (∀ e ∈ p.bbtx.entries, rangeOk Config.sramBytes 4 e.payload.saddr e.payload.len = true)

/-- Every address that a memory lists lies below its size. -/
abbrev Mem.Below (m : Mem) (size : Nat) : Prop := ∀ c ∈ m, c.1 < size

/-- Every memory lies inside its space, the sizes of DDR and PSRAM being OPEN, and every queued address inside its
own (R40, R45, R245). -/
abbrev State.InRange (s : State) : Prop :=
  s.self.QueuesInRange ∧ s.peer.QueuesInRange ∧
  s.self.sram.Below Config.sramBytes ∧ s.peer.sram.Below Config.sramBytes ∧
  s.self.ctx.Below Config.ctxBytes ∧ s.peer.ctx.Below Config.ctxBytes ∧
  s.self.code.Below Config.codeBytes ∧ s.peer.code.Below Config.codeBytes ∧
  s.shared.common.Below Config.commonBytes ∧ s.shared.ddr.Below Config.ddrBytes ∧
  s.shared.psram.Below Config.psramBytes

/-- Every delay-slot entry holds the word of its own offset (R55). -/
abbrev Proc.PipeIsCode (p : Proc) : Prop := ∀ e ∈ p.pipe, e.word = p.codeRead e.ipc

end Sys2Proof.Machine
end

