-- ==== Sys2Proof/Certificates/Slice0/Obligations.lean ====
section
/-! DEFINITION. The statements for the provers. Each docstring names the rule of spec/ it formalises, or says
that it rests on a choice of the model and names the log entry (notes/assumptions). -/

open Sys2Proof Sys2Proof.Machine

/-! ## Encoding and decoding (R60 to R95) -/

/-- Decode and encode agree: no bit of a field is dropped, whatever the operands (R60 to R89). -/
def Obligations.DecodeOfEncodeIsIdentity : Prop :=
  ∀ (i : Instr) (rest : List Byte), i.wellFormed = true →
    decodeWord (encode i) = .ok i ∧ decode (encodeBytes i ++ rest) = .ok (i, rest)

/-- What decodes is well-formed, and encodes to the word with bits cleared that no field covers (R88, R89). -/
def Obligations.DecodeLosesOnlyIgnoredBits : Prop :=
  ∀ (w : Word) (i : Instr), decodeWord w = .ok i →
    i.wellFormed = true ∧ encode i &&& w = encode i ∧ decodeWord (encode i) = .ok i

/-- R88: exactly the listed words are illegal, and one that is about to run halts the processor with
`FatalDecode(w)` and no other effect. `nextTurn`, which says whose tick comes next, is the model's (log
entry 1). -/
def Obligations.IllegalWordsAreFatalDecode : Prop :=
  (∀ w : Word, (∃ e, decodeWord w = .error e) ↔ IllegalWord w) ∧
  (∀ s : State, s.self.halted = false → s.self.stall.cause ≠ .noContext → IllegalWord s.word →
    step s = .next ({ s with self :=
      { s.self with halted := true, haltCause := .decode,
                    haltInfo := ⟨s.self.clk, s.ipc, .word s.word⟩ } } : State).nextTurn)

/-- R61: the bitfield decoder's formula, `fld(w, s, e) = (w >> (32 - e)) mod 2^(e - s)`. -/
def Obligations.FieldIsShiftedAndCut : Prop :=
  ∀ (w : Word) (s e : Nat) (h : s < e ∧ e ≤ 32), (fld w s e h).toNat = (w.toNat >>> (32 - e)) % 2 ^ (e - s)

/-- The worked encodings of the spec, of several layouts, decode to the instructions they stand for
(R64 to R86). -/
def Obligations.SpecEncodingsDecode : Prop :=
  decodeWord 0x0464C001 = .ok (.addI 3 4 ⟨true, false, false, 0⟩ 1) ∧
  decodeWord 0x08220060 = .ok (.subR 1 2 ⟨false, false, false, 0⟩ 3) ∧
  decodeWord 0x1CA81234 = .ok (.movi 5 false true 0x1234) ∧
  decodeWord 0x2022A01F = .ok (.sraI 1 2 31) ∧
  decodeWord 0x34220FFF = .ok (.stD 1 2 .b8 0xFFF) ∧
  decodeWord 0x3882D003 = .ok (.ldcXI 4 2 .b64 3) ∧
  decodeWord 0xE8414E02 = .ok (.jmp 0 false .bitTest 5 7 2) ∧
  decodeWord 0xEE400040 = .ok (.lcall 2 false 0x40) ∧
  decodeWord 0x40A19FFE = .ok (.cmpjI 0 true .gt 1 7 0x3FE) ∧
  decodeWord 0x4A000000 = .ok (.ctxswap true) ∧
  decodeWord 0xFB044300 = .ok (.dmal true 2 1 2 3) ∧
  decodeWord 0x4F650000 = .ok (.hash true .k60 1 2 10) ∧
  decodeWord 0x64C30001 = .ok (.cnt false false true true 3 1)

/-! ## The tick (R100 to R111) -/

/-- One step is one tick of R100. The instruction that the selected word decodes to runs; unless it halted the
processor, completions, scheduler, timers and clock follow in this order; a parked processor skips the
instruction. No instruction ends in a fault or a refusal. `nextTurn` counts the tick and gives the turn to the
processor that the OPEN schedule names; it and the turn that passes over a halted processor are the
model's (log entries 1 and 10). -/
def Obligations.StepRunsTheDecodedInstruction : Prop :=
  (∀ (s t : State) (i : Instr), s.self.halted = false → s.self.stall.cause ≠ .noContext →
    decodeWord s.word = .ok i → exec i s = .next t →
    step s = .next (if t.self.halted then t else t.endTick).nextTurn) ∧
  (∀ s : State, s.self.halted = false → s.self.stall.cause = .noContext → step s = .next s.endTick.nextTurn) ∧
  (∀ s : State, s.self.halted = true → s.peer.halted = false → step s = step s.passTurn) ∧
  (∀ s : State, s.endTick =
    let t := s.accTick.schedTick
    if t.self.halted then t
    else { t.timerTick with self := { t.timerTick.self with clk := t.self.clk + 1 } }) ∧
  (∀ (i : Instr) (s : State), ∃ t, exec i s = .next t) ∧
  (∀ s : State, s.nextTurn.ticks = s.ticks + 1 ∧ s.nextTurn.me = Config.schedule (s.ticks + 1) ∧
    (∀ q, s.nextTurn.proc q = s.proc q) ∧ s.nextTurn.shared = s.shared ∧ s.nextTurn.draws = s.draws)

/-- A tick of one processor leaves the other as it is, but for sync wakeups posted to its threads; so a halted
processor never changes again, but for those; and as long as one processor is not halted there is a
step (R101, R353), the turn passing over a halted processor (log entries 1 and 10). -/
def Obligations.OtherProcessorOnlyWoken : Prop :=
  (∀ s s' : State, step s = .next s' → WakeupsOnly (s.proc s.ticking.other) (s'.proc s.ticking.other)) ∧
  (∀ (s s' : State) (q : ProcId), step s = .next s' → (s.proc q).halted = true →
    WakeupsOnly (s.proc q) (s'.proc q)) ∧
  (∀ (s : State) (q : ProcId), (s.proc q).halted = false → ∃ s', step s = .next s')

/-- A parked processor for which the scheduler finds no thread runs nothing: registers, flags, `pc`, call stack
and context area stay, and it stays parked (R108, R214). -/
def Obligations.ParkedProcessorRunsNothing : Prop :=
  ∀ s s' : State, s.self.halted = false → s.self.stall.cause = .noContext →
    (s.self.clk % Config.schedPeriod ≠ 0 ∨ chooseThread s.accTick.self.threads = none) → step s = .next s' →
    let p := s'.proc s.me
    p.priv = s.self.priv ∧ p.glob = s.self.glob ∧ p.flags = s.self.flags ∧ p.pc = s.self.pc ∧
    p.cs = s.self.cs ∧ p.csDepth = s.self.csDepth ∧ p.pipe = s.self.pipe ∧ p.ctx = s.self.ctx ∧
    p.cur = s.self.cur ∧ p.saveCtx = s.self.saveCtx ∧ p.stall = s.self.stall ∧ p.halted = false ∧
    p.clk = s.self.clk + 1

/-- R55: nothing writes a code segment, so a delay-slot word is always the word of its own offset. -/
def Obligations.CodeIsNeverWritten : Prop :=
  ∀ s s' : State, step s = .next s' →
    (∀ q, (s'.proc q).code = (s.proc q).code) ∧
    ((∀ q, (s.proc q).PipeIsCode) → ∀ q, (s'.proc q).PipeIsCode)

/-! ## Invariants that every step keeps (R31, R245) -/

/-- Every step keeps the canonical form of every memory. -/
def Obligations.StepKeepsMemoryCanonical : Prop :=
  ∀ s s' : State, s.MemoryCanonical → step s = .next s' → s'.MemoryCanonical

/-- Every step keeps R31 (d), (e), (f), (g): occupancy within depth, at most two delay-slot entries, a masked
`pc`, `P[0] = 0`. -/
def Obligations.StepKeepsStructure : Prop :=
  ∀ s s' : State, s.Structured → step s = .next s' → s'.Structured

/-- Every step keeps R31 (c): completion clocks along a queue never decrease, on a halted processor too, and on one
that is not halted none is in the past. -/
def Obligations.StepKeepsCompletionClocks : Prop :=
  ∀ s s' : State, s.Timely → step s = .next s' → s'.Timely

/-- Every step keeps every queued address inside its space, and so every memory inside its size, DDR and PSRAM with
their OPEN sizes among them (R45, R245, R243: completions cannot raise). -/
def Obligations.StepKeepsAddressesInRange : Prop :=
  ∀ s s' : State, s.InRange → step s = .next s' → s'.InRange

/-- The invariants hold after reset, whatever the images and whoever has the first turn, and so at `State.reset`,
whose images are empty (log entry 6) and whose first turn is the OPEN schedule's (log entry 1). -/
def Obligations.ResetMeetsTheInvariants : Prop :=
  (∀ (first : ProcId) (im0 im1 : Images) (common : List Byte),
    let s := State.boot first im0 im1 common
    s.MemoryCanonical ∧ s.Structured ∧ s.Timely ∧ s.InRange ∧ ∀ q, (s.proc q).PipeIsCode) ∧
  State.reset = State.boot (Config.schedule 0) ⟨[], [], []⟩ ⟨[], [], []⟩ []

/-- R33: the state after reset, for any images; both processors alike, and the shared state. The first turn may be
either processor's (R352). -/
def Obligations.ResetValuesAreTheTables : Prop :=
  ∀ (first : ProcId) (im0 im1 : Images) (common : List Byte),
    let s := State.boot first im0 im1 common
    s.me = first ∧
    (∀ q : ProcId,
      let p := s.proc q
      let im := match q with | .p0 => im0 | .p1 => im1
      (∀ k : Fin 8, p.glob[k.val] = 0) ∧ p.priv[0] = 0 ∧
      (∀ k : Fin 24, k ≠ 0 → p.priv[k.val] = p.ctx.read32 (4 * k.val)) ∧
      (∀ a, a < Config.ctxBytes → p.ctx.read a = im.ctx.getD a 0) ∧
      (∀ a, a < Config.codeBytes → p.code.read a = im.code.getD a 0) ∧
      (∀ a, a < Config.sramBytes → p.sram.read a = im.sram.getD a 0) ∧
      p.pc = 0 ∧ p.flags = ⟨false, false, false, false⟩ ∧ p.csDepth = 0 ∧ (∀ k : Fin 4, p.cs[k.val] = 0) ∧
      p.pipe = [] ∧ p.pipeClk = 0 ∧
      (∀ t : ThreadId, p.threads[t.val] = ⟨false, false, false, false, false⟩) ∧
      p.prev = 0 ∧ p.cur = 0 ∧ p.next = 0 ∧
      p.nextValid = false ∧ p.saveCtx = false ∧ p.noCandidate = false ∧ p.stall.cause = .normal ∧
      p.dma = ⟨[], 0⟩ ∧ p.ramman = ⟨[], 0⟩ ∧ p.hash = ⟨[], 0⟩ ∧ p.counter = ⟨[], 0⟩ ∧ p.bbtx = ⟨[], 0⟩ ∧
      p.bbmsg = ⟨[], 0⟩ ∧
      (∀ (t : Fin 3) (k : Fin 4), p.lkReady[t.val][k.val] = true) ∧ (∀ k : Fin 4, p.rmReady[k.val] = true) ∧
      (∀ k : Fin 4, p.timer[k.val] = 0) ∧ p.tpause = 0 ∧ p.tchain = 0 ∧ (∀ k : Fin 256, p.ioStore[k.val] = 0) ∧
      p.halted = false ∧ p.haltCause = .none ∧ p.clk = 0 ∧
      p.txOut = [] ∧ p.msgOut = [] ∧ p.cryptoOut = []) ∧
    (∀ a, a < Config.commonBytes → s.shared.common.read a = common.getD a 0) ∧
    (∀ k : Fin 8, s.shared.sem[k.val].held = false ∧ s.shared.sem[k.val].wakeOnRelease = false) ∧
    s.shared.ctrLock.held = false

/-! ## The ALU family (R120 to R129) -/

/-- R121, bit by bit: the byte shift first, bits shifted out lost and zeros shifted in, the inversion second. -/
def Obligations.OperandBShiftsThenInverts : Prop :=
  ∀ (b0 : Word) (m : AluMods) (k : Nat), k < 32 →
    (operandB b0 m).getLsbD k =
      (m.inv ^^
        (if m.sdir then b0.getLsbD (k + 8 * m.samt.toNat)
         else decide (8 * m.samt.toNat ≤ k) && b0.getLsbD (k - 8 * m.samt.toNat)))

/-- ADD and SUB in both forms: the exact sum, carry when it reaches 2^32; the exact difference, carry when it is
negative, a borrow (R122, R123, R128). -/
def Obligations.AddAndSubWriteTheExactResult : Prop :=
  ∀ (rd ra rb : Reg) (m : AluMods) (imm10 : BitVec 10) (s : State),
    let a : Int := (s.reg ra).toNat
    let br : Int := (operandB (s.reg rb) m).toNat
    let bi : Int := (operandB (imm10.setWidth 32) m).toNat
    GivesAluResult (.addR rd ra m rb) s rd (a + br) (2 ^ 32 ≤ a + br) m.f ∧
    GivesAluResult (.addI rd ra m imm10) s rd (a + bi) (2 ^ 32 ≤ a + bi) m.f ∧
    GivesAluResult (.subR rd ra m rb) s rd (a - br) (a < br) m.f ∧
    GivesAluResult (.subI rd ra m imm10) s rd (a - bi) (a < bi) m.f

/-- AND, OR and XOR in both forms: the bitwise result, no carry, never an overflow (R124 to R126, R128). -/
def Obligations.LogicOpsWriteTheBitwiseResult : Prop :=
  ∀ (rd ra rb : Reg) (m : AluMods) (imm10 : BitVec 10) (s : State),
    let a := s.reg ra
    let br := operandB (s.reg rb) m
    let bi := operandB (imm10.setWidth 32) m
    GivesAluResult (.andR rd ra m rb) s rd (a &&& br).toNat False m.f ∧
    GivesAluResult (.andI rd ra m imm10) s rd (a &&& bi).toNat False m.f ∧
    GivesAluResult (.orR rd ra m rb) s rd (a ||| br).toNat False m.f ∧
    GivesAluResult (.orI rd ra m imm10) s rd (a ||| bi).toNat False m.f ∧
    GivesAluResult (.xorR rd ra m rb) s rd (a ^^^ br).toNat False m.f ∧
    GivesAluResult (.xorI rd ra m imm10) s rd (a ^^^ bi).toNat False m.f

/-- MUL in both forms: the exact unsigned product, no carry, overflow from 2^32 on (R127, R128). -/
def Obligations.MulWritesTheProduct : Prop :=
  ∀ (rd ra rb : Reg) (m : AluMods) (imm10 : BitVec 10) (s : State),
    (let b := operandB (s.reg rb) m
     GivesAluResult (.mulR rd ra m rb) s rd ((s.reg ra).toNat * b.toNat : Nat) False m.f) ∧
    (let b := operandB (imm10.setWidth 32) m
     GivesAluResult (.mulI rd ra m imm10) s rd ((s.reg ra).toNat * b.toNat : Nat) False m.f)

/-! ## Move, shifts, bit fields (R140 to R149) -/

/-- MOVI: the half that `high` names holds the immediate, the other is 0 with `clear` and kept without (R140). -/
def Obligations.MoviWritesOneHalf : Prop :=
  ∀ (rd : Reg) (high clear : Bool) (imm16 : BitVec 16) (s : State), ∃ v : Word,
    v.extractLsb' (if high then 16 else 0) 16 = imm16 ∧
    v.extractLsb' (if high then 0 else 16) 16 =
      (if clear then 0 else (s.reg rd).extractLsb' (if high then 0 else 16) 16) ∧
    GivesRegister (.movi rd high clear imm16) s rd v

/-- SLL, SRL, SRA, by a register (its low 5 bits) and by an immediate, bit by bit (R141 to R143). -/
def Obligations.ShiftsMoveEveryBit : Prop :=
  ∀ (rd ra rb : Reg) (amt5 : BitVec 5) (s : State),
    let a := s.reg ra
    let byReg := (s.reg rb).toNat % 32
    (∀ n, ∃ v : Word, (∀ k, k < 32 → v.getLsbD k = (decide (n ≤ k) && a.getLsbD (k - n))) ∧
      (n = byReg → GivesRegister (.sllR rd ra rb) s rd v) ∧
      (n = amt5.toNat → GivesRegister (.sllI rd ra amt5) s rd v)) ∧
    (∀ n, ∃ v : Word, (∀ k, k < 32 → v.getLsbD k = (decide (k + n < 32) && a.getLsbD (k + n))) ∧
      (n = byReg → GivesRegister (.srlR rd ra rb) s rd v) ∧
      (n = amt5.toNat → GivesRegister (.srlI rd ra amt5) s rd v)) ∧
    (∀ n, ∃ v : Word, (∀ k, k < 32 → v.getLsbD k = a.getLsbD (min (k + n) 31)) ∧
      (n = byReg → GivesRegister (.sraR rd ra rb) s rd v) ∧
      (n = amt5.toNat → GivesRegister (.sraI rd ra amt5) s rd v))

/-- INSERT and EXTRACT, bit by bit, with the field cut at bit 31 (R144, R145). -/
def Obligations.BitFieldsAreInsertedAndExtracted : Prop :=
  ∀ (rd ra : Reg) (pos wm1 : BitVec 5) (s : State),
    let w := wm1.toNat + 1
    (∃ v : Word,
      (∀ k, k < 32 → v.getLsbD k =
        (if pos.toNat ≤ k ∧ k < pos.toNat + w then (s.reg ra).getLsbD (k - pos.toNat) else (s.reg rd).getLsbD k)) ∧
      GivesRegister (.insert rd ra pos wm1) s rd v) ∧
    (∃ v : Word,
      (∀ k, k < 32 → v.getLsbD k = (decide (k < w) && (s.reg ra).getLsbD (pos.toNat + k))) ∧
      GivesRegister (.extract rd ra pos wm1) s rd v)

/-- SEXT8 and SEXT16: the low 8 or 16 bits as a two's-complement number (R146). -/
def Obligations.SignExtensionKeepsTheValue : Prop :=
  ∀ (rd ra : Reg) (s : State),
    (∃ v : Word, v.toInt = ((s.reg ra).extractLsb' 0 8).toInt ∧ GivesRegister (.sext8 rd ra) s rd v) ∧
    (∃ v : Word, v.toInt = ((s.reg ra).extractLsb' 0 16).toInt ∧ GivesRegister (.sext16 rd ra) s rd v)

/-- FFI: 32 for 0, else the least bit number set (R147). -/
def Obligations.FfiFindsTheLowestSetBit : Prop :=
  ∀ (rd ra : Reg) (s : State), ∃ n : Nat, GivesRegister (.ffi rd ra) s rd (BitVec.ofNat 32 n) ∧
    (if s.reg ra = 0 then n = 32
     else n < 32 ∧ (s.reg ra).getLsbD n = true ∧ ∀ k, k < n → (s.reg ra).getLsbD k = false)

/-- ICHK writes the OPEN function of its two operands (R148); NOP changes nothing (R149). -/
def Obligations.IchkAndNopComplete : Prop :=
  (∀ (rd ra rb : Reg) (s : State), GivesRegister (.ichk rd ra rb) s rd (Config.ichkFn (s.reg ra) (s.reg rb))) ∧
  (∀ s : State, ∃ t, exec .nop s = .next t ∧ Sequenced s t ∧ t = s.sequencedAs t ∧ SameMemory s t)

/-! ## Loads and stores (R160 to R166) -/

/-- R161: the three effective addresses, modulo 2^32. -/
def Obligations.EffectiveAddressesWrap : Prop :=
  ∀ (base idx : Word) (off12 : BitVec 12) (size : Size),
    ((eaDirect base off12).toNat : Int) = (base.toNat + off12.toInt) % 2 ^ 32 ∧
    (eaIndexImm base size off12).toNat = (base.toNat + off12.toNat * Size.bytes size) % 2 ^ 32 ∧
    (eaIndexReg base size idx).toNat = (base.toNat + (idx.toNat * Size.bytes size) % 2 ^ 32) % 2 ^ 32

/-- R162: which space an LD or ST reaches; alignment first, then SRAM, then the IO window for 32 bits. -/
def Obligations.DataSpaceIsChosenByAddress : Prop :=
  ∀ (ea : Word) (size : Size),
    let b := Size.bytes size
    (ea.toNat % min b 4 ≠ 0 → dataSpace ea size = none) ∧
    (ea.toNat % min b 4 = 0 → ea.toNat + b ≤ 0xC000 → dataSpace ea size = some .sram) ∧
    (ea.toNat % min b 4 = 0 → 0xC000 < ea.toNat + b → size = .b32 → 0xC000 ≤ ea.toNat → ea.toNat ≤ 0xC3FC →
      ∃ i : Fin 256, dataSpace ea size = some (.io i) ∧ 4 * i.val = ea.toNat - 0xC000) ∧
    (ea.toNat % min b 4 = 0 → 0xC000 < ea.toNat + b →
      ¬(size = .b32 ∧ 0xC000 ≤ ea.toNat ∧ ea.toNat ≤ 0xC3FC) → dataSpace ea size = none)

/-- LD from the SRAM in its three addressing forms and four sizes (R163, R161, R50). -/
def Obligations.LdLoadsFromSram : Prop :=
  ∀ (i : Instr) (rd ra rb : Reg) (size : Size) (imm12 : BitVec 12) (ea : Word) (s : State),
    (i = .ldD rd ra size imm12 ∧ ea = eaDirect (s.reg ra) imm12 ∨
     i = .ldXI rd ra size imm12 ∧ ea = eaIndexImm (s.reg ra) size imm12 ∨
     i = .ldXR rd ra size rb ∧ ea = eaIndexReg (s.reg ra) size (s.reg rb)) →
    i.wellFormed = true → ea.toNat % min (Size.bytes size) 4 = 0 → ea.toNat + Size.bytes size ≤ 0xC000 →
    GivesLoad i s size rd .sram ea.toNat

/-- LDC from the common segment in its three addressing forms and four sizes (R165, R161, R50). -/
def Obligations.LdcLoadsFromCommon : Prop :=
  ∀ (i : Instr) (rd ra rb : Reg) (size : Size) (imm12 : BitVec 12) (ea : Word) (s : State),
    (i = .ldcD rd ra size imm12 ∧ ea = eaDirect (s.reg ra) imm12 ∨
     i = .ldcXI rd ra size imm12 ∧ ea = eaIndexImm (s.reg ra) size imm12 ∨
     i = .ldcXR rd ra size rb ∧ ea = eaIndexReg (s.reg ra) size (s.reg rb)) →
    i.wellFormed = true → ea.toNat % min (Size.bytes size) 4 = 0 → ea.toNat + Size.bytes size ≤ 0x10000 →
    GivesLoad i s size rd .common ea.toNat

/-- ST to the SRAM in its three addressing forms and four sizes: the bytes of the access at the address the form
computes, every other byte of every space as before (R164, R161, R50). -/
def Obligations.StStoresToSram : Prop :=
  ∀ (i : Instr) (rd ra rb : Reg) (size : Size) (imm12 : BitVec 12) (ea : Word) (s : State),
    (i = .stD rd ra size imm12 ∧ ea = eaDirect (s.reg ra) imm12 ∨
     i = .stXI rd ra size imm12 ∧ ea = eaIndexImm (s.reg ra) size imm12 ∨
     i = .stXR rd ra size rb ∧ ea = eaIndexReg (s.reg ra) size (s.reg rb)) →
    i.wellFormed = true → ea.toNat % min (Size.bytes size) 4 = 0 → ea.toNat + Size.bytes size ≤ 0xC000 →
    s.self.sram.wf = true →
    ∃ t, exec i s = .next t ∧ Stores .sram ea.toNat (dataBytes size (s.reg rd) (s.reg (rd + 1))) s t ∧
      Sequenced s t ∧ OnlySram s t

/-- STC to the common segment, as ST (R166, R161, R50). -/
def Obligations.StcStoresToCommon : Prop :=
  ∀ (i : Instr) (rd ra rb : Reg) (size : Size) (imm12 : BitVec 12) (ea : Word) (s : State),
    (i = .stcD rd ra size imm12 ∧ ea = eaDirect (s.reg ra) imm12 ∨
     i = .stcXI rd ra size imm12 ∧ ea = eaIndexImm (s.reg ra) size imm12 ∨
     i = .stcXR rd ra size rb ∧ ea = eaIndexReg (s.reg ra) size (s.reg rb)) →
    i.wellFormed = true → ea.toNat % min (Size.bytes size) 4 = 0 → ea.toNat + Size.bytes size ≤ 0x10000 →
    s.shared.common.wf = true →
    ∃ t, exec i s = .next t ∧ Stores .common ea.toNat (dataBytes size (s.reg rd) (s.reg (rd + 1))) s t ∧
      Sequenced s t ∧ OnlyCommon s t

/-- A misaligned address or one outside its space halts the processor with `FatalAccess(EA)` before anything is
written, for all four instructions and every form (R342 (a), (b), (c), R162, R165, R166). -/
def Obligations.BadAddressIsFatalAccess : Prop :=
  ∀ (i : Instr) (rd ra rb : Reg) (size : Size) (imm12 : BitVec 12) (ea : Word) (s : State),
    ((i = .ldD rd ra size imm12 ∨ i = .stD rd ra size imm12) ∧ ea = eaDirect (s.reg ra) imm12 ∨
     (i = .ldXI rd ra size imm12 ∨ i = .stXI rd ra size imm12) ∧ ea = eaIndexImm (s.reg ra) size imm12 ∨
     (i = .ldXR rd ra size rb ∨ i = .stXR rd ra size rb) ∧ ea = eaIndexReg (s.reg ra) size (s.reg rb) →
      (ea.toNat % min (Size.bytes size) 4 ≠ 0 ∨
        (0xC000 < ea.toNat + Size.bytes size ∧ ¬(size = .b32 ∧ 0xC000 ≤ ea.toNat ∧ ea.toNat ≤ 0xC3FC))) →
      IsFatal i s .access (.address ea)) ∧
    ((i = .ldcD rd ra size imm12 ∨ i = .stcD rd ra size imm12) ∧ ea = eaDirect (s.reg ra) imm12 ∨
     (i = .ldcXI rd ra size imm12 ∨ i = .stcXI rd ra size imm12) ∧ ea = eaIndexImm (s.reg ra) size imm12 ∨
     (i = .ldcXR rd ra size rb ∨ i = .stcXR rd ra size rb) ∧ ea = eaIndexReg (s.reg ra) size (s.reg rb) →
      (ea.toNat % min (Size.bytes size) 4 ≠ 0 ∨ 0x10000 < ea.toNat + Size.bytes size) →
      IsFatal i s .access (.address ea))

/-- LD of the IO window: the register's value if it has one, a stall on `LoadIoPending` if it is a result register
that is not ready; and ST of the window: the store of that register and nothing else (R163, R164, R300).
The stall record stays when it already has this cause: R106 says "for this same instruction", and that
the cause alone is compared is log entry 14 (DEDUCED). -/
def Obligations.IoWindowIsReachedByLdAndSt : Prop :=
  ∀ (rd ra rb : Reg) (imm12 : BitVec 12) (ea : Word) (k : Fin 256) (ld st : Instr) (s : State),
    (ld = .ldD rd ra .b32 imm12 ∧ st = .stD rd ra .b32 imm12 ∧ ea = eaDirect (s.reg ra) imm12 ∨
     ld = .ldXI rd ra .b32 imm12 ∧ st = .stXI rd ra .b32 imm12 ∧ ea = eaIndexImm (s.reg ra) .b32 imm12 ∨
     ld = .ldXR rd ra .b32 rb ∧ st = .stXR rd ra .b32 rb ∧ ea = eaIndexReg (s.reg ra) .b32 (s.reg rb)) →
    ea.toNat = 0xC000 + 4 * k.val →
    (∀ v, s.ioLoad k = some v → GivesRegister ld s rd v) ∧
    (s.ioLoad k = none → IsStalled ld s .loadIoPending) ∧
    (∃ t, exec st s = .next t ∧ Sequenced s t ∧ t = (s.ioStoreWord k (s.reg rd)).sequencedAs t)

/-! ## The IO register file (R300 to R320); `k` is a byte offset divided by 4 -/

/-- R301: what a load of each register of the window returns, and that only a result register whose ready bit is
0 returns nothing yet. -/
def Obligations.IoLoadReturnsTheRegister : Prop :=
  ∀ s : State,
    (∀ k : Fin 256, k.val ∈ [0, 4, 5, 7, 13, 14, 15, 16, 17, 18, 19] ∨ (20 ≤ k.val ∧ k.val < 32) ∨
        (44 ≤ k.val ∧ k.val < 48) ∨ (52 ≤ k.val ∧ k.val < 64) ∨ 96 ≤ k.val →
      s.ioLoad k = some s.self.ioStore[k.val]) ∧
    s.ioLoad 1 = some 0 ∧ s.ioLoad 2 = some 0 ∧
    (∃ v : Word, s.ioLoad 3 = some v ∧
      (∀ j : Fin 8, v.getLsbD j.val = s.shared.sem[j.val].held) ∧
      (∀ j : Fin 8, v.getLsbD (8 + j.val) = (s.shared.sem[j.val].held && s.shared.sem[j.val].owner == s.me)) ∧
      (∀ j, 16 ≤ j → v.getLsbD j = false)) ∧
    s.ioLoad 6 = some ((s.self.tchain.setWidth 32 <<< 8) ||| s.self.tpause.setWidth 32) ∧
    (∀ (k : Fin 256) (j : Fin 4), k.val = 8 + j.val → s.ioLoad k = some (s.self.timer[j.val].setWidth 32)) ∧
    (∃ v : Word, s.ioLoad 12 = some v ∧
      v.getLsbD 0 = (s.shared.ctrLock.held && s.shared.ctrLock.owner == s.me) ∧
      v.getLsbD 1 = (s.shared.ctrLock.held && s.shared.ctrLock.owner == s.me.other) ∧
      (∀ j, 2 ≤ j → v.getLsbD j = false)) ∧
    (∀ (k : Fin 256) (t : Fin 3) (j : Fin 4), k.val = 32 + 4 * t.val + j.val →
      s.ioLoad k = if s.self.lkReady[t.val][j.val] then some s.self.ioStore[k.val] else none) ∧
    (∀ (k : Fin 256) (j : Fin 4), k.val = 48 + j.val →
      s.ioLoad k = if s.self.rmReady[j.val] then some s.self.ioStore[k.val] else none) ∧
    (∀ (k : Fin 256) (t : ThreadId), k.val = 64 + t.val → ∃ v : Word, s.ioLoad k = some v ∧
      v.getLsbD 0 = s.self.threads[t.val].sync ∧ v.getLsbD 1 = s.self.threads[t.val].asyncN ∧
      v.getLsbD 2 = s.self.threads[t.val].asyncU ∧ v.getLsbD 3 = s.self.threads[t.val].mask ∧
      v.getLsbD 4 = s.self.threads[t.val].aen ∧ (∀ j, 5 ≤ j → v.getLsbD j = false))

/-- A store to a storage register goes through its write mask, which is all ones for the registers the map does
not name and OPEN for the seven it names (log entry 4); a store to a read-only register does nothing (R302,
R303, R305, R312). -/
def Obligations.IoStoreKeepsToTheWriteMask : Prop :=
  ∀ (s : State) (k : Fin 256) (v : Word),
    (k.val ∈ [3, 8, 9, 10, 11, 17, 18, 19] ∨ (32 ≤ k.val ∧ k.val < 44) ∨ (48 ≤ k.val ∧ k.val < 52) →
      s.ioStoreWord k v = s) ∧
    (k.val ∈ [0, 4, 5, 13, 14, 15, 16] →
      let m := Config.wmask (4 * k.val)
      s.ioStoreWord k v = { s with self :=
        { s.self with ioStore := s.self.ioStore.set k.val ((s.self.ioStore[k.val] &&& ~~~m) ||| (v &&& m)) } }) ∧
    (k.val = 7 ∨ (20 ≤ k.val ∧ k.val < 32) ∨ (44 ≤ k.val ∧ k.val < 48) ∨ (52 ≤ k.val ∧ k.val < 64) ∨
        96 ≤ k.val →
      s.ioStoreWord k v = { s with self := { s.self with ioStore := s.self.ioStore.set k.val v } })

/-- R306 and R310: a store to `WAKEUP` sets the one bit it names of the one thread it names, or nothing when a
field is reserved, and a load returns 0; a store to `THREAD_WAKEUP[t]` replaces the five bits of thread `t`,
and a load returns them. -/
def Obligations.WakeupStoresSetSchedulerBits : Prop :=
  ∀ (s : State) (v : Word),
    let tmode := (v.toNat / 2 ^ 5) % 4
    let kind := (v.toNat / 2 ^ 7) % 4
    s.ioLoad 1 = some 0 ∧
    ((2 ≤ tmode ∨ kind = 3) → s.ioStoreWord 1 v = s) ∧
    (tmode < 2 → kind < 3 → ∃ t,
      s.ioStoreWord 1 v = t ∧ t = { s with self := { s.self with threads := t.self.threads } } ∧
      ∀ th : ThreadId, t.self.threads[th.val] =
        let b := s.self.threads[th.val]
        if th.val = (if tmode = 0 then v.toNat % 32 else s.self.cur.val) then
          { b with sync := b.sync || kind == 0, asyncN := b.asyncN || kind == 1, asyncU := b.asyncU || kind == 2 }
        else b) ∧
    (∀ (k : Fin 256) (th : ThreadId), k.val = 64 + th.val →
      let b := s.self.threads[th.val]
      ∃ (w : Word) (t : State), s.ioLoad k = some w ∧
      w.getLsbD 0 = b.sync ∧ w.getLsbD 1 = b.asyncN ∧ w.getLsbD 2 = b.asyncU ∧ w.getLsbD 3 = b.mask ∧
      w.getLsbD 4 = b.aen ∧ (∀ j, 5 ≤ j → w.getLsbD j = false) ∧
      s.ioStoreWord k v = t ∧ t = { s with self := { s.self with threads := t.self.threads } } ∧
      ∀ th' : ThreadId, t.self.threads[th'.val] =
        if th' = th then ⟨v.getLsbD 0, v.getLsbD 1, v.getLsbD 2, v.getLsbD 3, v.getLsbD 4⟩
        else s.self.threads[th'.val])

/-- R313 and R311: a store to `TIMER_CTRL` replaces the pause and chain bits and clears the timers it strobes, and a
load returns the pause and chain bits; a timer tick adds 1, modulo 2^16, to the timers that count and
changes nothing else. -/
def Obligations.TimersCountAndAreControlled : Prop :=
  ∀ (s : State) (v : Word),
    (∃ w : Word, s.ioLoad 6 = some w ∧ w.toNat = s.self.tchain.toNat * 2 ^ 8 + s.self.tpause.toNat) ∧
    (∃ t, s.ioStoreWord 6 v = t ∧
      t = { s with self := { s.self with tpause := v.extractLsb' 0 4, tchain := v.extractLsb' 8 3,
                                         timer := t.self.timer } } ∧
      ∀ i : Fin 4, t.self.timer[i.val] = if v.getLsbD (4 + i.val) then 0 else s.self.timer[i.val]) ∧
    s.timerTick = { s with self := { s.self with timer := s.timerTick.self.timer } } ∧
    ∀ i : Fin 4, s.timerTick.self.timer[i.val] =
      if s.self.timerCounts i.val then s.self.timer[i.val] + 1 else s.self.timer[i.val]

/-- R315 and R316: acquire takes a free semaphore, and a failed one that asks to wait records the current thread;
release frees the semaphore whoever holds it and posts a recorded waiter a sync wakeup on its own
processor; nothing else changes. -/
def Obligations.SemaphoreCommandsAcquireAndRelease : Prop :=
  ∀ (s t : State) (v : Word) (k : Fin 8), k.val = v.toNat % 8 → s.ioStoreWord 2 v = t →
    let m := s.shared.sem[k.val]
    let cmd := (v.toNat / 2 ^ 3) % 4
    s.ioLoad 2 = some 0 ∧
    (∀ j : Fin 8, j ≠ k → t.shared.sem[j.val] = s.shared.sem[j.val]) ∧
    t = { s with shared := { s.shared with sem := t.shared.sem },
                 self := { s.self with threads := t.self.threads },
                 peer := { s.peer with threads := t.peer.threads } } ∧
    (cmd = 0 ∨ cmd = 3 → t = s) ∧
    (cmd = 1 → t.self = s.self ∧ t.peer = s.peer ∧
      t.shared.sem[k.val] =
        if m.held = false then { m with held := true, owner := s.me }
        else if v.getLsbD 5 then { m with waiter := s.self.cur, waitProc := s.me, wakeOnRelease := true }
        else m) ∧
    (cmd = 2 →
      t.shared.sem[k.val] = { m with held := false, owner := .p0, wakeOnRelease := false } ∧
      ∀ (q : ProcId) (th : ThreadId), (t.proc q).threads[th.val] =
        if m.wakeOnRelease = true ∧ q = m.waitProc ∧ th = m.waiter then
          { (s.proc q).threads[th.val] with sync := true }
        else (s.proc q).threads[th.val])

/-- R319: a store of 1 to `COUNTER_LOCK` takes the lock if it is free, a store of 0 gives it back if this processor
holds it, and otherwise nothing changes; a load says who holds it. -/
def Obligations.CounterLockIsATryLock : Prop :=
  ∀ (s : State) (v : Word),
    let l := s.shared.ctrLock
    let l' : CtrLock :=
      if v.getLsbD 0 then (if l.held then l else ⟨true, s.me⟩)
      else if l.held = true ∧ l.owner = s.me then ⟨false, l.owner⟩ else l
    s.ioStoreWord 12 v = { s with shared := { s.shared with ctrLock := l' } } ∧
    ∃ w : Word, s.ioLoad 12 = some w ∧
      w.toNat = if l.held = false then 0 else if l.owner = s.me then 1 else 2

/-! ## Jumps, branches, call and return (R180 to R192) -/

/-- JMP and JMPR: taken by the condition, inverted or not; to an offset relative to the jump or to the low half of
a register (R183, R184, R181, R182). -/
def Obligations.ShortJumpsBranchOnTheirCondition : Prop :=
  ∀ (ds : Fin 3) (inv : Bool) (cond : Cond) (rc rt : Reg) (bit : BitVec 5) (off9 : BitVec 9) (s : State),
    s.self.pipe = [] →
    let c := match cond with
      | .always => true
      | .zero => s.self.flags.z
      | .less => s.self.flags.n
      | .greater => !s.self.flags.n && !s.self.flags.z
      | .bitTest => (s.reg rc).getLsbD bit.toNat
    exec (.jmp ds inv cond rc bit off9) s =
      .next (s.branched (c ^^ inv) (BitVec.ofInt 16 (s.self.pc.toNat + 4 * off9.toInt)) ds.val) ∧
    exec (.jmpr ds inv cond rc bit rt) s =
      .next (s.branched (c ^^ inv) ((s.reg rt).extractLsb' 0 16) ds.val)

/-- LJMP and LCALL: taken unless inverted; a taken call first pushes the offset after its delay slots, and at
depth 4 is a fatal stack condition instead (R185, R186, R344). -/
def Obligations.LongJumpsAndCallsBranch : Prop :=
  ∀ (ds : Fin 3) (inv : Bool) (addr16 : BitVec 16) (s : State), s.self.pipe = [] →
    exec (.ljmp ds inv addr16) s = .next (s.branched (!inv) addr16 ds.val) ∧
    (inv = true → exec (.lcall ds inv addr16) s = .next (s.branched false addr16 ds.val)) ∧
    (inv = false → s.self.csDepth = 4 → IsFatal (.lcall ds inv addr16) s .stack .push) ∧
    (inv = false → s.self.csDepth.val < 4 → ∃ t, exec (.lcall ds inv addr16) s = .next t ∧
      t.self.csDepth.val = s.self.csDepth.val + 1 ∧
      (∀ k : Fin 4, t.self.cs[k.val] =
        if k.val = s.self.csDepth.val then
          (s.self.pc + BitVec.ofNat 16 (4 * (1 + ds.val))) &&& Config.pcMask
        else s.self.cs[k.val]) ∧
      t = ({ s with self := { s.self with cs := t.self.cs, csDepth := t.self.csDepth } } : State).branched true
        addr16 ds.val)

/-- BZ tests all 32 bits or one half for zero; CMPJ compares equal, greater (unsigned), or tests the or or the and
of its operands; both may be inverted (R187, R188, R181, R182). -/
def Obligations.TestBranchesCompareTheirOperands : Prop :=
  ∀ (ds : Fin 3) (inv : Bool) (half : Half) (cmp : Cmp) (ra rb : Reg) (imm5 : BitVec 5) (off16 : BitVec 16)
    (off10 : BitVec 10) (s : State), s.self.pipe = [] →
    let a := s.reg ra
    let z := match half with
      | .all => a.toNat
      | .low => a.toNat % 2 ^ 16
      | .high => a.toNat / 2 ^ 16
    let c := fun b : Word => match cmp with
      | .eq => decide (a = b)
      | .gt => decide (a.toNat > b.toNat)
      | .bitOr => decide (a ||| b ≠ 0)
      | .bitAnd => decide (a &&& b ≠ 0)
    exec (.bz ds inv half ra off16) s =
      .next (s.branched (decide (z = 0) ^^ inv) (BitVec.ofInt 16 (s.self.pc.toNat + 4 * off16.toInt)) ds.val) ∧
    exec (.cmpjR ds inv cmp ra rb off10) s =
      .next (s.branched (c (s.reg rb) ^^ inv) (BitVec.ofInt 16 (s.self.pc.toNat + 4 * off10.toInt)) ds.val) ∧
    exec (.cmpjI ds inv cmp ra imm5 off10) s =
      .next (s.branched (c (BitVec.ofNat 32 imm5.toNat) ^^ inv)
        (BitVec.ofInt 16 (s.self.pc.toNat + 4 * off10.toInt)) ds.val)

/-- RET: the newest return address, always with two delay slots; at depth 0 a fatal stack condition (R189,
R344). -/
def Obligations.RetPopsTheCallStack : Prop :=
  ∀ s : State, s.self.pipe = [] →
    (s.self.csDepth = 0 → IsFatal .ret s .stack .pop) ∧
    (∀ k : Fin 4, s.self.csDepth.val = k.val + 1 →
      exec .ret s = .next (({ s with self := { s.self with csDepth := ⟨k.val, Nat.lt_succ_of_lt k.isLt⟩ } } : State).branched true
        s.self.cs[k.val] 2))

/-- R190: a control transfer selected from the delay-slot buffer raises `FatalDecode(w)` with no other effect,
whether or not it would have been taken. -/
def Obligations.ControlTransferInDelaySlotIsFatal : Prop :=
  ∀ (i : Instr) (s : State), i.isControlTransfer = true → s.self.pipe ≠ [] →
    IsFatal i s .decode (.word s.word)

/-! ## CTXSWAP and the scheduler (R210 to R219) -/

/-- CTXSWAP with a shadow that takes effect: `pc` moves past the shadow, then the swap if a context is pending,
else the processor parks (R212, R214). A shadow instruction runs the same rule as on its own. The offset
that a panic of the swap records, and the `pc` and the stall cause that it leaves, are log entry 18
(DEDUCED). -/
def Obligations.CtxswapRunsItsShadowThenSwapsOrParks : Prop :=
  (∀ (i : Instr) (s : State), i.isControlTransfer = false →
    ∃ r, shadowRule i s = some r ∧ exec i s = complete r s) ∧
  (∀ (save : Bool) (s s1 s2 : State), s.self.pipe = [] →
    ShadowRuns s ((s.self.pc + 4) &&& Config.pcMask) s1 →
    ShadowRuns s1 ((s.self.pc + 8) &&& Config.pcMask) s2 →
    let pc := (s.self.pc + 12) &&& Config.pcMask
    let t : State := { s2 with self := { s2.self with pc := pc, stall := { s2.self.stall with cause := .normal } } }
    exec (.ctxswap save) s = .next (
      if s2.self.nextValid then t.doSwap save s.self.pc
      else { t with self :=
        { t.self with saveCtx := save, stall := ⟨.noContext, s.self.clk, pc, none⟩ } }))

/-- A shadow word that does not decode, a control transfer, a stall or a fatal condition in a CTXSWAP shadow halts
the processor; the second leaves the effects of the first (R213, R345, R104). The `ipc` that each records
is the model's reading (log entry 13). -/
def Obligations.ShadowViolationsHalt : Prop :=
  ∀ (save : Bool) (s s1 u : State), s.self.pipe = [] →
    (ShadowHalts s s.self.pc ((s.self.pc + 4) &&& Config.pcMask) u → exec (.ctxswap save) s = .next u) ∧
    (ShadowRuns s ((s.self.pc + 4) &&& Config.pcMask) s1 →
      ShadowHalts s1 s.self.pc ((s.self.pc + 8) &&& Config.pcMask) u → exec (.ctxswap save) s = .next u)

/-- The swap procedure of R215. Save if asked, restore, `prev <- cur <- next`, the new thread's wakeups and enable
cleared, the choice, the save flag and the stall cleared, the buffer emptied; a resume address of 0 is a
fatal panic after all that; nothing else changes. The `pc`, the stall cause and the recorded offset of a
panic are read from the order of the procedure's lines: log entry 18 (DEDUCED). -/
def Obligations.SwapProcedureMovesTheContext : Prop :=
  ∀ (save : Bool) (ipc : CodeOff) (s t : State), s.self.ctx.wf = true → s.doSwap save ipc = t →
    (∀ (th : ThreadId) (k : Fin 24), t.ctxWord th k.val =
      if save = true ∧ th = s.self.cur then s.self.priv[k.val] else s.ctxWord th k.val) ∧
    t.self.priv[0] = s.self.priv[0] ∧
    (∀ k : Fin 24, k ≠ 0 → t.self.priv[k.val] = t.ctxWord s.self.next k.val) ∧
    t.self.prev = s.self.cur ∧ t.self.cur = s.self.next ∧ t.self.nextValid = false ∧ t.self.saveCtx = false ∧
    (∀ th : ThreadId, t.self.threads[th.val] =
      if th = s.self.next then ⟨false, false, false, s.self.threads[th.val].mask, false⟩
      else s.self.threads[th.val]) ∧
    t.self.stall = { s.self.stall with cause := .normal } ∧ t.self.pipe = [] ∧
    (let a := t.self.priv[16].extractLsb' 16 16 &&& Config.pcMask;
     if a = 0 then
       t.self.halted = true ∧ t.self.haltCause = .panic ∧
       t.self.haltInfo = ⟨s.self.clk, ipc, .thread s.self.next⟩ ∧ t.self.pc = s.self.pc
     else
       t.self.halted = s.self.halted ∧ t.self.haltCause = s.self.haltCause ∧ t.self.haltInfo = s.self.haltInfo ∧
       t.self.pc = a) ∧
    t = { s with self :=
      { s.self with ctx := t.self.ctx, priv := t.self.priv, prev := t.self.prev, cur := t.self.cur,
                    nextValid := false, saveCtx := false, threads := t.self.threads, stall := t.self.stall,
                    pipe := [], pc := t.self.pc, halted := t.self.halted, haltCause := t.self.haltCause,
                    haltInfo := t.self.haltInfo } }

/-- R219, the round trip: a thread that left with its registers saved, and whose save area nothing has written
since, gets all 24 back when it is swapped in, whatever the other thread asks for. -/
def Obligations.ContextRoundTripRestoresRegisters : Prop :=
  ∀ (s t : State) (save : Bool) (ipc ipc' : CodeOff), s.self.ctx.wf = true → s.self.priv[0] = 0 →
    t.self.ctx.wf = true → t.self.priv[0] = 0 → t.self.cur ≠ s.self.cur → t.self.next = s.self.cur →
    (∀ k : Fin 24, t.ctxWord s.self.cur k.val = (s.doSwap true ipc).ctxWord s.self.cur k.val) →
    ∀ k : Fin 24, (t.doSwap save ipc').self.priv[k.val] = s.self.priv[k.val]

/-- R216 and R217: the lowest thread that the first pass accepts, else the lowest that the second accepts, else
none, replaces the choice before, in the ticks with `clk mod 16 = 0` only; and a parked processor then
swaps to it. The offset that a panic of this swap records is log entry 18 (DEDUCED). -/
def Obligations.SchedulerPicksTheFirstReadyThread : Prop :=
  ∀ s : State,
    (∀ t : ThreadId, chooseThread s.self.threads = some t ↔
      (s.self.UrgentReady t ∧ ∀ t', t' < t → ¬s.self.UrgentReady t') ∨
      ((∀ t', ¬s.self.UrgentReady t') ∧ s.self.NormalReady t ∧ ∀ t', t' < t → ¬s.self.NormalReady t')) ∧
    (chooseThread s.self.threads = none ↔ ∀ t, ¬s.self.UrgentReady t ∧ ¬s.self.NormalReady t) ∧
    (s.self.clk % 16 ≠ 0 → s.schedTick = s) ∧
    (s.self.clk % 16 = 0 → chooseThread s.self.threads = none →
      s.schedTick = { s with self := { s.self with nextValid := false, noCandidate := true } }) ∧
    (∀ t, s.self.clk % 16 = 0 → chooseThread s.self.threads = some t →
      let u : State := { s with self := { s.self with next := t, nextValid := true, noCandidate := false } }
      s.schedTick =
        if s.self.stall.cause = .noContext then u.doSwap s.self.saveCtx s.self.stall.resumePc else u)

/-! ## Accelerator units (R240 to R268) -/

/-- DMARD, DMAWR and DMAL with legal addresses and room: the operation is queued and nothing else happens (R246 to
R249, R241). The latency is a draw, here an OPEN function of a counter (log entry 2). -/
def Obligations.DmaInstructionsQueueTheirTransfer : Prop :=
  ∀ (i : Instr) (wake bp : Bool) (rs rc rb ri : Reg) (len : BitVec 10) (esz : BitVec 2) (op : DmaOp) (s : State),
    (i = .dmard wake bp rs rc len ∧
       op = ⟨.rd, s.reg rs, s.reg rc + (if bp then Config.bpoolBase else 0), len.toNat⟩ ∨
     i = .dmawr wake bp rs rc len ∧
       op = ⟨.wr, s.reg rs, s.reg rc + (if bp then Config.bpoolBase else 0), len.toNat⟩ ∨
     i = .dmal wake esz rs rb ri ∧
       op = ⟨.lk, s.reg rs, s.reg rb + s.reg ri * BitVec.ofNat 32 (4 * 2 ^ esz.toNat), 2 ^ esz.toNat⟩) →
    op.saddr.toNat % 4 = 0 → op.saddr.toNat + 4 * op.nwords ≤ 0xC000 →
    op.caddr.toNat % 4 = 0 → op.caddr.toNat + 4 * op.nwords ≤ 0x10000 →
    s.self.dma.entries.length < 7 →
    ∃ t, exec i s = .next t ∧ Sequenced s t ∧
      t = ({ s with draws := s.draws + 1, self := { s.self with
        dma := s.self.dma.push s.self.clk (Config.latency .dma s.draws) s.self.cur wake op } } :
        State).sequencedAs t

/-- HASH, CRC and CAM with legal operands and room: the result's ready bit is cleared, the operation is queued and
nothing else happens (R251, R254, R256). The latency is a draw, here an OPEN function of a counter (log
entry 2). -/
def Obligations.ResultUnitsClearReadyAndQueue : Prop :=
  ∀ (wake : Bool) (s : State),
    (∀ (kw : KeyWidth) (tbl : Fin 3) (slot : BitVec 2) (rk : Reg),
      (Instr.hash wake kw tbl slot rk).wellFormed = true → s.self.hash.entries.length < 4 →
      ∃ t, exec (.hash wake kw tbl slot rk) s = .next t ∧ Sequenced s t ∧
        (∀ (t' : Fin 3) (j : Fin 4), t.self.lkReady[t'.val][j.val] =
          if t' = tbl ∧ j.val = slot.toNat then false else s.self.lkReady[t'.val][j.val]) ∧
        ∃ op : HashOp, op.tbl = tbl ∧ op.slot.val = slot.toNat ∧ op.width = kw ∧
          op.key.toNat = ((s.reg rk).toNat * 2 ^ 32 + (s.reg (rk + 1)).toNat) %
            2 ^ (match kw with | .k48 => 48 | .k60 => 60) ∧
          t = ({ s with draws := s.draws + 1, self := { s.self with
            lkReady := t.self.lkReady
            hash := s.self.hash.push s.self.clk (Config.latency .hash s.draws) s.self.cur wake op } } :
            State).sequencedAs t) ∧
    (∀ (i : Instr) (slot prof tsz : BitVec 2) (ra rk rm : Reg) (n : BitVec 10) (k : Fin 4) (op : RammanOp),
      (i = .crc wake slot prof ra n ∧ op = .crc k prof (s.reg ra) n.toNat ∧
         (s.reg ra).toNat % 4 = 0 ∧ (s.reg ra).toNat + 4 * n.toNat ≤ 0xC000 ∨
       i = .cam wake slot tsz rk rm ∧ op = .cam k (s.reg rk) (s.reg rm) tsz) →
      k.val = slot.toNat → s.self.ramman.entries = [] →
      ∃ t, exec i s = .next t ∧ Sequenced s t ∧
        (∀ j : Fin 4, t.self.rmReady[j.val] = if j = k then false else s.self.rmReady[j.val]) ∧
        t = ({ s with draws := s.draws + 1, self := { s.self with
          rmReady := t.self.rmReady
          ramman := s.self.ramman.push s.self.clk (Config.latency .ramman s.draws) s.self.cur wake op } } :
          State).sequencedAs t)

/-- CNT, BBTX and BBMSG with legal operands and room: the operation is queued; BBTX with `inc` moves its address
register past the data; nothing else happens (R258, R260, R262). The latency is a draw, here an OPEN
function of a counter (log entry 2). -/
def Obligations.CounterAndBufferUnitsQueue : Prop :=
  ∀ (wake : Bool) (s : State),
    (∀ (dec w4 frz : Bool) (rc : Reg) (amt : BitVec 8),
      (s.reg rc).toNat % (if w4 then 4 else 2) = 0 → (s.reg rc).toNat + (if w4 then 4 else 2) ≤ 0x10000 →
      s.self.counter.entries.length < 4 →
      ∃ t, exec (.cnt wake dec w4 frz rc amt) s = .next t ∧ Sequenced s t ∧
        t = ({ s with draws := s.draws + 1, self := { s.self with
          counter := s.self.counter.push s.self.clk (Config.latency .counter s.draws) s.self.cur wake
            ⟨s.reg rc, dec, w4, frz, amt⟩ } } : State).sequencedAs t) ∧
    (∀ (last inc : Bool) (rs : Reg) (len : BitVec 10),
      (s.reg rs).toNat % 4 = 0 → (s.reg rs).toNat + len.toNat ≤ 0xC000 → s.self.bbtx.entries.length < 4 →
      ∃ t, exec (.bbtx wake last inc rs len) s = .next t ∧ Sequenced s t ∧
        (if inc then Writes rs (BitVec.ofNat 32 ((s.reg rs).toNat + len.toNat)) s t
         else t.self.priv = s.self.priv ∧ t.self.glob = s.self.glob) ∧
        t = ({ s with draws := s.draws + 1, self := { s.self with
          priv := t.self.priv
          glob := t.self.glob
          bbtx := s.self.bbtx.push s.self.clk (Config.latency .bbtx s.draws) s.self.cur wake
            ⟨s.reg rs, len.toNat, last⟩ } } : State).sequencedAs t) ∧
    (∀ (w64 : Bool) (mtype dest : BitVec 4) (rp : Reg),
      (Instr.bbmsg wake w64 mtype dest rp).wellFormed = true → s.self.bbmsg.entries.length < 4 →
      ∃ t, exec (.bbmsg wake w64 mtype dest rp) s = .next t ∧ Sequenced s t ∧
        t = ({ s with draws := s.draws + 1, self := { s.self with
          bbmsg := s.self.bbmsg.push s.self.clk (Config.latency .bbmsg s.draws) s.self.cur wake
            ⟨w64, mtype, dest, s.reg rp, if w64 then s.reg (rp + 1) else 0⟩ } } : State).sequencedAs t)

/-- CRYPTO appends one record of its chunk in its own tick, uses no queue, and changes nothing else (R264). -/
def Obligations.CryptoEmitsItsChunk : Prop :=
  ∀ (first last : Bool) (rs : Reg) (len : BitVec 10) (s : State),
    (s.reg rs).toNat % 4 = 0 → (s.reg rs).toNat + len.toNat ≤ 0xC000 →
    ∃ (t : State) (data : List Byte), exec (.crypto first last rs len) s = .next t ∧ Sequenced s t ∧
      SameMemory s t ∧ data.length = len.toNat ∧
      (∀ k, k < len.toNat → data.getD k 0 = s.readByte .sram ((s.reg rs).toNat + k)) ∧
      t = ({ s with self := { s.self with
        cryptoOut := s.self.cryptoOut ++ [⟨s.self.cur, first, last, data, len.toNat⟩] } } : State).sequencedAs t

/-- A captured address that is misaligned or whose range leaves its space halts the processor with
`FatalAccess(addr)`, full queue or not; for a DMA the SRAM address is examined first (R245, R246, R342 (d)). -/
def Obligations.BadAcceleratorAddressIsFatalAccess : Prop :=
  ∀ (s : State) (wake : Bool),
    let bad := fun (a : Word) (align bytes size : Nat) => a.toNat % align ≠ 0 ∨ size < a.toNat + bytes
    (∀ (i : Instr) (bp : Bool) (rs rc rb ri : Reg) (len : BitVec 10) (esz : BitVec 2) (ca : Word) (bytes : Nat),
      ((i = .dmard wake bp rs rc len ∨ i = .dmawr wake bp rs rc len) ∧
         ca = s.reg rc + (if bp then Config.bpoolBase else 0) ∧ bytes = 4 * len.toNat ∨
       i = .dmal wake esz rs rb ri ∧
         ca = s.reg rb + s.reg ri * BitVec.ofNat 32 (4 * 2 ^ esz.toNat) ∧ bytes = 4 * 2 ^ esz.toNat) →
      (bad (s.reg rs) 4 bytes 0xC000 → IsFatal i s .access (.address (s.reg rs))) ∧
      (¬bad (s.reg rs) 4 bytes 0xC000 → bad ca 4 bytes 0x10000 → IsFatal i s .access (.address ca))) ∧
    (∀ (slot prof : BitVec 2) (ra : Reg) (n : BitVec 10), bad (s.reg ra) 4 (4 * n.toNat) 0xC000 →
      IsFatal (.crc wake slot prof ra n) s .access (.address (s.reg ra))) ∧
    (∀ (dec w4 frz : Bool) (rc : Reg) (amt : BitVec 8),
      bad (s.reg rc) (if w4 then 4 else 2) (if w4 then 4 else 2) 0x10000 →
      IsFatal (.cnt wake dec w4 frz rc amt) s .access (.address (s.reg rc))) ∧
    (∀ (last inc : Bool) (rs : Reg) (len : BitVec 10), bad (s.reg rs) 4 len.toNat 0xC000 →
      IsFatal (.bbtx wake last inc rs len) s .access (.address (s.reg rs))) ∧
    (∀ (first last : Bool) (rs : Reg) (len : BitVec 10), bad (s.reg rs) 4 len.toNat 0xC000 →
      IsFatal (.crypto first last rs len) s .access (.address (s.reg rs)))

/-- An invocation whose operands are legal and whose unit is full stalls with the unit's cause and changes nothing
but the stall record (R105, R253, R265). The record stays when it already has this cause: R106 says "for
this same instruction", and that the cause alone is compared is log entry 14 (DEDUCED). -/
def Obligations.FullUnitStallsTheInvocation : Prop :=
  ∀ (s : State) (wake : Bool),
    let fits := fun (a : Word) (align bytes size : Nat) => a.toNat % align = 0 ∧ a.toNat + bytes ≤ size
    (s.self.dma.entries.length = 7 →
      ∀ (i : Instr) (bp : Bool) (rs rc rb ri : Reg) (len : BitVec 10) (esz : BitVec 2) (ca : Word) (bytes : Nat),
      ((i = .dmard wake bp rs rc len ∨ i = .dmawr wake bp rs rc len) ∧
         ca = s.reg rc + (if bp then Config.bpoolBase else 0) ∧ bytes = 4 * len.toNat ∨
       i = .dmal wake esz rs rb ri ∧
         ca = s.reg rb + s.reg ri * BitVec.ofNat 32 (4 * 2 ^ esz.toNat) ∧ bytes = 4 * 2 ^ esz.toNat) →
      fits (s.reg rs) 4 bytes 0xC000 → fits ca 4 bytes 0x10000 → IsStalled i s .dmaFull) ∧
    (s.self.ramman.entries.length = 1 →
      (∀ (slot prof : BitVec 2) (ra : Reg) (n : BitVec 10), fits (s.reg ra) 4 (4 * n.toNat) 0xC000 →
        IsStalled (.crc wake slot prof ra n) s .rammanBusy) ∧
      (∀ (slot tsz : BitVec 2) (rk rm : Reg), IsStalled (.cam wake slot tsz rk rm) s .rammanBusy)) ∧
    (s.self.hash.entries.length = 4 →
      ∀ (kw : KeyWidth) (tbl : Fin 3) (slot : BitVec 2) (rk : Reg),
        (Instr.hash wake kw tbl slot rk).wellFormed = true → IsStalled (.hash wake kw tbl slot rk) s .hashFull) ∧
    (s.self.counter.entries.length = 4 →
      ∀ (dec w4 frz : Bool) (rc : Reg) (amt : BitVec 8),
        fits (s.reg rc) (if w4 then 4 else 2) (if w4 then 4 else 2) 0x10000 →
        IsStalled (.cnt wake dec w4 frz rc amt) s .counterBusy) ∧
    (s.self.bbtx.entries.length = 4 →
      ∀ (last inc : Bool) (rs : Reg) (len : BitVec 10), fits (s.reg rs) 4 len.toNat 0xC000 →
        IsStalled (.bbtx wake last inc rs len) s .bbtxFull) ∧
    (s.self.bbmsg.entries.length = 4 →
      ∀ (w64 : Bool) (mtype dest : BitVec 4) (rp : Reg),
        (Instr.bbmsg wake w64 mtype dest rp).wellFormed = true →
        IsStalled (.bbmsg wake w64 mtype dest rp) s .bbmsgFull)

/-- R242: in the queue of any unit, whatever its payload, an entry is appended with its owner, its completion clock
the later of `clk + lat` and the largest one queued, the latency in the unit's window; `hwm` records the
occupancy. `Config.latency`, the draw as an OPEN function of a counter, is the model's (log entry 2). -/
def Obligations.EnqueueFloorsTheCompletionClock : Prop :=
  (∀ (u : Accel) (n : Nat), 1 ≤ Config.latMin u ∧ Config.latMin u ≤ Config.latency u n ∧
    Config.latency u n ≤ Config.latMax u) ∧
  (∀ (α : Type) (f : Fifo α) (clk lat : Nat) (owner : ThreadId) (wake : Bool) (op : α), ∃ comp far : Nat,
    f.push clk lat owner wake op = ⟨f.entries ++ [⟨comp, owner, wake, op⟩], max f.hwm (f.entries.length + 1)⟩ ∧
    comp = max (clk + lat) far ∧ (∀ e ∈ f.entries, e.comp ≤ far) ∧
    (if f.entries = [] then far = 0 else ∃ e ∈ f.entries, e.comp = far))

/-- R243: the accelerator tick completes due heads until none is due, each time the one with the least clock and,
among equal clocks, the first in the order DMA, RAMMAN, HASH, COUNTER, BBTX, BBMSG. -/
def Obligations.AcceleratorTickCompletesDueHeadsInOrder : Prop :=
  ∀ s : State,
    (∀ u : Accel, s.self.nextDue = some u ↔
      ∃ c, s.self.headComp u = some c ∧ c ≤ s.self.clk ∧
        ∀ u' c', s.self.headComp u' = some c' → c' ≤ s.self.clk →
          c < c' ∨ (c = c' ∧ Accel.inOrder.idxOf u ≤ Accel.inOrder.idxOf u')) ∧
    (s.self.nextDue = none ↔ ∀ u c, s.self.headComp u = some c → s.self.clk < c) ∧
    s.accTick = (match s.self.nextDue with
      | none => s
      | some u => (s.completeHead u).accTick) ∧
    s.accTick.self.nextDue = none

/-- R255, for every order and every profile, reflected or not: the register that the loop leaves, before the
reflection and the xor-out, is the remainder of the message by the generator `X^W + poly`, both over the
field of two elements; the message bits come in the order of the bytes, each from bit 7 down, or from bit
0 up with `reflect`, and `init` is added at the front. A result word takes the profile of its number
(R254, R257), and profile 0 gives the values that the spec states for it. -/
def Obligations.CrcIsThePolynomialRemainder : Prop :=
  (∀ (w : Nat) (p : Config.CrcParams w) (bytes : List Byte),
    let X : Polynomial (ZMod 2) := Polynomial.X
    let ofBits : List Bool → Polynomial (ZMod 2) := fun bits => bits.foldl (fun a b => a * X + if b then 1 else 0) 0
    let ofReg : BitVec w → Polynomial (ZMod 2) := fun v => ∑ i ∈ Finset.range w, if v.getLsbD i then X ^ i else 0
    let message := bytes.flatMap (fun b => (List.range 8).map (fun i => b.getLsbD (if p.reflect then i else 7 - i)))
    let reg := if p.reflect then (crc p bytes ^^^ p.xorout).reverse else crc p bytes ^^^ p.xorout
    ∃ q, ofBits message * X ^ w + ofReg p.init * X ^ (8 * bytes.length) = q * (X ^ w + ofReg p.poly) + ofReg reg) ∧
  (∀ bytes : List Byte,
    crcResult 0 bytes = crc ⟨0x04C11DB7, 0xFFFFFFFF, 0xFFFFFFFF, false⟩ bytes ∧
    crcResult 1 bytes = (crc Config.crc16 bytes).setWidth 32 ∧
    crcResult 2 bytes = (crc Config.crc10 bytes).setWidth 32 ∧
    crcResult 3 bytes = (crc Config.crc5 bytes).setWidth 32) ∧
  crcResult 0 [0x31, 0x32, 0x33, 0x34, 0x35, 0x36, 0x37, 0x38, 0x39] = 0xFC891918 ∧
  crcResult 0 [0x12, 0x34, 0x56, 0x78] = 0x207575D4 ∧
  crcResult 0 [0x00, 0x00, 0x00, 0x00] = 0x38FB2284 ∧
  crcResult 0 [] = 0

/-- A DMA completion copies the bytes as they are now between SRAM and common segment, and a counter completion
adds or subtracts, wrapping or frozen at the limit; each removes its entry and wakes its owner if asked
(R250, R259, R244). -/
def Obligations.MemoryCompletionsMoveAndCount : Prop :=
  (∀ (s : State) (e : Entry DmaOp) (rest : List (Entry DmaOp)), s.self.dma.entries = e :: rest →
    s.self.sram.wf = true → s.shared.common.wf = true →
    let t := s.completeHead .dma
    let n := 4 * e.payload.nwords
    let sa := e.payload.saddr.toNat
    let ca := e.payload.caddr.toNat
    t.self.dma = ⟨rest, s.self.dma.hwm⟩ ∧
    (e.payload.kind = .wr →
      t.self.sram = s.self.sram ∧
      ∀ a, t.readByte .common a =
        if ca ≤ a ∧ a < ca + n then s.readByte .sram (sa + (a - ca)) else s.readByte .common a) ∧
    (e.payload.kind ≠ .wr →
      t.shared = s.shared ∧
      ∀ a, t.readByte .sram a =
        if sa ≤ a ∧ a < sa + n then s.readByte .common (ca + (a - sa)) else s.readByte .sram a) ∧
    (∀ th : ThreadId, t.self.threads[th.val] =
      if e.wake = true ∧ th = e.owner then { s.self.threads[th.val] with sync := true }
      else s.self.threads[th.val]) ∧
    t = { s with shared := { s.shared with common := t.shared.common },
                 self := { s.self with dma := t.self.dma, sram := t.self.sram, threads := t.self.threads } }) ∧
  (∀ (s : State) (e : Entry CounterOp) (rest : List (Entry CounterOp)), s.self.counter.entries = e :: rest →
    s.shared.common.wf = true →
    let t := s.completeHead .counter
    let b := if e.payload.w4 then 4 else 2
    let a := e.payload.caddr.toNat
    let v := (s.bytesWord .common a b).toNat
    let L := 2 ^ (8 * b) - 1
    let n := if e.payload.dec = false then
        (if v + e.payload.amt.toNat ≤ L then v + e.payload.amt.toNat
         else if e.payload.frz then L else v + e.payload.amt.toNat - 2 ^ (8 * b))
      else
        (if e.payload.amt.toNat ≤ v then v - e.payload.amt.toNat
         else if e.payload.frz then 0 else v + 2 ^ (8 * b) - e.payload.amt.toNat)
    t.self.counter = ⟨rest, s.self.counter.hwm⟩ ∧
    Stores .common a (storedBytes b (BitVec.ofNat 32 n)) s t ∧
    (∀ th : ThreadId, t.self.threads[th.val] =
      if e.wake = true ∧ th = e.owner then { s.self.threads[th.val] with sync := true }
      else s.self.threads[th.val]) ∧
    t = { s with shared := { s.shared with common := t.shared.common },
                 self := { s.self with counter := t.self.counter, threads := t.self.threads } })

/-- Completions that write the IO register file and the output ports: hash and CRC/CAM write their result register
and set its ready bit, buffer-message writes `MSG[0..2]` and a record, buffer-transmit a record of the
bytes as they are now; each removes its entry and wakes its owner if asked (R252, R257, R261, R263,
R244). -/
def Obligations.ResultCompletionsWriteTheirRegisters : Prop :=
  (∀ (s : State) (e : Entry HashOp) (rest : List (Entry HashOp)), s.self.hash.entries = e :: rest →
    let v := Config.hashFn e.payload.tbl e.payload.width e.payload.key s.shared.common s.shared.ddr s.shared.psram
    s.completeHead .hash = (({ s with self := { s.self with
      hash := ⟨rest, s.self.hash.hwm⟩
      ioStore := s.self.ioStore.set (32 + 4 * e.payload.tbl.val + e.payload.slot.val) v
        (lkupIndex e.payload.tbl e.payload.slot).isLt
      lkReady := s.self.lkReady.set e.payload.tbl.val
        (s.self.lkReady[e.payload.tbl.val].set e.payload.slot.val true) } } : State).wakeOwner e.wake e.owner)) ∧
  (∀ (s : State) (e : Entry RammanOp) (rest : List (Entry RammanOp)), s.self.ramman.entries = e :: rest →
    let v := match e.payload with
      | .crc _ prof saddr nwords => crcResult prof (s.self.sram.readBytes saddr.toNat (4 * nwords))
      | .cam _ key kmask tsz => Config.camFn key kmask tsz s.shared.common s.shared.ddr s.shared.psram
    s.completeHead .ramman = (({ s with self := { s.self with
      ramman := ⟨rest, s.self.ramman.hwm⟩
      ioStore := s.self.ioStore.set (48 + e.payload.slot.val) v (rammanIndex e.payload.slot).isLt
      rmReady := s.self.rmReady.set e.payload.slot.val true } } : State).wakeOwner e.wake e.owner)) ∧
  (∀ (s : State) (e : Entry BbtxOp) (rest : List (Entry BbtxOp)), s.self.bbtx.entries = e :: rest →
    s.completeHead .bbtx = (({ s with self := { s.self with
      bbtx := ⟨rest, s.self.bbtx.hwm⟩
      txOut := s.self.txOut ++ [⟨e.owner, s.self.sram.readBytes e.payload.saddr.toNat e.payload.len, e.payload.len,
        e.payload.last⟩] } } : State).wakeOwner e.wake e.owner)) ∧
  (∀ (s : State) (e : Entry BbmsgOp) (rest : List (Entry BbmsgOp)), s.self.bbmsg.entries = e :: rest →
    let m := e.payload
    let head := BitVec.ofNat 32 ((if m.w64 then 1 else 0) * 2 ^ 8 + m.mtype.toNat * 2 ^ 4 + m.dest.toNat)
    s.completeHead .bbmsg = (({ s with self := { s.self with
      bbmsg := ⟨rest, s.self.bbmsg.hwm⟩
      ioStore := ((s.self.ioStore.set 17 head).set 18 m.p0).set 19 m.p1
      msgOut := s.self.msgOut ++ [⟨e.owner, m.mtype, m.dest, m.w64, m.p0, m.p1⟩] } } : State).wakeOwner e.wake
      e.owner)) ∧
  (∀ (s : State) (wake : Bool) (owner : ThreadId),
    s.wakeOwner wake owner = { s with self := { s.self with threads := (s.wakeOwner wake owner).self.threads } } ∧
    ∀ th : ThreadId, (s.wakeOwner wake owner).self.threads[th.val] =
      if wake = true ∧ th = owner then { s.self.threads[th.val] with sync := true } else s.self.threads[th.val])
end

