-- ==== Sys2Proof/Laws/Fields.lean ====
section
/-! SUPPORT. The laws of the bitfield decoder `fld`, `flag` and of the field writer `put`, `putFlag` (R61): what
the decoder reads from a word built by or-ing fields. They are what a proof about `decodeWord (encode i)`
needs. -/

namespace Sys2Proof

-- One theorem after another: the whole package is compiled as one text, and a thread for each would not fit.
set_option Elab.async false

@[simp] theorem fld_or (a b : Word) (s e : Nat) (h : s < e ∧ e ≤ 32) :
    fld (a ||| b) s e h = fld a s e h ||| fld b s e h := by
  ext i hi; simp [fld]

@[simp] theorem flag_or (a b : Word) (s : Nat) (h : s < 32) :
    flag (a ||| b) s h = (flag a s h || flag b s h) := by simp [flag]

/-- A field reads back as it was written. -/
@[simp] theorem fld_put_self (s e : Nat) (v : BitVec (e - s)) (h : s < e ∧ e ≤ 32) :
    fld (put s e v h) s e h = v := by
  ext i hi
  have h1 : 32 - e + i < 32 := by omega
  have h2 : ¬ (32 - e + i < 32 - e) := by omega
  have h3 : 32 - e + i - (32 - e) = i := by omega
  simp [fld, put, h1, h2, h3, BitVec.getLsbD_eq_getElem hi]

/-- A field inside a written field is a slice of it. -/
theorem fld_put_inside (s e : Nat) (v : BitVec (e - s)) (h : s < e ∧ e ≤ 32) (s' e' : Nat) (h' : s' < e' ∧ e' ≤ 32)
    (inside : s ≤ s' ∧ e' ≤ e) : fld (put s e v h) s' e' h' = v.extractLsb' (e - e') (e' - s') := by
  ext i hi
  have h1 : 32 - e' + i < 32 := by omega
  have h2 : ¬ (32 - e' + i < 32 - e) := by omega
  have h3 : 32 - e' + i - (32 - e) = e - e' + i := by omega
  simp [fld, put, h1, h2, h3]

/-- A field disjoint from the written one reads 0. -/
theorem fld_put_other (s e : Nat) (v : BitVec (e - s)) (h : s < e ∧ e ≤ 32) (s' e' : Nat) (h' : s' < e' ∧ e' ≤ 32)
    (apart : e ≤ s' ∨ e' ≤ s) : fld (put s e v h) s' e' h' = 0 := by
  ext i hi
  have key : 32 - e' + i < 32 - e ∨ e - s ≤ 32 - e' + i - (32 - e) := by omega
  rcases key with k | k
  · simp [fld, put, k]
  · simp [fld, put, BitVec.getLsbD_of_ge v _ k]

theorem fld_putFlag_other (s : Nat) (b : Bool) (h : s < 32) (s' e' : Nat) (h' : s' < e' ∧ e' ≤ 32)
    (apart : s < s' ∨ e' ≤ s) : fld (putFlag s b h) s' e' h' = 0 := by
  ext i hi
  have key : 32 - e' + i < 31 - s ∨ 1 ≤ 32 - e' + i - (31 - s) := by omega
  rcases key with k | k
  · simp [fld, putFlag, k]
  · have : ¬ (32 - e' + i - (31 - s) = 0) := by omega
    simp [fld, putFlag, BitVec.getLsbD_ofBool, this]

@[simp] theorem flag_putFlag_self (s : Nat) (b : Bool) (h : s < 32) : flag (putFlag s b h) s h = b := by
  simp [flag, putFlag]; omega

theorem flag_putFlag_other (s : Nat) (b : Bool) (h : s < 32) (s' : Nat) (h' : s' < 32) (apart : s ≠ s') :
    flag (putFlag s b h) s' h' = false := by
  have key : 31 - s' < 31 - s ∨ 1 ≤ 31 - s' - (31 - s) := by omega
  rcases key with k | k
  · simp [flag, putFlag, k]
  · have : ¬ (31 - s' - (31 - s) = 0) := by omega
    simp [flag, putFlag, BitVec.getLsbD_ofBool, this]

theorem flag_put_other (s e : Nat) (v : BitVec (e - s)) (h : s < e ∧ e ≤ 32) (s' : Nat) (h' : s' < 32)
    (apart : e ≤ s' ∨ s' < s) : flag (put s e v h) s' h' = false := by
  have key : 31 - s' < 32 - e ∨ e - s ≤ 31 - s' - (32 - e) := by omega
  rcases key with k | k
  · simp [flag, put, k]
  · simp [flag, put, BitVec.getLsbD_of_ge v _ k]

/-- A one-bit field inside a written field is one of its bits. -/
theorem flag_put_inside (s e : Nat) (v : BitVec (e - s)) (h : s < e ∧ e ≤ 32) (s' : Nat) (h' : s' < 32)
    (inside : s ≤ s' ∧ s' < e) : flag (put s e v h) s' h' = v.getLsbD (e - 1 - s') := by
  have h1 : 31 - s' < 32 := by omega
  have h2 : ¬ (31 - s' < 32 - e) := by omega
  have h3 : 31 - s' - (32 - e) = e - 1 - s' := by omega
  simp [flag, put, h1, h2, h3]

/-! The sub-field codes read back. -/

@[simp] theorem sizeOfBits_bits (z : Size) : sizeOfBits z.bits = z := by cases z <;> rfl
@[simp] theorem cmpOfBits_bits (c : Cmp) : cmpOfBits c.bits = c := by cases c <;> rfl
@[simp] theorem condOfBits_bits (c : Cond) : condOfBits c.bits = .ok c := by cases c <;> rfl
@[simp] theorem halfOfBits_bits (c : Half) : halfOfBits c.bits = .ok c := by cases c <;> rfl
@[simp] theorem keyWidthOfBit_bit (k : KeyWidth) : keyWidthOfBit k.bit = k := by cases k <;> rfl
@[simp] theorem delayOfBits_three (d : Fin 3) : delayOfBits (bitsOfThree d) = .ok d := by
  revert d; decide
@[simp] theorem tableOfBits_three (d : Fin 3) : tableOfBits (bitsOfThree d) = .ok d := by
  revert d; decide

/-- The four bytes of a word join to the word. -/
@[simp] theorem joinBytes_wordBytes (w : Word) :
    joinBytes (fld w 0 8) (fld w 8 16) (fld w 16 24) (fld w 24 32) = w := by
  apply BitVec.eq_of_getLsbD_eq
  intro i hi
  simp only [joinBytes, BitVec.getLsbD_append]
  rcases (by omega : i < 8 ∨ (8 ≤ i ∧ i < 16) ∨ (16 ≤ i ∧ i < 24) ∨ 24 ≤ i) with k | k | k | k
  · simp [fld, k]
  · have a : ¬ i < 8 := by omega
    have b : i - 8 < 8 := by omega
    have c : 8 + (i - 8) = i := by omega
    simp [fld, a, b, c]
  · have a : ¬ i < 8 := by omega
    have a' : ¬ i - 8 < 8 := by omega
    have b : i - 8 - 8 < 8 := by omega
    have c : 16 + (i - 8 - 8) = i := by omega
    simp [fld, a, a', b, c]
  · have a : ¬ i < 8 := by omega
    have a' : ¬ i - 8 < 8 := by omega
    have a'' : ¬ i - 8 - 8 < 8 := by omega
    have b : i - 8 - 8 - 8 < 8 := by omega
    have c : 24 + (i - 8 - 8 - 8) = i := by omega
    simp [fld, a, a', a'', b, c]

end Sys2Proof
end

