-- ==== Sys2Proof/Laws/Memory.lean ====
section
/-! SUPPORT. The laws of byte memory: every write keeps the canonical form, a read after a write at the same
address gives the byte written, and a write leaves every other address alone. -/

namespace Sys2Proof.Machine

-- One theorem after another: the whole package is compiled as one text, and a thread for each would not fit.
set_option Elab.async false

theorem Mem.wfFrom_mono {lo lo' : Nat} {m : Mem} (le : lo' ≤ lo) (h : m.wfFrom lo = true) :
    m.wfFrom lo' = true := by
  cases m with
  | nil => rfl
  | cons c rest =>
    obtain ⟨a, v⟩ := c
    simp only [Mem.wfFrom, Bool.and_eq_true, decide_eq_true_eq] at h ⊢
    exact ⟨⟨by omega, h.1.2⟩, h.2⟩

/-- A memory listed from `lo` upward reads `unlisted` below it. -/
theorem Mem.read_below {lo a : Nat} {m : Mem} (h : m.wfFrom lo = true) (below : a < lo) :
    m.read a = unlisted := by
  cases m with
  | nil => rfl
  | cons c rest =>
    obtain ⟨b, v⟩ := c
    simp only [Mem.wfFrom, Bool.and_eq_true, decide_eq_true_eq] at h
    have : a < b := by omega
    simp [Mem.read, this]

theorem Mem.write_wfFrom {lo : Nat} {m : Mem} {a : Nat} {v : Byte} (h : m.wfFrom lo = true) (le : lo ≤ a) :
    (m.write a v).wfFrom lo = true := by
  induction m generalizing lo with
  | nil =>
    by_cases hv : v = unlisted <;> simp [Mem.write, Mem.wfFrom, hv, le]
  | cons c rest ih =>
    obtain ⟨b, w⟩ := c
    simp only [Mem.wfFrom, Bool.and_eq_true, decide_eq_true_eq] at h
    obtain ⟨⟨hb, hw⟩, hr⟩ := h
    by_cases h1 : a < b
    · by_cases hv : v = unlisted
      · simp [Mem.write, h1, hv, Mem.wfFrom, hb, hw, hr]
      · have : a + 1 ≤ b := h1
        simp [Mem.write, h1, hv, Mem.wfFrom, le, this, hw, hr]
    · by_cases h2 : a = b
      · subst h2
        by_cases hv : v = unlisted
        · simp [Mem.write, hv, Mem.wfFrom_mono (by omega : lo ≤ a + 1) hr]
        · simp [Mem.write, hv, Mem.wfFrom, hb, hr]
      · have hle : b + 1 ≤ a := by omega
        simp [Mem.write, h1, h2, Mem.wfFrom, hb, hw, ih hr hle]

/-- A write keeps the canonical form. -/
theorem Mem.write_wf {m : Mem} (a : Nat) (v : Byte) (h : m.wf = true) : (m.write a v).wf = true :=
  Mem.write_wfFrom h (Nat.zero_le a)

theorem Mem.read_write_self_from {lo : Nat} {m : Mem} {a : Nat} {v : Byte} (h : m.wfFrom lo = true) :
    (m.write a v).read a = v := by
  induction m generalizing lo with
  | nil => by_cases hv : v = unlisted <;> simp [Mem.write, Mem.read, hv]
  | cons c rest ih =>
    obtain ⟨b, w⟩ := c
    simp only [Mem.wfFrom, Bool.and_eq_true, decide_eq_true_eq] at h
    by_cases h1 : a < b
    · by_cases hv : v = unlisted <;> simp [Mem.write, Mem.read, h1, hv]
    · by_cases h2 : a = b
      · subst h2
        by_cases hv : v = unlisted
        · simp [Mem.write, hv, Mem.read_below h.2 (Nat.lt_succ_self a)]
        · simp [Mem.write, Mem.read, hv]
      · simp [Mem.write, Mem.read, h1, h2, ih h.2]

/-- A byte reads back as it was written. -/
theorem Mem.read_write_self {m : Mem} (a : Nat) (v : Byte) (h : m.wf = true) : (m.write a v).read a = v :=
  Mem.read_write_self_from h

theorem Mem.read_write_other_from {lo : Nat} {m : Mem} {a a' : Nat} {v : Byte} (h : m.wfFrom lo = true)
    (ne : a' ≠ a) : (m.write a v).read a' = m.read a' := by
  induction m generalizing lo with
  | nil =>
    by_cases hv : v = unlisted
    · simp [Mem.write, hv]
    · by_cases hlt : a' < a <;> simp [Mem.write, Mem.read, hv, hlt, ne]
  | cons c rest ih =>
    obtain ⟨b, w⟩ := c
    simp only [Mem.wfFrom, Bool.and_eq_true, decide_eq_true_eq] at h
    by_cases h1 : a < b
    · by_cases hv : v = unlisted
      · simp [Mem.write, h1, hv]
      · by_cases hlt : a' < a
        · have : a' < b := by omega
          simp [Mem.write, Mem.read, h1, hv, hlt, this]
        · simp [Mem.write, Mem.read, h1, hv, hlt, ne]
    · by_cases h2 : a = b
      · subst h2
        by_cases hv : v = unlisted
        · by_cases hlt : a' < a
          · simp [Mem.write, Mem.read, hv, hlt, Mem.read_below h.2 (by omega : a' < a + 1)]
          · simp [Mem.write, Mem.read, hv, hlt, ne]
        · simp [Mem.write, Mem.read, hv, ne]
      · simp [Mem.write, Mem.read, h1, h2, ih h.2]

/-- A write leaves every other address alone. -/
theorem Mem.read_write_other {m : Mem} {a a' : Nat} (v : Byte) (h : m.wf = true) (ne : a' ≠ a) :
    (m.write a v).read a' = m.read a' :=
  Mem.read_write_other_from h ne

/-- Storing a string of bytes keeps the canonical form. -/
theorem Mem.writeBytes_wf {m : Mem} (a : Nat) (bs : List Byte) (h : m.wf = true) :
    (m.writeBytes a bs).wf = true := by
  induction bs generalizing m a with
  | nil => exact h
  | cons b bs ih => exact ih (a + 1) (Mem.write_wf a b h)

/-- Storing a string of bytes leaves every address outside it alone. -/
theorem Mem.read_writeBytes_other {m : Mem} {a a' : Nat} (bs : List Byte) (h : m.wf = true)
    (out : a' < a ∨ a + bs.length ≤ a') : (m.writeBytes a bs).read a' = m.read a' := by
  induction bs generalizing m a with
  | nil => rfl
  | cons b bs ih =>
    simp only [List.length_cons] at out
    rw [Mem.writeBytes, ih (Mem.write_wf a b h) (by omega), Mem.read_write_other b h (by omega)]

/-- A string of bytes reads back as it was stored. -/
theorem Mem.read_writeBytes_inside {m : Mem} (a : Nat) (bs : List Byte) (h : m.wf = true) (k : Nat)
    (hk : k < bs.length) : (m.writeBytes a bs).read (a + k) = bs[k] := by
  induction bs generalizing m a k with
  | nil => simp at hk
  | cons b bs ih =>
    cases k with
    | zero =>
      rw [Mem.writeBytes, Mem.read_writeBytes_other bs (Mem.write_wf a b h) (by omega)]
      exact Mem.read_write_self a b h
    | succ k =>
      have := ih (a + 1) (Mem.write_wf a b h) k (by simpa using hk)
      rw [Mem.writeBytes, show a + (k + 1) = a + 1 + k by omega, this]
      rfl

@[simp] theorem wordBytes_length (w : Word) : (wordBytes w).length = 4 := rfl

theorem Mem.write32_wf {m : Mem} (a : Nat) (v : Word) (h : m.wf = true) : (m.write32 a v).wf = true :=
  Mem.writeBytes_wf a _ h

theorem Mem.write16_wf {m : Mem} (a : Nat) (v : BitVec 16) (h : m.wf = true) : (m.write16 a v).wf = true :=
  Mem.writeBytes_wf a _ h

/-- A word reads back as it was stored. -/
theorem Mem.read32_write32_self {m : Mem} (a : Nat) (v : Word) (h : m.wf = true) :
    (m.write32 a v).read32 a = v := by
  have r := fun k hk => Mem.read_writeBytes_inside a (wordBytes v) h k hk
  have r0 := r 0 (by simp)
  have r1 := r 1 (by simp)
  have r2 := r 2 (by simp)
  have r3 := r 3 (by simp)
  simp only [Mem.write32, Mem.read32]
  rw [Nat.add_zero] at r0
  rw [r0, r1, r2, r3]
  exact joinBytes_wordBytes v

theorem Mem.read_write32_other {m : Mem} {a a' : Nat} (v : Word) (h : m.wf = true)
    (out : a' < a ∨ a + 4 ≤ a') : (m.write32 a v).read a' = m.read a' :=
  Mem.read_writeBytes_other (wordBytes v) h (by simpa using out)

theorem Mem.listed_wfFrom (a : Nat) (bs : List Byte) : (Mem.listed a bs).wfFrom a = true := by
  induction bs generalizing a with
  | nil => rfl
  | cons b bs ih =>
    by_cases hb : b = unlisted
    · simp [Mem.listed, hb, Mem.wfFrom_mono (Nat.le_succ a) (ih (a + 1))]
    · simp [Mem.listed, hb, Mem.wfFrom, ih (a + 1)]

/-- A loaded image is in canonical form. -/
theorem Mem.ofImage_wf (size : Nat) (image : List Byte) : (Mem.ofImage size image).wf = true :=
  Mem.listed_wfFrom 0 _

theorem Mem.read_listed (a k : Nat) (bs : List Byte) (hk : k < bs.length) :
    (Mem.listed a bs).read (a + k) = bs[k] := by
  induction bs generalizing a k with
  | nil => simp at hk
  | cons b bs ih =>
    cases k with
    | zero =>
      by_cases hb : b = unlisted
      · simp [Mem.listed, hb, Mem.read_below (Mem.listed_wfFrom (a + 1) bs) (Nat.lt_succ_self a)]
      · simp [Mem.listed, hb, Mem.read]
    | succ k =>
      have step := ih (a + 1) k (by simpa using hk)
      rw [show a + 1 + k = a + (k + 1) by omega] at step
      by_cases hb : b = unlisted
      · simpa [Mem.listed, hb] using step
      · have h1 : ¬ a + (k + 1) < a := by omega
        simpa [Mem.listed, hb, Mem.read, h1] using step

end Sys2Proof.Machine
end

