-- ==== Sys2Proof/Laws/State.lean ====
section
/-! SUPPORT. One lemma for each field and each update of the machine's state: no later proof unfolds a record
update. -/

namespace Sys2Proof.Machine

-- One theorem after another: the whole package is compiled as one text, and a thread for each would not fit.
set_option Elab.async false

/-! ### `Proc.setIo`: one word of the IO register file -/

section
variable (p : Proc) (i : IoIndex) (v : Word)

@[simp] theorem Proc.setIo_priv : (p.setIo i v).priv = p.priv := rfl
@[simp] theorem Proc.setIo_glob : (p.setIo i v).glob = p.glob := rfl
@[simp] theorem Proc.setIo_ctx : (p.setIo i v).ctx = p.ctx := rfl
@[simp] theorem Proc.setIo_pc : (p.setIo i v).pc = p.pc := rfl
@[simp] theorem Proc.setIo_flags : (p.setIo i v).flags = p.flags := rfl
@[simp] theorem Proc.setIo_cs : (p.setIo i v).cs = p.cs := rfl
@[simp] theorem Proc.setIo_csDepth : (p.setIo i v).csDepth = p.csDepth := rfl
@[simp] theorem Proc.setIo_pipe : (p.setIo i v).pipe = p.pipe := rfl
@[simp] theorem Proc.setIo_threads : (p.setIo i v).threads = p.threads := rfl
@[simp] theorem Proc.setIo_prev : (p.setIo i v).prev = p.prev := rfl
@[simp] theorem Proc.setIo_cur : (p.setIo i v).cur = p.cur := rfl
@[simp] theorem Proc.setIo_next : (p.setIo i v).next = p.next := rfl
@[simp] theorem Proc.setIo_nextValid : (p.setIo i v).nextValid = p.nextValid := rfl
@[simp] theorem Proc.setIo_saveCtx : (p.setIo i v).saveCtx = p.saveCtx := rfl
@[simp] theorem Proc.setIo_noCandidate : (p.setIo i v).noCandidate = p.noCandidate := rfl
@[simp] theorem Proc.setIo_stall : (p.setIo i v).stall = p.stall := rfl
@[simp] theorem Proc.setIo_dma : (p.setIo i v).dma = p.dma := rfl
@[simp] theorem Proc.setIo_ramman : (p.setIo i v).ramman = p.ramman := rfl
@[simp] theorem Proc.setIo_hash : (p.setIo i v).hash = p.hash := rfl
@[simp] theorem Proc.setIo_counter : (p.setIo i v).counter = p.counter := rfl
@[simp] theorem Proc.setIo_bbtx : (p.setIo i v).bbtx = p.bbtx := rfl
@[simp] theorem Proc.setIo_bbmsg : (p.setIo i v).bbmsg = p.bbmsg := rfl
@[simp] theorem Proc.setIo_lkReady : (p.setIo i v).lkReady = p.lkReady := rfl
@[simp] theorem Proc.setIo_rmReady : (p.setIo i v).rmReady = p.rmReady := rfl
@[simp] theorem Proc.setIo_timer : (p.setIo i v).timer = p.timer := rfl
@[simp] theorem Proc.setIo_tpause : (p.setIo i v).tpause = p.tpause := rfl
@[simp] theorem Proc.setIo_tchain : (p.setIo i v).tchain = p.tchain := rfl
@[simp] theorem Proc.setIo_halted : (p.setIo i v).halted = p.halted := rfl
@[simp] theorem Proc.setIo_haltCause : (p.setIo i v).haltCause = p.haltCause := rfl
@[simp] theorem Proc.setIo_haltInfo : (p.setIo i v).haltInfo = p.haltInfo := rfl
@[simp] theorem Proc.setIo_clk : (p.setIo i v).clk = p.clk := rfl
@[simp] theorem Proc.setIo_code : (p.setIo i v).code = p.code := rfl
@[simp] theorem Proc.setIo_sram : (p.setIo i v).sram = p.sram := rfl
@[simp] theorem Proc.setIo_txOut : (p.setIo i v).txOut = p.txOut := rfl
@[simp] theorem Proc.setIo_msgOut : (p.setIo i v).msgOut = p.msgOut := rfl
@[simp] theorem Proc.setIo_cryptoOut : (p.setIo i v).cryptoOut = p.cryptoOut := rfl
@[simp] theorem Proc.setIo_ioStore : (p.setIo i v).ioStore = p.ioStore.set i.val v := rfl

end

/-! ### `Proc.onThread`: the scheduler bits of one thread -/

section
variable (p : Proc) (t : ThreadId) (f : ThreadBits → ThreadBits)

@[simp] theorem Proc.onThread_priv : (p.onThread t f).priv = p.priv := rfl
@[simp] theorem Proc.onThread_glob : (p.onThread t f).glob = p.glob := rfl
@[simp] theorem Proc.onThread_ctx : (p.onThread t f).ctx = p.ctx := rfl
@[simp] theorem Proc.onThread_pc : (p.onThread t f).pc = p.pc := rfl
@[simp] theorem Proc.onThread_flags : (p.onThread t f).flags = p.flags := rfl
@[simp] theorem Proc.onThread_cs : (p.onThread t f).cs = p.cs := rfl
@[simp] theorem Proc.onThread_csDepth : (p.onThread t f).csDepth = p.csDepth := rfl
@[simp] theorem Proc.onThread_pipe : (p.onThread t f).pipe = p.pipe := rfl
@[simp] theorem Proc.onThread_prev : (p.onThread t f).prev = p.prev := rfl
@[simp] theorem Proc.onThread_cur : (p.onThread t f).cur = p.cur := rfl
@[simp] theorem Proc.onThread_next : (p.onThread t f).next = p.next := rfl
@[simp] theorem Proc.onThread_nextValid : (p.onThread t f).nextValid = p.nextValid := rfl
@[simp] theorem Proc.onThread_saveCtx : (p.onThread t f).saveCtx = p.saveCtx := rfl
@[simp] theorem Proc.onThread_noCandidate : (p.onThread t f).noCandidate = p.noCandidate := rfl
@[simp] theorem Proc.onThread_stall : (p.onThread t f).stall = p.stall := rfl
@[simp] theorem Proc.onThread_dma : (p.onThread t f).dma = p.dma := rfl
@[simp] theorem Proc.onThread_ramman : (p.onThread t f).ramman = p.ramman := rfl
@[simp] theorem Proc.onThread_hash : (p.onThread t f).hash = p.hash := rfl
@[simp] theorem Proc.onThread_counter : (p.onThread t f).counter = p.counter := rfl
@[simp] theorem Proc.onThread_bbtx : (p.onThread t f).bbtx = p.bbtx := rfl
@[simp] theorem Proc.onThread_bbmsg : (p.onThread t f).bbmsg = p.bbmsg := rfl
@[simp] theorem Proc.onThread_lkReady : (p.onThread t f).lkReady = p.lkReady := rfl
@[simp] theorem Proc.onThread_rmReady : (p.onThread t f).rmReady = p.rmReady := rfl
@[simp] theorem Proc.onThread_timer : (p.onThread t f).timer = p.timer := rfl
@[simp] theorem Proc.onThread_tpause : (p.onThread t f).tpause = p.tpause := rfl
@[simp] theorem Proc.onThread_tchain : (p.onThread t f).tchain = p.tchain := rfl
@[simp] theorem Proc.onThread_ioStore : (p.onThread t f).ioStore = p.ioStore := rfl
@[simp] theorem Proc.onThread_halted : (p.onThread t f).halted = p.halted := rfl
@[simp] theorem Proc.onThread_haltCause : (p.onThread t f).haltCause = p.haltCause := rfl
@[simp] theorem Proc.onThread_haltInfo : (p.onThread t f).haltInfo = p.haltInfo := rfl
@[simp] theorem Proc.onThread_clk : (p.onThread t f).clk = p.clk := rfl
@[simp] theorem Proc.onThread_code : (p.onThread t f).code = p.code := rfl
@[simp] theorem Proc.onThread_sram : (p.onThread t f).sram = p.sram := rfl
@[simp] theorem Proc.onThread_txOut : (p.onThread t f).txOut = p.txOut := rfl
@[simp] theorem Proc.onThread_msgOut : (p.onThread t f).msgOut = p.msgOut := rfl
@[simp] theorem Proc.onThread_cryptoOut : (p.onThread t f).cryptoOut = p.cryptoOut := rfl
@[simp] theorem Proc.onThread_threads : (p.onThread t f).threads = p.threads.set t.val (f p.threads[t.val]) := rfl

end

/-! ### `Proc.setReg`: the private and global registers alone -/

section
variable (p : Proc) (r : Reg) (v : Word)

/-- A register write replaces at most the two register arrays. -/
theorem Proc.setReg_eq : p.setReg r v = { p with priv := (p.setReg r v).priv, glob := (p.setReg r v).glob } := by
  unfold Proc.setReg
  split
  · rfl
  · split <;> rfl

@[simp] theorem Proc.setReg_ctx : (p.setReg r v).ctx = p.ctx := by rw [Proc.setReg_eq]
@[simp] theorem Proc.setReg_pc : (p.setReg r v).pc = p.pc := by rw [Proc.setReg_eq]
@[simp] theorem Proc.setReg_flags : (p.setReg r v).flags = p.flags := by rw [Proc.setReg_eq]
@[simp] theorem Proc.setReg_cs : (p.setReg r v).cs = p.cs := by rw [Proc.setReg_eq]
@[simp] theorem Proc.setReg_csDepth : (p.setReg r v).csDepth = p.csDepth := by rw [Proc.setReg_eq]
@[simp] theorem Proc.setReg_pipe : (p.setReg r v).pipe = p.pipe := by rw [Proc.setReg_eq]
@[simp] theorem Proc.setReg_threads : (p.setReg r v).threads = p.threads := by rw [Proc.setReg_eq]
@[simp] theorem Proc.setReg_prev : (p.setReg r v).prev = p.prev := by rw [Proc.setReg_eq]
@[simp] theorem Proc.setReg_cur : (p.setReg r v).cur = p.cur := by rw [Proc.setReg_eq]
@[simp] theorem Proc.setReg_next : (p.setReg r v).next = p.next := by rw [Proc.setReg_eq]
@[simp] theorem Proc.setReg_nextValid : (p.setReg r v).nextValid = p.nextValid := by rw [Proc.setReg_eq]
@[simp] theorem Proc.setReg_saveCtx : (p.setReg r v).saveCtx = p.saveCtx := by rw [Proc.setReg_eq]
@[simp] theorem Proc.setReg_noCandidate : (p.setReg r v).noCandidate = p.noCandidate := by rw [Proc.setReg_eq]
@[simp] theorem Proc.setReg_stall : (p.setReg r v).stall = p.stall := by rw [Proc.setReg_eq]
@[simp] theorem Proc.setReg_dma : (p.setReg r v).dma = p.dma := by rw [Proc.setReg_eq]
@[simp] theorem Proc.setReg_ramman : (p.setReg r v).ramman = p.ramman := by rw [Proc.setReg_eq]
@[simp] theorem Proc.setReg_hash : (p.setReg r v).hash = p.hash := by rw [Proc.setReg_eq]
@[simp] theorem Proc.setReg_counter : (p.setReg r v).counter = p.counter := by rw [Proc.setReg_eq]
@[simp] theorem Proc.setReg_bbtx : (p.setReg r v).bbtx = p.bbtx := by rw [Proc.setReg_eq]
@[simp] theorem Proc.setReg_bbmsg : (p.setReg r v).bbmsg = p.bbmsg := by rw [Proc.setReg_eq]
@[simp] theorem Proc.setReg_lkReady : (p.setReg r v).lkReady = p.lkReady := by rw [Proc.setReg_eq]
@[simp] theorem Proc.setReg_rmReady : (p.setReg r v).rmReady = p.rmReady := by rw [Proc.setReg_eq]
@[simp] theorem Proc.setReg_timer : (p.setReg r v).timer = p.timer := by rw [Proc.setReg_eq]
@[simp] theorem Proc.setReg_tpause : (p.setReg r v).tpause = p.tpause := by rw [Proc.setReg_eq]
@[simp] theorem Proc.setReg_tchain : (p.setReg r v).tchain = p.tchain := by rw [Proc.setReg_eq]
@[simp] theorem Proc.setReg_ioStore : (p.setReg r v).ioStore = p.ioStore := by rw [Proc.setReg_eq]
@[simp] theorem Proc.setReg_halted : (p.setReg r v).halted = p.halted := by rw [Proc.setReg_eq]
@[simp] theorem Proc.setReg_haltCause : (p.setReg r v).haltCause = p.haltCause := by rw [Proc.setReg_eq]
@[simp] theorem Proc.setReg_haltInfo : (p.setReg r v).haltInfo = p.haltInfo := by rw [Proc.setReg_eq]
@[simp] theorem Proc.setReg_clk : (p.setReg r v).clk = p.clk := by rw [Proc.setReg_eq]
@[simp] theorem Proc.setReg_code : (p.setReg r v).code = p.code := by rw [Proc.setReg_eq]
@[simp] theorem Proc.setReg_sram : (p.setReg r v).sram = p.sram := by rw [Proc.setReg_eq]
@[simp] theorem Proc.setReg_txOut : (p.setReg r v).txOut = p.txOut := by rw [Proc.setReg_eq]
@[simp] theorem Proc.setReg_msgOut : (p.setReg r v).msgOut = p.msgOut := by rw [Proc.setReg_eq]
@[simp] theorem Proc.setReg_cryptoOut : (p.setReg r v).cryptoOut = p.cryptoOut := by rw [Proc.setReg_eq]

end

/-! ### `State.setReg`: a general register -/

section
variable (s : State) (r : Reg) (v : Word)

@[simp] theorem State.setReg_me : (s.setReg r v).me = s.me := rfl
@[simp] theorem State.setReg_self : (s.setReg r v).self = s.self.setReg r v := rfl
@[simp] theorem State.setReg_peer : (s.setReg r v).peer = s.peer := rfl
@[simp] theorem State.setReg_shared : (s.setReg r v).shared = s.shared := rfl
@[simp] theorem State.setReg_ticks : (s.setReg r v).ticks = s.ticks := rfl
@[simp] theorem State.setReg_draws : (s.setReg r v).draws = s.draws := rfl

end

/-! ### `State.setPc`: the program counter -/

section
variable (s : State) (a : CodeOff)

@[simp] theorem State.setPc_me : (s.setPc a).me = s.me := rfl
@[simp] theorem State.setPc_self : (s.setPc a).self = { s.self with pc := maskPc a } := rfl
@[simp] theorem State.setPc_peer : (s.setPc a).peer = s.peer := rfl
@[simp] theorem State.setPc_shared : (s.setPc a).shared = s.shared := rfl
@[simp] theorem State.setPc_ticks : (s.setPc a).ticks = s.ticks := rfl
@[simp] theorem State.setPc_draws : (s.setPc a).draws = s.draws := rfl

end

/-! ### `State.setSram`: the private SRAM -/

section
variable (s : State) (m : Mem)

@[simp] theorem State.setSram_me : (s.setSram m).me = s.me := rfl
@[simp] theorem State.setSram_self : (s.setSram m).self = { s.self with sram := m } := rfl
@[simp] theorem State.setSram_peer : (s.setSram m).peer = s.peer := rfl
@[simp] theorem State.setSram_shared : (s.setSram m).shared = s.shared := rfl
@[simp] theorem State.setSram_ticks : (s.setSram m).ticks = s.ticks := rfl
@[simp] theorem State.setSram_draws : (s.setSram m).draws = s.draws := rfl

end

/-! ### `State.setCommon`: the common segment -/

section
variable (s : State) (m : Mem)

@[simp] theorem State.setCommon_me : (s.setCommon m).me = s.me := rfl
@[simp] theorem State.setCommon_self : (s.setCommon m).self = s.self := rfl
@[simp] theorem State.setCommon_peer : (s.setCommon m).peer = s.peer := rfl
@[simp] theorem State.setCommon_shared : (s.setCommon m).shared = { s.shared with common := m } := rfl
@[simp] theorem State.setCommon_ticks : (s.setCommon m).ticks = s.ticks := rfl
@[simp] theorem State.setCommon_draws : (s.setCommon m).draws = s.draws := rfl

end

/-! ### `State.halt`: the halt state -/

section
variable (s : State) (c : HaltCause) (a : CodeOff) (i : HaltInfo)

@[simp] theorem State.halt_me : (s.halt c a i).me = s.me := rfl
@[simp] theorem State.halt_self : (s.halt c a i).self =
    { s.self with halted := true, haltCause := c, haltInfo := ⟨s.self.clk, a, i⟩ } := rfl
@[simp] theorem State.halt_peer : (s.halt c a i).peer = s.peer := rfl
@[simp] theorem State.halt_shared : (s.halt c a i).shared = s.shared := rfl
@[simp] theorem State.halt_ticks : (s.halt c a i).ticks = s.ticks := rfl
@[simp] theorem State.halt_draws : (s.halt c a i).draws = s.draws := rfl

end

/-! ### `State.endStall`: the cause of the stall -/

section
variable (s : State) 

@[simp] theorem State.endStall_me : (s.endStall).me = s.me := rfl
@[simp] theorem State.endStall_self : (s.endStall).self =
    { s.self with stall := { s.self.stall with cause := .normal } } := rfl
@[simp] theorem State.endStall_peer : (s.endStall).peer = s.peer := rfl
@[simp] theorem State.endStall_shared : (s.endStall).shared = s.shared := rfl
@[simp] theorem State.endStall_ticks : (s.endStall).ticks = s.ticks := rfl
@[simp] theorem State.endStall_draws : (s.endStall).draws = s.draws := rfl

end

/-! ### `State.takeBranch`: delay-slot buffer and program counter -/

section
variable (s : State) (a t : CodeOff) (n : Nat)

@[simp] theorem State.takeBranch_me : (s.takeBranch a t n).me = s.me := rfl
@[simp] theorem State.takeBranch_self : (s.takeBranch a t n).self =
    { s.self with pipe := s.self.capture a n, pc := maskPc t } := rfl
@[simp] theorem State.takeBranch_peer : (s.takeBranch a t n).peer = s.peer := rfl
@[simp] theorem State.takeBranch_shared : (s.takeBranch a t n).shared = s.shared := rfl
@[simp] theorem State.takeBranch_ticks : (s.takeBranch a t n).ticks = s.ticks := rfl
@[simp] theorem State.takeBranch_draws : (s.takeBranch a t n).draws = s.draws := rfl

end

/-! ### `State.writeback`: a register and the flags -/

section
variable (s : State) (rd : Reg) (X : Int) (c f : Bool)

@[simp] theorem State.writeback_me : (s.writeback rd X c f).me = s.me := rfl
@[simp] theorem State.writeback_self : (s.writeback rd X c f).self =
    { s.self.setReg rd (wrap X) with flags := aluFlags s.self.flags f X c } := rfl
@[simp] theorem State.writeback_peer : (s.writeback rd X c f).peer = s.peer := rfl
@[simp] theorem State.writeback_shared : (s.writeback rd X c f).shared = s.shared := rfl
@[simp] theorem State.writeback_ticks : (s.writeback rd X c f).ticks = s.ticks := rfl
@[simp] theorem State.writeback_draws : (s.writeback rd X c f).draws = s.draws := rfl

end

/-! ### `State.setSem`: one semaphore -/

section
variable (s : State) (i : Fin Config.nSem) (m : Semaphore)

@[simp] theorem State.setSem_me : (s.setSem i m).me = s.me := rfl
@[simp] theorem State.setSem_self : (s.setSem i m).self = s.self := rfl
@[simp] theorem State.setSem_peer : (s.setSem i m).peer = s.peer := rfl
@[simp] theorem State.setSem_shared : (s.setSem i m).shared = { s.shared with sem := s.shared.sem.set i.val m } := rfl
@[simp] theorem State.setSem_ticks : (s.setSem i m).ticks = s.ticks := rfl
@[simp] theorem State.setSem_draws : (s.setSem i m).draws = s.draws := rfl

end

/-! ### `State.storeMasked`: a storage register -/

section
variable (s : State) (i : IoIndex) (v m : Word)

@[simp] theorem State.storeMasked_me : (s.storeMasked i v m).me = s.me := rfl
@[simp] theorem State.storeMasked_self : (s.storeMasked i v m).self =
    s.self.setIo i (masked s.self.ioStore[i.val] v m) := rfl
@[simp] theorem State.storeMasked_peer : (s.storeMasked i v m).peer = s.peer := rfl
@[simp] theorem State.storeMasked_shared : (s.storeMasked i v m).shared = s.shared := rfl
@[simp] theorem State.storeMasked_ticks : (s.storeMasked i v m).ticks = s.ticks := rfl
@[simp] theorem State.storeMasked_draws : (s.storeMasked i v m).draws = s.draws := rfl

end

/-! ### `State.enqueueDma`: a queue and the draw counter -/

section
variable (s : State) (w : Bool) (op : DmaOp)

@[simp] theorem State.enqueueDma_me : (s.enqueueDma w op).me = s.me := rfl
@[simp] theorem State.enqueueDma_self : (s.enqueueDma w op).self =
    { s.self with dma := s.self.dma.push s.self.clk (Config.latency .dma s.draws) s.self.cur w op } := rfl
@[simp] theorem State.enqueueDma_peer : (s.enqueueDma w op).peer = s.peer := rfl
@[simp] theorem State.enqueueDma_shared : (s.enqueueDma w op).shared = s.shared := rfl
@[simp] theorem State.enqueueDma_ticks : (s.enqueueDma w op).ticks = s.ticks := rfl
@[simp] theorem State.enqueueDma_draws : (s.enqueueDma w op).draws = s.draws + 1 := rfl

end

/-! ### `State.enqueueCounter`: a queue and the draw counter -/

section
variable (s : State) (w : Bool) (op : CounterOp)

@[simp] theorem State.enqueueCounter_me : (s.enqueueCounter w op).me = s.me := rfl
@[simp] theorem State.enqueueCounter_self : (s.enqueueCounter w op).self =
    { s.self with counter := s.self.counter.push s.self.clk (Config.latency .counter s.draws) s.self.cur w op } := rfl
@[simp] theorem State.enqueueCounter_peer : (s.enqueueCounter w op).peer = s.peer := rfl
@[simp] theorem State.enqueueCounter_shared : (s.enqueueCounter w op).shared = s.shared := rfl
@[simp] theorem State.enqueueCounter_ticks : (s.enqueueCounter w op).ticks = s.ticks := rfl
@[simp] theorem State.enqueueCounter_draws : (s.enqueueCounter w op).draws = s.draws + 1 := rfl

end

/-! ### `State.enqueueBbtx`: a queue and the draw counter -/

section
variable (s : State) (w : Bool) (op : BbtxOp)

@[simp] theorem State.enqueueBbtx_me : (s.enqueueBbtx w op).me = s.me := rfl
@[simp] theorem State.enqueueBbtx_self : (s.enqueueBbtx w op).self =
    { s.self with bbtx := s.self.bbtx.push s.self.clk (Config.latency .bbtx s.draws) s.self.cur w op } := rfl
@[simp] theorem State.enqueueBbtx_peer : (s.enqueueBbtx w op).peer = s.peer := rfl
@[simp] theorem State.enqueueBbtx_shared : (s.enqueueBbtx w op).shared = s.shared := rfl
@[simp] theorem State.enqueueBbtx_ticks : (s.enqueueBbtx w op).ticks = s.ticks := rfl
@[simp] theorem State.enqueueBbtx_draws : (s.enqueueBbtx w op).draws = s.draws + 1 := rfl

end

/-! ### `State.enqueueBbmsg`: a queue and the draw counter -/

section
variable (s : State) (w : Bool) (op : BbmsgOp)

@[simp] theorem State.enqueueBbmsg_me : (s.enqueueBbmsg w op).me = s.me := rfl
@[simp] theorem State.enqueueBbmsg_self : (s.enqueueBbmsg w op).self =
    { s.self with bbmsg := s.self.bbmsg.push s.self.clk (Config.latency .bbmsg s.draws) s.self.cur w op } := rfl
@[simp] theorem State.enqueueBbmsg_peer : (s.enqueueBbmsg w op).peer = s.peer := rfl
@[simp] theorem State.enqueueBbmsg_shared : (s.enqueueBbmsg w op).shared = s.shared := rfl
@[simp] theorem State.enqueueBbmsg_ticks : (s.enqueueBbmsg w op).ticks = s.ticks := rfl
@[simp] theorem State.enqueueBbmsg_draws : (s.enqueueBbmsg w op).draws = s.draws + 1 := rfl

end

/-! ### `State.enqueueRamman`: a queue, a ready bit and the draw counter -/

section
variable (s : State) (w : Bool) (op : RammanOp)

@[simp] theorem State.enqueueRamman_me : (s.enqueueRamman w op).me = s.me := rfl
@[simp] theorem State.enqueueRamman_self : (s.enqueueRamman w op).self =
    { s.self with 
      rmReady := s.self.rmReady.set op.slot.val false
      ramman := s.self.ramman.push s.self.clk (Config.latency .ramman s.draws) s.self.cur w op } := rfl
@[simp] theorem State.enqueueRamman_peer : (s.enqueueRamman w op).peer = s.peer := rfl
@[simp] theorem State.enqueueRamman_shared : (s.enqueueRamman w op).shared = s.shared := rfl
@[simp] theorem State.enqueueRamman_ticks : (s.enqueueRamman w op).ticks = s.ticks := rfl
@[simp] theorem State.enqueueRamman_draws : (s.enqueueRamman w op).draws = s.draws + 1 := rfl

end

/-! ### `State.enqueueHash`: a queue, a ready bit and the draw counter -/

section
variable (s : State) (w : Bool) (op : HashOp)

@[simp] theorem State.enqueueHash_me : (s.enqueueHash w op).me = s.me := rfl
@[simp] theorem State.enqueueHash_self : (s.enqueueHash w op).self =
    { s.self with 
      lkReady := s.self.lkReady.set op.tbl.val (s.self.lkReady[op.tbl.val].set op.slot.val false)
      hash := s.self.hash.push s.self.clk (Config.latency .hash s.draws) s.self.cur w op } := rfl
@[simp] theorem State.enqueueHash_peer : (s.enqueueHash w op).peer = s.peer := rfl
@[simp] theorem State.enqueueHash_shared : (s.enqueueHash w op).shared = s.shared := rfl
@[simp] theorem State.enqueueHash_ticks : (s.enqueueHash w op).ticks = s.ticks := rfl
@[simp] theorem State.enqueueHash_draws : (s.enqueueHash w op).draws = s.draws + 1 := rfl

end

/-! ### `State.park`: the save flag and the stall record -/

section
variable (s : State) (w : Bool)

@[simp] theorem State.park_me : (s.park w).me = s.me := rfl
@[simp] theorem State.park_self : (s.park w).self =
    { s.self with saveCtx := w, stall := ⟨.noContext, s.self.clk, s.self.pc, Option.none⟩ } := rfl
@[simp] theorem State.park_peer : (s.park w).peer = s.peer := rfl
@[simp] theorem State.park_shared : (s.park w).shared = s.shared := rfl
@[simp] theorem State.park_ticks : (s.park w).ticks = s.ticks := rfl
@[simp] theorem State.park_draws : (s.park w).draws = s.draws := rfl

end

/-! ### `State.clockTick`: the clock -/

section
variable (s : State) 

@[simp] theorem State.clockTick_me : (s.clockTick).me = s.me := rfl
@[simp] theorem State.clockTick_self : (s.clockTick).self = { s.self with clk := s.self.clk + 1 } := rfl
@[simp] theorem State.clockTick_peer : (s.clockTick).peer = s.peer := rfl
@[simp] theorem State.clockTick_shared : (s.clockTick).shared = s.shared := rfl
@[simp] theorem State.clockTick_ticks : (s.clockTick).ticks = s.ticks := rfl
@[simp] theorem State.clockTick_draws : (s.clockTick).draws = s.draws := rfl

end

/-! ### `State.timerTick`: the timers -/

section
variable (s : State) 

@[simp] theorem State.timerTick_me : (s.timerTick).me = s.me := rfl
@[simp] theorem State.timerTick_peer : (s.timerTick).peer = s.peer := rfl
@[simp] theorem State.timerTick_shared : (s.timerTick).shared = s.shared := rfl
@[simp] theorem State.timerTick_ticks : (s.timerTick).ticks = s.ticks := rfl
@[simp] theorem State.timerTick_draws : (s.timerTick).draws = s.draws := rfl

end

/-! ### `State.passTurn`: whose tick is next -/

section
variable (s : State) 

@[simp] theorem State.passTurn_me : (s.passTurn).me = s.me.other := rfl
@[simp] theorem State.passTurn_self : (s.passTurn).self = s.peer := rfl
@[simp] theorem State.passTurn_peer : (s.passTurn).peer = s.self := rfl
@[simp] theorem State.passTurn_shared : (s.passTurn).shared = s.shared := rfl
@[simp] theorem State.passTurn_ticks : (s.passTurn).ticks = s.ticks := rfl
@[simp] theorem State.passTurn_draws : (s.passTurn).draws = s.draws := rfl

end

/-- The timer tick changes the timers alone. -/
theorem State.timerTick_eq (s : State) :
    s.timerTick = { s with self := { s.self with timer := s.timerTick.self.timer } } := rfl

/-- What the ticking processor reads of each space. -/
@[simp] theorem State.mem_code (s : State) : s.mem .code = s.self.code := rfl
@[simp] theorem State.mem_sram (s : State) : s.mem .sram = s.self.sram := rfl
@[simp] theorem State.mem_ctx (s : State) : s.mem .ctx = s.self.ctx := rfl
@[simp] theorem State.mem_common (s : State) : s.mem .common = s.shared.common := rfl
@[simp] theorem State.mem_ddr (s : State) : s.mem .ddr = s.shared.ddr := rfl
@[simp] theorem State.mem_psram (s : State) : s.mem .psram = s.shared.psram := rfl

end Sys2Proof.Machine
end

