-- ==== Sys2Proof/Laws/Ops.lean ====
section
/-! SUPPORT. For each shared operation of the machine what it does, once: registers, bookkeeping, branches, loads
and stores, queues. Later proofs cite these and do not unfold the operations. -/

namespace Sys2Proof.Machine

-- One theorem after another: the whole package is compiled as one text, and a thread for each would not fit.
set_option Elab.async false

/-! ## General registers (R11, R12) -/

@[simp] theorem Proc.reg_zero (p : Proc) : p.reg 0#5 = 0#32 := rfl

theorem Proc.reg_of_lt (p : Proc) {r : Reg} (ne : r ≠ 0) (h : r.toNat < 24) : p.reg r = p.priv[r.toNat] := by
  unfold Proc.reg
  rw [if_neg ne, dif_pos h]

theorem Proc.reg_of_ge (p : Proc) {r : Reg} (ne : r ≠ 0) (h : ¬r.toNat < 24) :
    p.reg r = p.glob[r.toNat - 24]'(globalIndex_lt r) := by
  unfold Proc.reg
  rw [if_neg ne, dif_neg h]

theorem Proc.setReg_of_lt (p : Proc) {r : Reg} (v : Word) (ne : r ≠ 0) (h : r.toNat < 24) :
    p.setReg r v = { p with priv := p.priv.set r.toNat v } := by
  unfold Proc.setReg
  rw [if_neg ne, dif_pos h]

theorem Proc.setReg_of_ge (p : Proc) {r : Reg} (v : Word) (ne : r ≠ 0) (h : ¬r.toNat < 24) :
    p.setReg r v = { p with glob := p.glob.set (r.toNat - 24) v (globalIndex_lt r) } := by
  unfold Proc.setReg
  rw [if_neg ne, dif_neg h]

/-- A register write and a read of any register. -/
theorem Proc.reg_setReg (p : Proc) (rd r : Reg) (v : Word) :
    (p.setReg rd v).reg r = if r = rd ∧ rd ≠ 0 then v else p.reg r := by
  have ext : ∀ {a b : Reg}, a.toNat = b.toNat → a = b := fun h => BitVec.eq_of_toNat_eq h
  by_cases zd : rd = 0
  · subst zd
    rw [if_neg (fun h => h.2 rfl)]
    rfl
  by_cases zr : r = 0
  · subst zr
    rw [if_neg (fun h => zd h.1.symm)]
    rfl
  by_cases hd : rd.toNat < 24 <;> by_cases hr : r.toNat < 24
  · rw [Proc.setReg_of_lt p v zd hd, Proc.reg_of_lt _ zr hr, Proc.reg_of_lt _ zr hr, Vector.getElem_set]
    by_cases e : r = rd
    · rw [if_pos (by rw [e]), if_pos ⟨e, zd⟩]
    · rw [if_neg (fun h => e (ext h.symm)), if_neg (fun h => e h.1)]
  · have e : r ≠ rd := fun h => hr (h ▸ hd)
    rw [Proc.setReg_of_lt p v zd hd, Proc.reg_of_ge _ zr hr, Proc.reg_of_ge _ zr hr, if_neg (fun h => e h.1)]
  · have e : r ≠ rd := fun h => hd (h ▸ hr)
    rw [Proc.setReg_of_ge p v zd hd, Proc.reg_of_lt _ zr hr, Proc.reg_of_lt _ zr hr, if_neg (fun h => e h.1)]
  · rw [Proc.setReg_of_ge p v zd hd, Proc.reg_of_ge _ zr hr, Proc.reg_of_ge _ zr hr, Vector.getElem_set]
    by_cases e : r = rd
    · rw [if_pos (by rw [e]), if_pos ⟨e, zd⟩]
    · rw [if_neg (fun h => e (ext (by omega))), if_neg (fun h => e h.1)]

@[simp] theorem Proc.setReg_zero (p : Proc) (v : Word) : p.setReg 0#5 v = p := rfl

/-- A read of a register depends on the two register arrays alone. -/
theorem Proc.reg_congr {p q : Proc} (hp : p.priv = q.priv) (hg : p.glob = q.glob) (r : Reg) : p.reg r = q.reg r := by
  simp [Proc.reg, hp, hg]

/-- `P[0]` is never written. -/
@[simp] theorem Proc.setReg_priv_zero (p : Proc) (r : Reg) (v : Word) : (p.setReg r v).priv[0] = p.priv[0] := by
  unfold Proc.setReg
  split
  · rfl
  · rename_i ne
    have : r.toNat ≠ 0 := fun h => ne (BitVec.eq_of_toNat_eq h)
    split
    · simp [this]
    · rfl

/-- A register write through the state is `x[rd] <- v` (R12). -/
theorem State.writes_setReg (s : State) (rd : Reg) (v : Word) : Writes rd v s (s.setReg rd v) :=
  fun r => Proc.reg_setReg s.self rd r v

/-- Two register writes are the pair write of a 64-bit load (R50). -/
theorem State.writesPair_setReg (s : State) (rd : Reg) (v0 v1 : Word) :
    WritesPair rd v0 v1 s ((s.setReg rd v0).setReg (rd + 1) v1) := by
  intro r
  have h : ((s.setReg rd v0).setReg (rd + 1) v1).reg r =
      if r = rd + 1 ∧ rd + 1 ≠ 0 then v1 else if r = rd ∧ rd ≠ 0 then v0 else s.reg r := by
    have inner : (s.self.setReg rd v0).reg r = if r = rd ∧ rd ≠ 0 then v0 else s.reg r :=
      Proc.reg_setReg s.self rd r v0
    rw [← inner]
    exact Proc.reg_setReg (s.self.setReg rd v0) (rd + 1) r v1
  rw [h]
  by_cases z : r = 0
  · rw [if_pos z, if_neg (fun h => h.2 (h.1 ▸ z)), if_neg (fun h => h.2 (h.1 ▸ z)), z]
    rfl
  · rw [if_neg z]
    by_cases e1 : r = rd + 1
    · rw [if_pos ⟨e1, e1 ▸ z⟩, if_pos e1]
    · rw [if_neg (fun h => e1 h.1), if_neg e1]
      by_cases e : r = rd
      · rw [if_pos ⟨e, e ▸ z⟩, if_pos e]
      · rw [if_neg (fun h => e h.1), if_neg e]

/-! ## The bookkeeping of R104 -/

/-- What `retire` does, whichever place the instruction came from. -/
theorem State.retire_eq (s : State) : s.retire = { s with self :=
    { s.self with
      stall := { s.self.stall with cause := .normal }
      pipe := s.self.pipe.tail
      pc := if s.self.pipe = [] then (s.self.pc + 4) &&& Config.pcMask else s.self.pc } } := by
  unfold State.retire
  split <;> rename_i h <;> simp [State.endStall, State.setPc, maskPc, h]

theorem State.retire_sequencedAs (s : State) : s.retire = s.sequencedAs s.retire := by
  simp [State.retire_eq, State.sequencedAs]

/-- An instruction whose rule left the place it came from and the stall record alone is sequenced (R104 (a)). -/
theorem State.sequenced_retire {s u : State} (hpc : u.self.pc = s.self.pc) (hpipe : u.self.pipe = s.self.pipe)
    (hstall : u.self.stall = s.self.stall) : Sequenced s u.retire := by
  rw [State.retire_eq]
  unfold Sequenced
  refine ⟨by simp [hstall], ?_⟩
  split <;> rename_i h <;> simp [hpc, hpipe, h]

/-- The bookkeeping touches no byte of memory. -/
theorem State.readByte_retire (s : State) (sp : Space) (a : Nat) : s.retire.readByte sp a = s.readByte sp a := by
  rw [State.retire_eq]
  cases sp <;> rfl

theorem State.reg_retire (s : State) (r : Reg) : s.retire.reg r = s.reg r := by
  rw [State.retire_eq]
  rfl

@[simp] theorem complete_done (t s : State) : complete (.done t) s = .next t.retire := rfl
@[simp] theorem complete_stalled (c : StallCause) (s : State) : complete (.stalled c) s = .next (s.recordStall c) := rfl
@[simp] theorem complete_fatal (k : HaltCause) (info : HaltInfo) (s : State) :
    complete (.fatal k info) s = .next (s.halt k s.ipc info) := rfl

/-- An instruction whose rule does no more than write a register (R104 (a)). -/
theorem givesRegister_of_setReg {i : Instr} {s : State} {rd : Reg} {v : Word}
    (h : exec i s = complete (.done (s.setReg rd v)) s) : GivesRegister i s rd v := by
  refine ⟨(s.setReg rd v).retire, by rw [h]; rfl, ?_, ?_, ?_, ?_⟩
  · intro r
    rw [State.reg_retire]
    exact State.writes_setReg s rd v r
  · exact State.sequenced_retire (by simp) (by simp) (by simp)
  · unfold OnlyRegisters
    rw [State.retire_eq]
    simp [State.sequencedAs]
  · intro sp a
    rw [State.readByte_retire]
    cases sp <;> simp [State.readByte]

/-- `writeback` as R128 says it. -/
theorem givesAluResult_of_writeback {i : Instr} {s : State} {rd : Reg} {X : Int} {c f : Bool} {carry : Prop}
    (hc : c = true ↔ carry) (h : exec i s = complete (.done (s.writeback rd X c f)) s) :
    GivesAluResult i s rd X carry f := by
  refine ⟨(s.writeback rd X c f).retire, by rw [h]; rfl, ?_, ?_, ?_, ?_, ?_⟩
  · intro r
    rw [State.reg_retire]
    exact State.writes_setReg s rd _ r
  · rw [State.retire_eq]
    cases f <;> simp [aluFlags, wrap, writeOverflows, Overflows, hc]
  · exact State.sequenced_retire (by simp) (by simp) (by simp)
  · unfold OnlyRegistersAndFlags
    rw [State.retire_eq]
    simp [State.sequencedAs]
  · intro sp a
    rw [State.readByte_retire]
    cases sp <;> simp [State.readByte]

/-- Stall entry in the words of R106. -/
theorem State.recordStall_eq (s : State) (c : StallCause) : s.recordStall c =
    if s.self.stall.cause = c then s
    else { s with self :=
      { s.self with stall := ⟨c, s.self.clk, s.ipc, (s.self.pipe[1]?).map (fun e => e.ipc)⟩ } } := by
  unfold State.recordStall Proc.dsPc
  rcases s.self.pipe with _ | ⟨e, _ | ⟨e', rest⟩⟩ <;> rfl

theorem isStalled_of_complete {i : Instr} {s : State} {c : StallCause}
    (h : exec i s = complete (.stalled c) s) : IsStalled i s c := by
  unfold IsStalled
  rw [h, complete_stalled, State.recordStall_eq]

theorem isFatal_of_complete {i : Instr} {s : State} {k : HaltCause} {info : HaltInfo}
    (h : exec i s = complete (.fatal k info) s) : IsFatal i s k info := h

/-! ## Control transfers (R181, R182, R190) -/

theorem State.fromPipe_eq_false {s : State} (h : s.self.pipe = []) : s.fromPipe = false := by
  simp [State.fromPipe, h]

theorem State.fromPipe_eq_true {s : State} (h : s.self.pipe ≠ []) : s.fromPipe = true := by
  unfold State.fromPipe
  split <;> simp_all

theorem State.ipc_of_nil {s : State} (h : s.self.pipe = []) : s.ipc = s.self.pc := by
  simp [State.ipc, h]

/-- A control transfer fetched at `pc` runs. -/
theorem control_of_nil {s : State} (h : s.self.pipe = []) (run : State) : control s run = .next run := by
  simp [control, State.fromPipe_eq_false h]

/-- One from the delay-slot buffer is a fatal decode (R190). -/
theorem control_of_ne_nil {s : State} (h : s.self.pipe ≠ []) (run : State) :
    control s run = .next (s.halt .decode s.ipc (.word s.word)) := by
  simp [control, State.fromPipe_eq_true h]

/-- The shape of every branch, in the words of R181 and R182. -/
theorem State.branch_eq {s : State} (h : s.self.pipe = []) (taken : Bool) (target : CodeOff) (ds : DelayCount) :
    s.branch taken target ds = s.branched taken target ds.val := by
  cases taken <;>
    simp [State.branch, State.branched, State.takeBranch, State.setPc, State.endStall, State.ipc, h, maskPc,
      Proc.capture, State.delaySlots, Proc.codeRead]

/-- A branch to a relative target, in the words of R183, R187 and R188. -/
theorem relTarget_eq {k : Nat} (ipc : CodeOff) (off : BitVec k) :
    relTarget ipc off = BitVec.ofInt 16 (ipc.toNat + 4 * off.toInt) := by
  rw [BitVec.ofInt_add]
  simp [relTarget]

/-! ## Loads and stores (R47 to R50, R161, R162) -/

/-- The accesses that the machine makes are the big-endian numbers of R49. -/
theorem State.bytesWord_one (s : State) (sp : Space) (a : Nat) :
    s.bytesWord sp a 1 = ((s.mem sp).read a).setWidth 32 := by
  simp [State.bytesWord, State.readByte, List.range_succ]

theorem State.bytesWord_two (s : State) (sp : Space) (a : Nat) :
    s.bytesWord sp a 2 = ((s.mem sp).read16 a).setWidth 32 := by
  simp only [State.bytesWord, State.readByte, Mem.read16, List.range_succ, List.range_zero, List.nil_append,
    List.foldl_append, List.foldl_cons, List.foldl_nil, Nat.add_zero]
  ext k hk
  simp only [BitVec.getElem_or, BitVec.getElem_shiftLeft, BitVec.getElem_setWidth, BitVec.getLsbD_append]
  grind

theorem State.bytesWord_four (s : State) (sp : Space) (a : Nat) :
    s.bytesWord sp a 4 = (s.mem sp).read32 a := by
  simp only [State.bytesWord, State.readByte, Mem.read32, joinBytes, List.range_succ, List.range_zero,
    List.nil_append, List.foldl_append, List.foldl_cons, List.foldl_nil, Nat.add_zero]
  ext k hk
  simp only [BitVec.getElem_or, BitVec.getElem_shiftLeft, BitVec.getElem_setWidth]
  grind

/-- A load, in the words of R163: the registers it writes hold the bytes at its address. -/
theorem State.loads_loadFrom (s : State) (sp : Space) (a : Nat) (size : Size) (rd : Reg) :
    Loads size rd sp a s (s.loadFrom (s.mem sp) a size rd) := by
  cases size <;> simp only [Loads, State.loadFrom, State.bytesWord_one, State.bytesWord_two, State.bytesWord_four]
  · exact State.writes_setReg s rd _
  · exact State.writes_setReg s rd _
  · exact State.writes_setReg s rd _
  · exact State.writesPair_setReg s rd _ _

/-- A load changes general registers alone. -/
theorem State.loadFrom_eq (s : State) (m : Mem) (a : Nat) (size : Size) (rd : Reg) :
    s.loadFrom m a size rd = { s with self :=
      { s.self with priv := (s.loadFrom m a size rd).self.priv, glob := (s.loadFrom m a size rd).self.glob } } := by
  have one : ∀ v, s.setReg rd v = { s with self :=
      { s.self with priv := (s.setReg rd v).self.priv, glob := (s.setReg rd v).self.glob } } := fun v =>
    congrArg (fun p => ({ s with self := p } : State)) (Proc.setReg_eq s.self rd v)
  cases size
  · exact one _
  · exact one _
  · exact one _
  · have two := Proc.setReg_eq (s.self.setReg rd (m.read32 a)) (rd + 1) (m.read32 (a + 4))
    simp only [Proc.setReg_ctx, Proc.setReg_pc, Proc.setReg_flags, Proc.setReg_cs, Proc.setReg_csDepth,
      Proc.setReg_pipe, Proc.setReg_threads, Proc.setReg_prev, Proc.setReg_cur, Proc.setReg_next,
      Proc.setReg_nextValid, Proc.setReg_saveCtx, Proc.setReg_noCandidate, Proc.setReg_stall, Proc.setReg_dma,
      Proc.setReg_ramman, Proc.setReg_hash, Proc.setReg_counter, Proc.setReg_bbtx, Proc.setReg_bbmsg,
      Proc.setReg_lkReady, Proc.setReg_rmReady, Proc.setReg_timer, Proc.setReg_tpause, Proc.setReg_tchain,
      Proc.setReg_ioStore, Proc.setReg_halted, Proc.setReg_haltCause, Proc.setReg_haltInfo, Proc.setReg_clk,
      Proc.setReg_code, Proc.setReg_sram, Proc.setReg_txOut, Proc.setReg_msgOut, Proc.setReg_cryptoOut] at two
    exact congrArg (fun p => ({ s with self := p } : State)) two

@[simp] theorem storedBytes_length (n : Nat) (v : Word) : (storedBytes n v).length = n := by simp [storedBytes]

@[simp] theorem dataBytes_length (size : Size) (v0 v1 : Word) : (dataBytes size v0 v1).length = Size.bytes size := by
  cases size <;> simp [dataBytes, Size.bytes]

theorem Mem.writeBytes_append (m : Mem) (a : Nat) (bs cs : List Byte) :
    m.writeBytes a (bs ++ cs) = (m.writeBytes a bs).writeBytes (a + bs.length) cs := by
  induction bs generalizing m a with
  | nil => rfl
  | cons b bs ih =>
    simp only [List.cons_append, Mem.writeBytes, ih, List.length_cons]
    rw [show a + 1 + bs.length = a + (bs.length + 1) by omega]

/-- A store of any size is one string of bytes (R49, R50, R164). -/
theorem storeTo_eq (m : Mem) (a : Nat) (size : Size) (v0 v1 : Word) :
    storeTo m a size v0 v1 = m.writeBytes a (dataBytes size v0 v1) := by
  have cut : ∀ j, j + 8 ≤ 16 → (v0.extractLsb' 0 16).extractLsb' j 8 = v0.extractLsb' j 8 := by
    intro j hj
    ext k hk
    simp
    omega
  cases size
  · rfl
  · simp only [storeTo, Mem.write16, cut 8 (by omega), cut 0 (by omega)]
    rfl
  · rfl
  · rw [dataBytes, Mem.writeBytes_append]
    rfl

/-- Every byte after a string of bytes was stored. -/
theorem Mem.read_writeBytes {m : Mem} (h : m.wf = true) (a a' : Nat) (bs : List Byte) :
    (m.writeBytes a bs).read a' =
      if a ≤ a' ∧ a' < a + bs.length then bs.getD (a' - a) 0 else m.read a' := by
  split
  · rename_i inside
    have lt : a' - a < bs.length := by omega
    have := Mem.read_writeBytes_inside a bs h (a' - a) lt
    rw [show a + (a' - a) = a' by omega] at this
    rw [this, List.getD_eq_getElem _ _ lt]
  · exact Mem.read_writeBytes_other bs h (by omega)

end Sys2Proof.Machine
end

