-- ==== Sys2Proof/Laws/Params.lean ====
section
/-! SUPPORT. The parameters of R3 as numerals, which is the form that `omega` needs, and the types that they give
the size of. -/

namespace Sys2Proof

-- One theorem after another: the whole package is compiled as one text, and a thread for each would not fit.
set_option Elab.async false

theorem word_has_xlen_bits : Word = BitVec Config.xlen := rfl
theorem threadId_lt (t : ThreadId) : t.val < 32 := t.isLt
theorem resultSlot_lt (s : ResultSlot) : s.val < 4 := s.isLt
theorem lookupTable_lt (t : LookupTable) : t.val < 3 := t.isLt
theorem delayCount_lt (d : DelayCount) : d.val < 3 := d.isLt
theorem ioIndex_lt (i : IoIndex) : i.val < 256 := i.isLt

/-- There are as many processors as `NPROC` says (R3). -/
theorem ProcId.number_bijective : Function.Bijective ProcId.number := by
  refine ⟨fun p q h => ?_, fun n => ?_⟩
  · cases p <;> cases q <;> first | rfl | cases h
  · match n with
    | 0 => exact ⟨.p0, rfl⟩
    | 1 => exact ⟨.p1, rfl⟩

/-- A processor that is not `q` is the other one. -/
theorem ProcId.eq_other_of_ne {p q : ProcId} (h : p ≠ q) : p = q.other := by
  cases p <;> cases q <;> first | rfl | exact absurd rfl h

end Sys2Proof
end

