-- ==== Sys2Proof/Laws/PerInstr.lean ====
section
/-! SUPPORT. The statements made for every instruction: the row of `spec/opcode_table.json` that its word
matches, one lemma for each constructor (R63 to R86). -/

namespace Sys2Proof.Laws.TableRow

-- One theorem after another: the whole package is compiled as one text, and a thread for each would not fit.
set_option Elab.async false

/-- The `mask` and the `match` of an instruction's row in `spec/opcode_table.json`. -/
def row : Instr → Word × Word
  | .nop => (0xFC000000, 0x00000000)
  | .addR .. => (0xFC008000, 0x04000000)
  | .addI .. => (0xFC008000, 0x04008000)
  | .subR .. => (0xFC008000, 0x08000000)
  | .subI .. => (0xFC008000, 0x08008000)
  | .andR .. => (0xFC008000, 0x0C000000)
  | .andI .. => (0xFC008000, 0x0C008000)
  | .orR .. => (0xFC008000, 0x10000000)
  | .orI .. => (0xFC008000, 0x10008000)
  | .xorR .. => (0xFC008000, 0x14000000)
  | .xorI .. => (0xFC008000, 0x14008000)
  | .mulR .. => (0xFC008000, 0x18000000)
  | .mulI .. => (0xFC008000, 0x18008000)
  | .movi .. => (0xFC000000, 0x1C000000)
  | .sllR .. => (0xFC00E000, 0x20000000)
  | .sllI .. => (0xFC00E000, 0x20002000)
  | .srlR .. => (0xFC00E000, 0x20004000)
  | .srlI .. => (0xFC00E000, 0x20006000)
  | .sraR .. => (0xFC00E000, 0x20008000)
  | .sraI .. => (0xFC00E000, 0x2000A000)
  | .insert .. => (0xFC000000, 0x24000000)
  | .extract .. => (0xFC000000, 0x28000000)
  | .sext8 .. => (0xFC00C000, 0x2C000000)
  | .sext16 .. => (0xFC00C000, 0x2C004000)
  | .ldD .. => (0xFC003000, 0x30000000)
  | .ldXI .. => (0xFC003000, 0x30001000)
  | .ldXR .. => (0xFC003000, 0x30002000)
  | .stD .. => (0xFC003000, 0x34000000)
  | .stXI .. => (0xFC003000, 0x34001000)
  | .stXR .. => (0xFC003000, 0x34002000)
  | .ldcD .. => (0xFC003000, 0x38000000)
  | .ldcXI .. => (0xFC003000, 0x38001000)
  | .ldcXR .. => (0xFC003000, 0x38002000)
  | .stcD .. => (0xFC003000, 0x3C000000)
  | .stcXI .. => (0xFC003000, 0x3C001000)
  | .stcXR .. => (0xFC003000, 0x3C002000)
  | .cmpjR .. => (0xFC008000, 0x40000000)
  | .cmpjI .. => (0xFC008000, 0x40008000)
  | .bz .. => (0xFC000000, 0x44000000)
  | .ctxswap .. => (0xFC000000, 0x48000000)
  | .hash .. => (0xFC000000, 0x4C000000)
  | .crc .. => (0xFD000000, 0x50000000)
  | .cam .. => (0xFD000000, 0x51000000)
  | .bbtx .. => (0xFC000000, 0x54000000)
  | .bbmsg .. => (0xFC000000, 0x58000000)
  | .ffi .. => (0xFC000000, 0x5C000000)
  | .ichk .. => (0xFC000000, 0x60000000)
  | .cnt .. => (0xFC000000, 0x64000000)
  | .crypto .. => (0xFC000000, 0x68000000)
  | .ret => (0xFC000000, 0x6C000000)
  | .jmp .. => (0xFC080000, 0xE8000000)
  | .jmpr .. => (0xFC080000, 0xE8080000)
  | .ljmp .. => (0xFC400000, 0xEC000000)
  | .lcall .. => (0xFC400000, 0xEC400000)
  | .dmard .. => (0xFC000000, 0xF0000000)
  | .dmawr .. => (0xFC000000, 0xF4000000)
  | .dmal .. => (0xFC000000, 0xF8000000)

/-- The word of an instruction has the fixed bits of its row. -/
def Statement (i : Instr) : Prop := encode i &&& (row i).1 = (row i).2

/-! ## Fields outside the fixed bits -/

/-- A field that lies outside a mask does not show under it. -/
theorem put_and_apart {s e : Nat} {m : Word} (v : BitVec (e - s)) (h : s < e ∧ e ≤ 32)
    (apart : put s e (BitVec.allOnes (e - s)) h &&& m = 0) : put s e v h &&& m = 0 := by
  ext k hk
  have bit := congrArg (fun x : Word => x[k]) apart
  simp only [put, BitVec.getElem_and, BitVec.getElem_shiftLeft, BitVec.getLsbD_allOnes,
    BitVec.getElem_setWidth] at bit ⊢
  by_cases low : k < 32 - e
  · simp [low]
  · by_cases high : k - (32 - e) < e - s
    · have zero : m[k] = false := by simpa [low, high] using bit
      simp [zero]
    · rw [BitVec.getLsbD_of_ge v (k - (32 - e)) (by omega)]
      simp

/-- A one-bit field that lies outside a mask does not show under it. -/
theorem putFlag_and_apart {s : Nat} {m : Word} (b : Bool) (h : s < 32) (apart : putFlag s true h &&& m = 0) :
    putFlag s b h &&& m = 0 := by
  cases b
  · simp [putFlag]
  · exact apart

/-- A mask meets the fields of a word one by one. -/
theorem or_and (a b m : Word) : (a ||| b) &&& m = a &&& m ||| b &&& m := by
  ext k hk
  simp [Bool.and_or_distrib_right]

theorem zeros (a : Word) : a ||| 0 = a ∧ 0 ||| a = a := by simp

/-! ## One lemma for each instruction -/

theorem nop : Statement .nop := by
  rfl

theorem addR (rd ra : Reg) (m : AluMods) (rb : Reg) : Statement (.addR rd ra m rb) := by
  simp (disch := decide) only [Statement, row, encode, encodeAlu, or_and, put_and_apart, putFlag_and_apart, zeros]
  rfl

theorem addI (rd ra : Reg) (m : AluMods) (imm10 : BitVec 10) : Statement (.addI rd ra m imm10) := by
  simp (disch := decide) only [Statement, row, encode, encodeAlu, or_and, put_and_apart, putFlag_and_apart, zeros]
  rfl

theorem subR (rd ra : Reg) (m : AluMods) (rb : Reg) : Statement (.subR rd ra m rb) := by
  simp (disch := decide) only [Statement, row, encode, encodeAlu, or_and, put_and_apart, putFlag_and_apart, zeros]
  rfl

theorem subI (rd ra : Reg) (m : AluMods) (imm10 : BitVec 10) : Statement (.subI rd ra m imm10) := by
  simp (disch := decide) only [Statement, row, encode, encodeAlu, or_and, put_and_apart, putFlag_and_apart, zeros]
  rfl

theorem andR (rd ra : Reg) (m : AluMods) (rb : Reg) : Statement (.andR rd ra m rb) := by
  simp (disch := decide) only [Statement, row, encode, encodeAlu, or_and, put_and_apart, putFlag_and_apart, zeros]
  rfl

theorem andI (rd ra : Reg) (m : AluMods) (imm10 : BitVec 10) : Statement (.andI rd ra m imm10) := by
  simp (disch := decide) only [Statement, row, encode, encodeAlu, or_and, put_and_apart, putFlag_and_apart, zeros]
  rfl

theorem orR (rd ra : Reg) (m : AluMods) (rb : Reg) : Statement (.orR rd ra m rb) := by
  simp (disch := decide) only [Statement, row, encode, encodeAlu, or_and, put_and_apart, putFlag_and_apart, zeros]
  rfl

theorem orI (rd ra : Reg) (m : AluMods) (imm10 : BitVec 10) : Statement (.orI rd ra m imm10) := by
  simp (disch := decide) only [Statement, row, encode, encodeAlu, or_and, put_and_apart, putFlag_and_apart, zeros]
  rfl

theorem xorR (rd ra : Reg) (m : AluMods) (rb : Reg) : Statement (.xorR rd ra m rb) := by
  simp (disch := decide) only [Statement, row, encode, encodeAlu, or_and, put_and_apart, putFlag_and_apart, zeros]
  rfl

theorem xorI (rd ra : Reg) (m : AluMods) (imm10 : BitVec 10) : Statement (.xorI rd ra m imm10) := by
  simp (disch := decide) only [Statement, row, encode, encodeAlu, or_and, put_and_apart, putFlag_and_apart, zeros]
  rfl

theorem mulR (rd ra : Reg) (m : AluMods) (rb : Reg) : Statement (.mulR rd ra m rb) := by
  simp (disch := decide) only [Statement, row, encode, encodeAlu, or_and, put_and_apart, putFlag_and_apart, zeros]
  rfl

theorem mulI (rd ra : Reg) (m : AluMods) (imm10 : BitVec 10) : Statement (.mulI rd ra m imm10) := by
  simp (disch := decide) only [Statement, row, encode, encodeAlu, or_and, put_and_apart, putFlag_and_apart, zeros]
  rfl

theorem movi (rd : Reg) (high clear : Bool) (imm16 : BitVec 16) : Statement (.movi rd high clear imm16) := by
  simp (disch := decide) only [Statement, row, encode, or_and, put_and_apart, putFlag_and_apart, zeros]
  rfl

theorem sllR (rd ra rb : Reg) : Statement (.sllR rd ra rb) := by
  simp (disch := decide) only [Statement, row, encode, encodeShift, or_and, put_and_apart, zeros]
  rfl

theorem sllI (rd ra : Reg) (amt5 : BitVec 5) : Statement (.sllI rd ra amt5) := by
  simp (disch := decide) only [Statement, row, encode, encodeShift, or_and, put_and_apart, zeros]
  rfl

theorem srlR (rd ra rb : Reg) : Statement (.srlR rd ra rb) := by
  simp (disch := decide) only [Statement, row, encode, encodeShift, or_and, put_and_apart, zeros]
  rfl

theorem srlI (rd ra : Reg) (amt5 : BitVec 5) : Statement (.srlI rd ra amt5) := by
  simp (disch := decide) only [Statement, row, encode, encodeShift, or_and, put_and_apart, zeros]
  rfl

theorem sraR (rd ra rb : Reg) : Statement (.sraR rd ra rb) := by
  simp (disch := decide) only [Statement, row, encode, encodeShift, or_and, put_and_apart, zeros]
  rfl

theorem sraI (rd ra : Reg) (amt5 : BitVec 5) : Statement (.sraI rd ra amt5) := by
  simp (disch := decide) only [Statement, row, encode, encodeShift, or_and, put_and_apart, zeros]
  rfl

theorem insert (rd ra : Reg) (pos wm1 : BitVec 5) : Statement (.insert rd ra pos wm1) := by
  simp (disch := decide) only [Statement, row, encode, encodeBitField, or_and, put_and_apart, zeros]
  rfl

theorem extract (rd ra : Reg) (pos wm1 : BitVec 5) : Statement (.extract rd ra pos wm1) := by
  simp (disch := decide) only [Statement, row, encode, encodeBitField, or_and, put_and_apart, zeros]
  rfl

theorem sext8 (rd ra : Reg) : Statement (.sext8 rd ra) := by
  simp (disch := decide) only [Statement, row, encode, or_and, put_and_apart, zeros]
  rfl

theorem sext16 (rd ra : Reg) : Statement (.sext16 rd ra) := by
  simp (disch := decide) only [Statement, row, encode, or_and, put_and_apart, zeros]
  rfl

theorem ldD (rd ra : Reg) (size : Size) (off12 : BitVec 12) : Statement (.ldD rd ra size off12) := by
  simp (disch := decide) only [Statement, row, encode, encodeLoadStore, or_and, put_and_apart, zeros]
  rfl

theorem ldXI (rd ra : Reg) (size : Size) (idx12 : BitVec 12) : Statement (.ldXI rd ra size idx12) := by
  simp (disch := decide) only [Statement, row, encode, encodeLoadStore, or_and, put_and_apart, zeros]
  rfl

theorem ldXR (rd ra : Reg) (size : Size) (rb : Reg) : Statement (.ldXR rd ra size rb) := by
  simp (disch := decide) only [Statement, row, encode, encodeLoadStore, or_and, put_and_apart, zeros]
  rfl

theorem stD (rd ra : Reg) (size : Size) (off12 : BitVec 12) : Statement (.stD rd ra size off12) := by
  simp (disch := decide) only [Statement, row, encode, encodeLoadStore, or_and, put_and_apart, zeros]
  rfl

theorem stXI (rd ra : Reg) (size : Size) (idx12 : BitVec 12) : Statement (.stXI rd ra size idx12) := by
  simp (disch := decide) only [Statement, row, encode, encodeLoadStore, or_and, put_and_apart, zeros]
  rfl

theorem stXR (rd ra : Reg) (size : Size) (rb : Reg) : Statement (.stXR rd ra size rb) := by
  simp (disch := decide) only [Statement, row, encode, encodeLoadStore, or_and, put_and_apart, zeros]
  rfl

theorem ldcD (rd ra : Reg) (size : Size) (off12 : BitVec 12) : Statement (.ldcD rd ra size off12) := by
  simp (disch := decide) only [Statement, row, encode, encodeLoadStore, or_and, put_and_apart, zeros]
  rfl

theorem ldcXI (rd ra : Reg) (size : Size) (idx12 : BitVec 12) : Statement (.ldcXI rd ra size idx12) := by
  simp (disch := decide) only [Statement, row, encode, encodeLoadStore, or_and, put_and_apart, zeros]
  rfl

theorem ldcXR (rd ra : Reg) (size : Size) (rb : Reg) : Statement (.ldcXR rd ra size rb) := by
  simp (disch := decide) only [Statement, row, encode, encodeLoadStore, or_and, put_and_apart, zeros]
  rfl

theorem stcD (rd ra : Reg) (size : Size) (off12 : BitVec 12) : Statement (.stcD rd ra size off12) := by
  simp (disch := decide) only [Statement, row, encode, encodeLoadStore, or_and, put_and_apart, zeros]
  rfl

theorem stcXI (rd ra : Reg) (size : Size) (idx12 : BitVec 12) : Statement (.stcXI rd ra size idx12) := by
  simp (disch := decide) only [Statement, row, encode, encodeLoadStore, or_and, put_and_apart, zeros]
  rfl

theorem stcXR (rd ra : Reg) (size : Size) (rb : Reg) : Statement (.stcXR rd ra size rb) := by
  simp (disch := decide) only [Statement, row, encode, encodeLoadStore, or_and, put_and_apart, zeros]
  rfl

theorem cmpjR (ds : DelayCount) (inv : Bool) (cmp : Cmp) (ra rb : Reg) (off10 : BitVec 10)
    : Statement (.cmpjR ds inv cmp ra rb off10) := by
  simp (disch := decide) only [Statement, row, encode, encodeCmpj, or_and, put_and_apart, putFlag_and_apart, zeros]
  rfl

theorem cmpjI (ds : DelayCount) (inv : Bool) (cmp : Cmp) (ra : Reg) (imm5 : BitVec 5) (off10 : BitVec 10)
    : Statement (.cmpjI ds inv cmp ra imm5 off10) := by
  simp (disch := decide) only [Statement, row, encode, encodeCmpj, or_and, put_and_apart, putFlag_and_apart, zeros]
  rfl

theorem bz (ds : DelayCount) (inv : Bool) (half : Half) (ra : Reg) (off16 : BitVec 16)
    : Statement (.bz ds inv half ra off16) := by
  simp (disch := decide) only [Statement, row, encode, or_and, put_and_apart, putFlag_and_apart, zeros]
  rfl

theorem ctxswap (save : Bool) : Statement (.ctxswap save) := by
  simp (disch := decide) only [Statement, row, encode, or_and, putFlag_and_apart, zeros]
  rfl

theorem hash (wake : Bool) (kw : KeyWidth) (tbl : LookupTable) (slot : BitVec 2) (rk : Reg)
    : Statement (.hash wake kw tbl slot rk) := by
  simp (disch := decide) only [Statement, row, encode, or_and, put_and_apart, putFlag_and_apart, zeros]
  rfl

theorem crc (wake : Bool) (slot prof : BitVec 2) (ra : Reg) (n : BitVec 10)
    : Statement (.crc wake slot prof ra n) := by
  simp (disch := decide) only [Statement, row, encode, or_and, put_and_apart, putFlag_and_apart, zeros]
  rfl

theorem cam (wake : Bool) (slot tsz : BitVec 2) (rk rm : Reg) : Statement (.cam wake slot tsz rk rm) := by
  simp (disch := decide) only [Statement, row, encode, or_and, put_and_apart, putFlag_and_apart, zeros]
  rfl

theorem bbtx (wake last inc : Bool) (rs : Reg) (len : BitVec 10) : Statement (.bbtx wake last inc rs len) := by
  simp (disch := decide) only [Statement, row, encode, or_and, put_and_apart, putFlag_and_apart, zeros]
  rfl

theorem bbmsg (wake w64 : Bool) (mtype dest : BitVec 4) (rp : Reg) : Statement (.bbmsg wake w64 mtype dest rp) := by
  simp (disch := decide) only [Statement, row, encode, or_and, put_and_apart, putFlag_and_apart, zeros]
  rfl

theorem ffi (rd ra : Reg) : Statement (.ffi rd ra) := by
  simp (disch := decide) only [Statement, row, encode, or_and, put_and_apart, zeros]
  rfl

theorem ichk (rd ra rb : Reg) : Statement (.ichk rd ra rb) := by
  simp (disch := decide) only [Statement, row, encode, or_and, put_and_apart, zeros]
  rfl

theorem cnt (wake dec w4 frz : Bool) (rc : Reg) (amt : BitVec 8) : Statement (.cnt wake dec w4 frz rc amt) := by
  simp (disch := decide) only [Statement, row, encode, or_and, put_and_apart, putFlag_and_apart, zeros]
  rfl

theorem crypto (first last : Bool) (rs : Reg) (len : BitVec 10) : Statement (.crypto first last rs len) := by
  simp (disch := decide) only [Statement, row, encode, or_and, put_and_apart, putFlag_and_apart, zeros]
  rfl

theorem ret : Statement .ret := by
  rfl

theorem jmp (ds : DelayCount) (inv : Bool) (cond : Cond) (rc : Reg) (bit : BitVec 5) (off9 : BitVec 9)
    : Statement (.jmp ds inv cond rc bit off9) := by
  simp (disch := decide) only [Statement, row, encode, encodeJump, or_and, put_and_apart, putFlag_and_apart, zeros]
  rfl

theorem jmpr (ds : DelayCount) (inv : Bool) (cond : Cond) (rc : Reg) (bit : BitVec 5) (rt : Reg)
    : Statement (.jmpr ds inv cond rc bit rt) := by
  simp (disch := decide) only [Statement, row, encode, encodeJump, or_and, put_and_apart, putFlag_and_apart, zeros]
  rfl

theorem ljmp (ds : DelayCount) (inv : Bool) (addr16 : BitVec 16) : Statement (.ljmp ds inv addr16) := by
  simp (disch := decide) only [Statement, row, encode, encodeLong, or_and, put_and_apart, putFlag_and_apart, zeros]
  rfl

theorem lcall (ds : DelayCount) (inv : Bool) (addr16 : BitVec 16) : Statement (.lcall ds inv addr16) := by
  simp (disch := decide) only [Statement, row, encode, encodeLong, or_and, put_and_apart, putFlag_and_apart, zeros]
  rfl

theorem dmard (wake bp : Bool) (rs rc : Reg) (len : BitVec 10) : Statement (.dmard wake bp rs rc len) := by
  simp (disch := decide) only [Statement, row, encode, encodeDma, or_and, put_and_apart, putFlag_and_apart, zeros]
  rfl

theorem dmawr (wake bp : Bool) (rs rc : Reg) (len : BitVec 10) : Statement (.dmawr wake bp rs rc len) := by
  simp (disch := decide) only [Statement, row, encode, encodeDma, or_and, put_and_apart, putFlag_and_apart, zeros]
  rfl

theorem dmal (wake : Bool) (esz : BitVec 2) (rs rb ri : Reg) : Statement (.dmal wake esz rs rb ri) := by
  simp (disch := decide) only [Statement, row, encode, or_and, put_and_apart, putFlag_and_apart, zeros]
  rfl

end Sys2Proof.Laws.TableRow
end

