-- ==== Sys2Proof/Laws/Rules.lean ====
section
/-! SUPPORT. Everything that the rule of an instruction which is no control transfer can do, said once: claims about
all instructions are case analyses of `RuleEffect` and unfold no rule. -/

namespace Sys2Proof.Machine

-- One theorem after another: the whole package is compiled as one text, and a thread for each would not fit.
set_option Elab.async false

/-- The states that a rule which completes can leave (R120 to R149, R163 to R166, R241 to R264, R302). -/
inductive RuleEffect (s : State) : State → Prop where
  | registers (priv : Vector Word Config.nPrivate) (glob : Vector Word Config.nGlobal) (flags : Flags) (zero : priv[0] = s.self.priv[0]) :
    RuleEffect s { s with self := { s.self with priv := priv, glob := glob, flags := flags } }
  | sram (a : Nat) (bytes : List Byte) (inside : a + bytes.length ≤ Config.sramBytes) :
    RuleEffect s (s.setSram (s.self.sram.writeBytes a bytes))
  | common (a : Nat) (bytes : List Byte) (inside : a + bytes.length ≤ Config.commonBytes) :
    RuleEffect s (s.setCommon (s.shared.common.writeBytes a bytes))
  | storage (io : Vector Word Config.ioWords) : RuleEffect s { s with self := { s.self with ioStore := io } }
  | wakeups (threads : Vector ThreadBits Config.nThreads) : RuleEffect s { s with self := { s.self with threads := threads } }
  | timers (timer : Vector (BitVec 16) Config.nTimers) (tpause : BitVec 4) (tchain : BitVec 3) :
    RuleEffect s { s with self := { s.self with timer := timer, tpause := tpause, tchain := tchain } }
  | semaphores (sem : Vector Semaphore Config.nSem) (threads : Vector ThreadBits Config.nThreads) (peer : Proc)
    (woken : WakeupsOnly s.peer peer) :
    RuleEffect s { s with shared := { s.shared with sem := sem }, self := { s.self with threads := threads }, peer := peer }
  | lock (l : CtrLock) : RuleEffect s { s with shared := { s.shared with ctrLock := l } }
  | dma (wake : Bool) (op : DmaOp) (room : s.self.dma.entries.length < Config.depth .dma)
    (sram : rangeOk Config.sramBytes 4 op.saddr (4 * op.nwords) = true)
    (common : rangeOk Config.commonBytes 4 op.caddr (4 * op.nwords) = true) : RuleEffect s (s.enqueueDma wake op)
  | ramman (wake : Bool) (op : RammanOp) (room : s.self.ramman.entries.length < Config.depth .ramman)
    (range : op.inRange = true) : RuleEffect s (s.enqueueRamman wake op)
  | hash (wake : Bool) (op : HashOp) (room : s.self.hash.entries.length < Config.depth .hash) :
    RuleEffect s (s.enqueueHash wake op)
  | counter (wake : Bool) (op : CounterOp) (room : s.self.counter.entries.length < Config.depth .counter)
    (range : rangeOk Config.commonBytes (counterBytes op.w4) op.caddr (counterBytes op.w4) = true) :
    RuleEffect s (s.enqueueCounter wake op)
  | bbtx (priv : Vector Word Config.nPrivate) (glob : Vector Word Config.nGlobal) (wake : Bool) (op : BbtxOp) (zero : priv[0] = s.self.priv[0])
    (room : s.self.bbtx.entries.length < Config.depth .bbtx)
    (range : rangeOk Config.sramBytes 4 op.saddr op.len = true) :
    RuleEffect s (({ s with self := { s.self with priv := priv, glob := glob } } : State).enqueueBbtx wake op)
  | bbmsg (wake : Bool) (op : BbmsgOp) (room : s.self.bbmsg.entries.length < Config.depth .bbmsg) :
    RuleEffect s (s.enqueueBbmsg wake op)
  | crypto (out : List CryptoRecord) : RuleEffect s { s with self := { s.self with cryptoOut := out } }

namespace RuleEffect

/-- No effect at all. -/
theorem none (s : State) : RuleEffect s s := .storage s.self.ioStore

theorem setReg (s : State) (rd : Reg) (v : Word) : RuleEffect s (s.setReg rd v) := by
  have h := RuleEffect.registers (s := s) (s.self.setReg rd v).priv (s.self.setReg rd v).glob s.self.flags
    (Proc.setReg_priv_zero _ _ _)
  exact (congrArg (fun p => RuleEffect s { s with self := p }) (Proc.setReg_eq s.self rd v)).mpr h

theorem writeback (s : State) (rd : Reg) (X : Int) (c f : Bool) : RuleEffect s (s.writeback rd X c f) := by
  have h := RuleEffect.registers (s := s) (s.self.setReg rd (wrap X)).priv (s.self.setReg rd (wrap X)).glob
    (aluFlags s.self.flags f X c) (Proc.setReg_priv_zero _ _ _)
  exact (congrArg (fun p => RuleEffect s { s with self := { p with flags := aluFlags s.self.flags f X c } })
    (Proc.setReg_eq s.self rd (wrap X))).mpr h

theorem loadFrom (s : State) (m : Mem) (a : Nat) (size : Size) (rd : Reg) : RuleEffect s (s.loadFrom m a size rd) := by
  have zero : (s.loadFrom m a size rd).self.priv[0] = s.self.priv[0] := by
    cases size <;> simp [State.loadFrom]
  have flags : (s.loadFrom m a size rd).self.flags = s.self.flags := by cases size <;> simp [State.loadFrom]
  have h := RuleEffect.registers (s := s) (s.loadFrom m a size rd).self.priv (s.loadFrom m a size rd).self.glob
    s.self.flags zero
  rw [State.loadFrom_eq]
  exact h

end RuleEffect

/-! ## Memory-mapped registers -/

theorem WakeupsOnly.refl (p : Proc) : WakeupsOnly p p := ⟨rfl, fun _ => .inl rfl⟩

theorem WakeupsOnly.trans {p q r : Proc} (h : WakeupsOnly p q) (h' : WakeupsOnly q r) : WakeupsOnly p r := by
  refine ⟨by rw [h'.1, h.1], fun t => ?_⟩
  rcases h.2 t with a | a <;> rcases h'.2 t with b | b <;> simp_all

theorem WakeupsOnly.postSync (p : Proc) (t : ThreadId) : WakeupsOnly p (p.postSync t) := by
  refine ⟨rfl, fun u => ?_⟩
  by_cases e : t.val = u.val
  · right
    simp [Proc.postSync, e]
  · left
    simp [Proc.postSync, Vector.getElem_set_ne _ _ e]

/-- A store to the IO window (R302). -/
theorem State.ioStoreWord_effect (s : State) (k : IoIndex) (v : Word) : RuleEffect s (s.ioStoreWord k v) := by
  unfold State.ioStoreWord
  split
  case h_1 | h_2 | h_3 | h_4 | h_5 | h_6 => exact .storage _
  case h_7 | h_8 | h_9 | h_10 | h_11 => exact .none s
  case h_12 =>
    unfold State.storeWakeup
    simp only
    split
    · exact .none s
    · exact .wakeups _
  case h_13 =>
    unfold State.storeSemCtrl
    simp only
    split
    · unfold State.acquire
      simp only
      split
      · exact .semaphores _ _ _ (.refl _)
      · split
        · exact .semaphores _ _ _ (.refl _)
        · exact .none s
    · split
      · unfold State.release
        simp only
        split
        · unfold State.postSyncTo
          split
          · exact .semaphores _ _ _ (.refl _)
          · exact .semaphores _ _ _ (.postSync _ _)
        · exact .semaphores _ _ _ (.refl _)
      · exact .none s
  case h_14 => exact .timers _ _ _
  case h_15 =>
    unfold State.storeCounterLock
    simp only
    split
    · split
      · exact .lock _
      · exact .none s
    · split
      · exact .lock _
      · exact .none s
  case h_16 => exact .wakeups _

/-! ## The rules -/

theorem ldRule_effect {ea : Word} {size : Size} {rd : Reg} {s t : State} (h : ldRule ea size rd s = .done t) :
    RuleEffect s t := by
  unfold ldRule at h
  split at h
  · cases h
  · cases h
    exact .loadFrom _ _ _ _ _
  · split at h
    · cases h
    · cases h
      exact .setReg _ _ _

theorem stRule_effect {ea : Word} {size : Size} {rd : Reg} {s t : State} (h : stRule ea size rd s = .done t) :
    RuleEffect s t := by
  unfold stRule at h
  split at h
  · cases h
  · rename_i target
    cases h
    rw [storeTo_eq]
    refine .sram _ _ ?_
    rw [dataBytes_length]
    unfold dataSpace at target
    split at target
    · cases target
    · split at target
      · assumption
      · split at target <;> cases target
  · cases h
    exact State.ioStoreWord_effect _ _ _

theorem ldcRule_effect {ea : Word} {size : Size} {rd : Reg} {s t : State} (h : ldcRule ea size rd s = .done t) :
    RuleEffect s t := by
  unfold ldcRule at h
  split at h <;> cases h
  exact .loadFrom _ _ _ _ _

theorem stcRule_effect {ea : Word} {size : Size} {rd : Reg} {s t : State} (h : stcRule ea size rd s = .done t) :
    RuleEffect s t := by
  unfold stcRule at h
  split at h <;> cases h
  rename_i ok
  rw [storeTo_eq]
  refine .common _ _ ?_
  simp only [commonOk, Bool.and_eq_true, decide_eq_true_eq] at ok
  rw [dataBytes_length]
  exact ok.2

theorem Fifo.room_of_not_full {α : Type} {f : Fifo α} {u : Accel} (h : ¬f.full u = true) :
    f.entries.length < Config.depth u := by
  simpa [Fifo.full] using h

theorem dmaRule_effect {wake : Bool} {op : DmaOp} {s t : State} (h : dmaRule wake op s = .done t) :
    RuleEffect s t := by
  unfold dmaRule at h
  split at h
  · cases h
  · split at h
    · cases h
    · split at h <;> cases h
      exact .dma _ _ (Fifo.room_of_not_full ‹_›) (by simp_all) (by simp_all)

/-- Everything that an instruction which is no control transfer can do. -/
theorem shadowRule_effect {i : Instr} {s t : State} (h : shadowRule i s = some (.done t)) : RuleEffect s t := by
  cases i <;> simp only [shadowRule, Option.some.injEq, reduceCtorEq] at h
  case nop => cases h; exact .none s
  case addR | addI | subR | subI | andR | andI | orR | orI | xorR | xorI | mulR | mulI =>
    cases h; exact .writeback _ _ _ _ _
  case movi | sllR | sllI | srlR | srlI | sraR | sraI | insert | extract | sext8 | sext16 | ffi | ichk =>
    cases h; exact .setReg _ _ _
  case ldD | ldXI | ldXR => exact ldRule_effect h
  case stD | stXI | stXR => exact stRule_effect h
  case ldcD | ldcXI | ldcXR => exact ldcRule_effect h
  case stcD | stcXI | stcXR => exact stcRule_effect h
  case dmard | dmawr | dmal => exact dmaRule_effect h
  case hash =>
    unfold ruleHash at h
    split at h <;> cases h
    exact .hash _ _ (Fifo.room_of_not_full ‹_›)
  case crc =>
    unfold ruleCrc at h
    simp only at h
    split at h
    · cases h
    · split at h <;> cases h
      exact .ramman _ _ (Fifo.room_of_not_full ‹_›) (by simp_all [RammanOp.inRange])
  case cam =>
    unfold ruleCam at h
    split at h <;> cases h
    exact .ramman _ _ (Fifo.room_of_not_full ‹_›) rfl
  case cnt =>
    unfold ruleCnt at h
    simp only at h
    split at h
    · cases h
    · split at h <;> cases h
      exact .counter _ _ (Fifo.room_of_not_full ‹_›) (by simp_all)
  case bbtx wake last inc rs len =>
    unfold ruleBbtx at h
    simp only at h
    split at h
    · cases h
    · split at h <;> cases h
      have room := Fifo.room_of_not_full (f := s.self.bbtx) (u := .bbtx) ‹_›
      cases inc
      · exact .bbtx s.self.priv s.self.glob _ _ rfl room (by simp_all)
      · simp only [if_true]
        have e : s.setReg rs (s.reg rs + len.setWidth 32) = { s with self :=
            { s.self with priv := (s.self.setReg rs (s.reg rs + len.setWidth 32)).priv
                          glob := (s.self.setReg rs (s.reg rs + len.setWidth 32)).glob } } :=
          congrArg (fun p => ({ s with self := p } : State)) (Proc.setReg_eq s.self rs _)
        rw [e]
        exact .bbtx _ _ _ _ (Proc.setReg_priv_zero _ _ _) room (by simp_all)
  case bbmsg =>
    unfold ruleBbmsg at h
    split at h <;> cases h
    exact .bbmsg _ _ (Fifo.room_of_not_full ‹_›)
  case crypto =>
    unfold ruleCrypto at h
    simp only at h
    split at h <;> cases h
    exact .crypto _

/-- A stalled rule names the cause of a unit or of a result register, never the waiting for a context. -/
theorem shadowRule_stalled {i : Instr} {s : State} {c : StallCause} (h : shadowRule i s = some (.stalled c)) :
    c ≠ .noContext := by
  cases i <;>
    simp only [shadowRule, Option.some.injEq, reduceCtorEq, ruleNop, ruleAddR, ruleAddI, ruleSubR, ruleSubI, ruleAndR,
      ruleAndI, ruleOrR, ruleOrI, ruleXorR, ruleXorI, ruleMulR, ruleMulI, aluRule, ruleMovi, ruleSllR, ruleSllI,
      ruleSrlR, ruleSrlI, ruleSraR, ruleSraI, ruleInsert, ruleExtract, ruleSext8, ruleSext16, ruleFfi, ruleIchk,
      ruleLdD, ruleLdXI, ruleLdXR, ldRule, ruleStD, ruleStXI, ruleStXR, stRule, ruleLdcD, ruleLdcXI, ruleLdcXR,
      ldcRule, ruleStcD, ruleStcXI, ruleStcXR, stcRule, ruleDmard, ruleDmawr, ruleDmal, dmaRule, ruleHash, ruleCrc,
      ruleCam, ruleCnt, ruleBbtx, ruleBbmsg, ruleCrypto] at h
  all_goals repeat' (first | (solve | cases h) | (solve | (cases h; simp)) | split at h)

end Sys2Proof.Machine
end

