-- ==== Sys2Proof/Laws/Tick.lean ====
section
/-! SUPPORT. Everything that the steps of a tick can do, said once: `exec`, a completion, the accelerator tick, the swap
procedure, the scheduler tick, and `step` itself. Claims about all instructions and all steps are case
analyses of these. -/

namespace Sys2Proof.Machine

-- One theorem after another: the whole package is compiled as one text, and a thread for each would not fit.
set_option Elab.async false

/-! ## What a rule leaves alone -/

/-- No rule touches the sequencing, the context area, the scheduler's choice, the halt state, the clock or the code
segment; of the other processor it changes at most wakeups. -/
structure RuleFrame (s t : State) : Prop where
  me : t.me = s.me
  ticks : t.ticks = s.ticks
  pc : t.self.pc = s.self.pc
  pipe : t.self.pipe = s.self.pipe
  stall : t.self.stall = s.self.stall
  ctx : t.self.ctx = s.self.ctx
  cs : t.self.cs = s.self.cs
  csDepth : t.self.csDepth = s.self.csDepth
  cur : t.self.cur = s.self.cur
  prev : t.self.prev = s.self.prev
  next : t.self.next = s.self.next
  nextValid : t.self.nextValid = s.self.nextValid
  saveCtx : t.self.saveCtx = s.self.saveCtx
  halted : t.self.halted = s.self.halted
  clk : t.self.clk = s.self.clk
  code : t.self.code = s.self.code
  zero : t.self.priv[0] = s.self.priv[0]
  peer : WakeupsOnly s.peer t.peer

theorem RuleFrame.refl (s : State) : RuleFrame s s :=
  ⟨rfl, rfl, rfl, rfl, rfl, rfl, rfl, rfl, rfl, rfl, rfl, rfl, rfl, rfl, rfl, rfl, rfl, .refl _⟩

theorem RuleFrame.trans {s t u : State} (h : RuleFrame s t) (h' : RuleFrame t u) : RuleFrame s u :=
  ⟨h'.me.trans h.me, h'.ticks.trans h.ticks, h'.pc.trans h.pc, h'.pipe.trans h.pipe, h'.stall.trans h.stall,
    h'.ctx.trans h.ctx, h'.cs.trans h.cs, h'.csDepth.trans h.csDepth, h'.cur.trans h.cur, h'.prev.trans h.prev,
    h'.next.trans h.next, h'.nextValid.trans h.nextValid, h'.saveCtx.trans h.saveCtx, h'.halted.trans h.halted,
    h'.clk.trans h.clk, h'.code.trans h.code, h'.zero.trans h.zero, h.peer.trans h'.peer⟩

theorem RuleEffect.frame {s t : State} (h : RuleEffect s t) : RuleFrame s t := by
  cases h <;> refine ⟨rfl, rfl, rfl, rfl, rfl, rfl, rfl, rfl, rfl, rfl, rfl, rfl, rfl, rfl, rfl, rfl, ?_, ?_⟩ <;>
    first | assumption | rfl | exact .refl _

/-! ## What an instruction can do -/

/-- The states that `exec` can answer. -/
inductive ExecEffect (s : State) : State → Prop where
  /-- A rule took effect and the instruction retired (R104 (a)). -/
  | retired (u : State) (rule : RuleEffect s u) : ExecEffect s u.retire
  /-- The instruction stalled (R104 (b), R106). -/
  | stalled (c : StallCause) (cause : c ≠ .noContext) : ExecEffect s (s.recordStall c)
  /-- It halted the processor (R109). -/
  | halted (k : HaltCause) (ipc : CodeOff) (info : HaltInfo) : ExecEffect s (s.halt k ipc info)
  /-- It was a branch, taken or not, a call or a return (R181, R182, R186, R189). -/
  | branched (cs : Vector CodeOff Config.csDepth) (csDepth : Fin (Config.csDepth + 1)) (pipe : List PipeEntry) (pc : CodeOff)
    (empty : s.self.pipe = []) (short : pipe.length ≤ Config.maxDelay)
    (code : ∀ e ∈ pipe, e.word = s.self.codeRead e.ipc) (masked : pc &&& ~~~Config.pcMask = 0) :
    ExecEffect s { s with self := { s.self with
      stall := { s.self.stall with cause := .normal }, cs := cs, csDepth := csDepth, pipe := pipe, pc := pc } }
  /-- It was a CTXSWAP whose second shadow instruction halted after the first took effect (R213). -/
  | shadowHalted (u : State) (rule : RuleEffect s u) (k : HaltCause) (ipc : CodeOff) (info : HaltInfo) :
    ExecEffect s (u.halt k ipc info)
  /-- It was a CTXSWAP whose shadow took effect (R212). -/
  | swapped (u v : State) (first : RuleEffect s u) (second : RuleEffect u v) (save : Bool) (empty : s.self.pipe = []) :
    ExecEffect s (v.swapOrPark save)

theorem maskPc_masked (a : CodeOff) : maskPc a &&& ~~~Config.pcMask = 0 := by
  unfold maskPc
  rw [BitVec.and_assoc, show Config.pcMask &&& ~~~Config.pcMask = 0 from rfl]
  exact BitVec.and_zero

theorem State.branch_effect {s : State} (empty : s.self.pipe = []) (taken : Bool) (target : CodeOff) (ds : DelayCount)
    (cs : Vector CodeOff Config.csDepth) (csDepth : Fin (Config.csDepth + 1)) :
    ExecEffect s (({ s with self := { s.self with cs := cs, csDepth := csDepth } } : State).branch taken target ds) := by
  rw [State.branch_eq (s := { s with self := { s.self with cs := cs, csDepth := csDepth } }) empty]
  refine .branched cs csDepth _ _ empty ?_ ?_ (maskPc_masked _)
  · cases taken
    · simp
    · simp only [if_true, State.delaySlots, List.length_map, List.length_range]
      exact Nat.le_of_lt_succ ds.isLt
  · intro e mem
    cases taken
    · simp at mem
    · simp only [if_true, State.delaySlots, List.mem_map] at mem
      obtain ⟨k, -, rfl⟩ := mem
      rfl

theorem control_effect {s run t : State} (h : control s run = .next t)
    (runs : s.self.pipe = [] → ExecEffect s run) : ExecEffect s t := by
  by_cases empty : s.self.pipe = []
  · rw [control_of_nil empty] at h
    cases h
    exact runs empty
  · rw [control_of_ne_nil empty] at h
    cases h
    exact .halted _ _ _

/-- A shadow step either took effect by its rule or halted. -/
theorem shadowStep_effect (k : Nat) (s : State) :
    (∃ u, shadowStep k s = .ran u ∧ RuleEffect s u) ∨
    (∃ c ipc info, shadowStep k s = .halted (s.halt c ipc info)) := by
  unfold shadowStep
  simp only
  split
  · exact .inr ⟨_, _, _, rfl⟩
  · split
    · exact .inr ⟨_, _, _, rfl⟩
    · exact .inl ⟨_, rfl, shadowRule_effect ‹_›⟩
    · exact .inr ⟨_, _, _, rfl⟩
    · exact .inr ⟨_, _, _, rfl⟩

/-- An instruction that is no control transfer runs its rule (R104). -/
theorem exec_eq_complete {i : Instr} (h : i.isControlTransfer = false) (s : State) :
    ∃ r, shadowRule i s = some r ∧ exec i s = complete r s := by
  cases i <;> first | exact ⟨_, rfl, rfl⟩ | cases h

/-- Everything that an instruction can do. -/
theorem exec_effect {i : Instr} {s t : State} (h : exec i s = .next t) : ExecEffect s t := by
  by_cases ct : i.isControlTransfer = true
  · cases i <;> first | exact (Bool.false_ne_true ct).elim | skip
    case cmpjR | cmpjI | bz | jmp | jmpr | ljmp =>
      exact control_effect h (fun e => State.branch_effect e _ _ _ _ _)
    case ctxswap save =>
      refine control_effect h (fun e => ?_)
      rcases shadowStep_effect 1 s with ⟨u, hu, ru⟩ | ⟨c, ipc, info, hu⟩
      · rw [hu]
        simp only
        rcases shadowStep_effect 2 u with ⟨v, hv, rv⟩ | ⟨c, ipc, info, hv⟩
        · rw [hv]
          exact .swapped u v ru rv save e
        · rw [hv]
          exact .shadowHalted u ru _ _ _
      · rw [hu]
        exact .halted _ _ _
    case lcall ds inv addr16 =>
      refine control_effect h (fun e => ?_)
      split
      · exact State.branch_effect e _ _ _ _ _
      · split
        · exact .halted _ _ _
        · rename_i push
          unfold Proc.pushReturn at push
          split at push <;> cases push
          exact State.branch_effect e _ _ _ _ _
    case ret =>
      refine control_effect h (fun e => ?_)
      split
      · exact .halted _ _ _
      · rename_i pop
        unfold Proc.popReturn at pop
        split at pop <;> cases pop
        exact State.branch_effect e _ _ _ s.self.cs _
  · obtain ⟨r, rule, run⟩ := exec_eq_complete (Bool.eq_false_iff.mpr ct) s
    rw [run] at h
    cases r <;> cases h
    · exact .retired _ (shadowRule_effect rule)
    · exact .stalled _ (shadowRule_stalled rule)
    · exact .halted _ _ _

/-- Every instruction leaves a next state: fatal conditions are next states, and none is refused. -/
theorem exec_next (i : Instr) (s : State) : ∃ t, exec i s = .next t := by
  by_cases ct : i.isControlTransfer = true
  · have runs : ∀ run, ∃ t, control s run = .next t := fun run => by
      unfold control
      split <;> exact ⟨_, rfl⟩
    cases i <;> first | exact (Bool.false_ne_true ct).elim | exact runs _
  · obtain ⟨r, -, run⟩ := exec_eq_complete (Bool.eq_false_iff.mpr ct) s
    exact ⟨_, run⟩

/-! ## The swap procedure (R215) -/

section
variable (p : Proc) (save : Bool)

@[simp] theorem Proc.swapContexts_glob : (p.swapContexts save).glob = p.glob := by simp [Proc.swapContexts]
@[simp] theorem Proc.swapContexts_flags : (p.swapContexts save).flags = p.flags := by simp [Proc.swapContexts]
@[simp] theorem Proc.swapContexts_pc : (p.swapContexts save).pc = p.pc := by simp [Proc.swapContexts]
@[simp] theorem Proc.swapContexts_cs : (p.swapContexts save).cs = p.cs := by simp [Proc.swapContexts]
@[simp] theorem Proc.swapContexts_csDepth : (p.swapContexts save).csDepth = p.csDepth := by simp [Proc.swapContexts]
@[simp] theorem Proc.swapContexts_next : (p.swapContexts save).next = p.next := by simp [Proc.swapContexts]
@[simp] theorem Proc.swapContexts_noCandidate : (p.swapContexts save).noCandidate = p.noCandidate := by simp [Proc.swapContexts]
@[simp] theorem Proc.swapContexts_dma : (p.swapContexts save).dma = p.dma := by simp [Proc.swapContexts]
@[simp] theorem Proc.swapContexts_ramman : (p.swapContexts save).ramman = p.ramman := by simp [Proc.swapContexts]
@[simp] theorem Proc.swapContexts_hash : (p.swapContexts save).hash = p.hash := by simp [Proc.swapContexts]
@[simp] theorem Proc.swapContexts_counter : (p.swapContexts save).counter = p.counter := by simp [Proc.swapContexts]
@[simp] theorem Proc.swapContexts_bbtx : (p.swapContexts save).bbtx = p.bbtx := by simp [Proc.swapContexts]
@[simp] theorem Proc.swapContexts_bbmsg : (p.swapContexts save).bbmsg = p.bbmsg := by simp [Proc.swapContexts]
@[simp] theorem Proc.swapContexts_lkReady : (p.swapContexts save).lkReady = p.lkReady := by simp [Proc.swapContexts]
@[simp] theorem Proc.swapContexts_rmReady : (p.swapContexts save).rmReady = p.rmReady := by simp [Proc.swapContexts]
@[simp] theorem Proc.swapContexts_timer : (p.swapContexts save).timer = p.timer := by simp [Proc.swapContexts]
@[simp] theorem Proc.swapContexts_tpause : (p.swapContexts save).tpause = p.tpause := by simp [Proc.swapContexts]
@[simp] theorem Proc.swapContexts_tchain : (p.swapContexts save).tchain = p.tchain := by simp [Proc.swapContexts]
@[simp] theorem Proc.swapContexts_ioStore : (p.swapContexts save).ioStore = p.ioStore := by simp [Proc.swapContexts]
@[simp] theorem Proc.swapContexts_halted : (p.swapContexts save).halted = p.halted := by simp [Proc.swapContexts]
@[simp] theorem Proc.swapContexts_haltCause : (p.swapContexts save).haltCause = p.haltCause := by simp [Proc.swapContexts]
@[simp] theorem Proc.swapContexts_haltInfo : (p.swapContexts save).haltInfo = p.haltInfo := by simp [Proc.swapContexts]
@[simp] theorem Proc.swapContexts_clk : (p.swapContexts save).clk = p.clk := by simp [Proc.swapContexts]
@[simp] theorem Proc.swapContexts_code : (p.swapContexts save).code = p.code := by simp [Proc.swapContexts]
@[simp] theorem Proc.swapContexts_sram : (p.swapContexts save).sram = p.sram := by simp [Proc.swapContexts]
@[simp] theorem Proc.swapContexts_txOut : (p.swapContexts save).txOut = p.txOut := by simp [Proc.swapContexts]
@[simp] theorem Proc.swapContexts_msgOut : (p.swapContexts save).msgOut = p.msgOut := by simp [Proc.swapContexts]
@[simp] theorem Proc.swapContexts_cryptoOut : (p.swapContexts save).cryptoOut = p.cryptoOut := by simp [Proc.swapContexts]
@[simp] theorem Proc.swapContexts_ctx : (p.swapContexts save).ctx =
    if save then saveRegs p.ctx p.cur p.priv else p.ctx := by
  simp [Proc.swapContexts]
@[simp] theorem Proc.swapContexts_prev : (p.swapContexts save).prev = p.cur := by
  simp [Proc.swapContexts]
@[simp] theorem Proc.swapContexts_cur : (p.swapContexts save).cur = p.next := by
  simp [Proc.swapContexts]
@[simp] theorem Proc.swapContexts_nextValid : (p.swapContexts save).nextValid = false := by
  simp [Proc.swapContexts]
@[simp] theorem Proc.swapContexts_saveCtx : (p.swapContexts save).saveCtx = false := by
  simp [Proc.swapContexts]
@[simp] theorem Proc.swapContexts_pipe : (p.swapContexts save).pipe = [] := by
  simp [Proc.swapContexts]
@[simp] theorem Proc.swapContexts_stall : (p.swapContexts save).stall = { p.stall with cause := .normal } := by
  simp [Proc.swapContexts]

/-- The swap restores the registers from the context area as the save left it; `P[0]` stays. -/
theorem Proc.swapContexts_priv : (p.swapContexts save).priv =
    restoreRegs (p.swapContexts save).ctx p.next p.priv := by
  simp [Proc.swapContexts]

/-- The wakeups and the enable of the new thread are cleared. -/
theorem Proc.swapContexts_threads : (p.swapContexts save).threads = (p.onThread p.next
    (fun b => { b with sync := false, asyncN := false, asyncU := false, aen := false })).threads := by
  simp [Proc.swapContexts]

end

section
variable (s : State) (save : Bool) (ipc : CodeOff)

/-- The swap halts or resumes. -/
theorem State.doSwap_cases :
    s.doSwap save ipc =
      ({ s with self := s.self.swapContexts save } : State).halt .panic ipc (.thread (s.self.swapContexts save).cur) ∨
    s.doSwap save ipc =
      ({ s with self := s.self.swapContexts save } : State).setPc (s.self.swapContexts save).resumePc := by
  unfold State.doSwap
  by_cases h : (s.self.swapContexts save).resumePc = 0
  · exact .inl (if_pos h)
  · exact .inr (if_neg h)

@[simp] theorem State.doSwap_me : (s.doSwap save ipc).me = s.me := by
  rcases s.doSwap_cases save ipc with h | h <;> rw [h] <;> simp
@[simp] theorem State.doSwap_peer : (s.doSwap save ipc).peer = s.peer := by
  rcases s.doSwap_cases save ipc with h | h <;> rw [h] <;> simp
@[simp] theorem State.doSwap_shared : (s.doSwap save ipc).shared = s.shared := by
  rcases s.doSwap_cases save ipc with h | h <;> rw [h] <;> simp
@[simp] theorem State.doSwap_ticks : (s.doSwap save ipc).ticks = s.ticks := by
  rcases s.doSwap_cases save ipc with h | h <;> rw [h] <;> simp
@[simp] theorem State.doSwap_draws : (s.doSwap save ipc).draws = s.draws := by
  rcases s.doSwap_cases save ipc with h | h <;> rw [h] <;> simp
@[simp] theorem State.doSwap_glob : (s.doSwap save ipc).self.glob = s.self.glob := by
  rcases s.doSwap_cases save ipc with h | h <;> rw [h] <;> simp
@[simp] theorem State.doSwap_flags : (s.doSwap save ipc).self.flags = s.self.flags := by
  rcases s.doSwap_cases save ipc with h | h <;> rw [h] <;> simp
@[simp] theorem State.doSwap_cs : (s.doSwap save ipc).self.cs = s.self.cs := by
  rcases s.doSwap_cases save ipc with h | h <;> rw [h] <;> simp
@[simp] theorem State.doSwap_csDepth : (s.doSwap save ipc).self.csDepth = s.self.csDepth := by
  rcases s.doSwap_cases save ipc with h | h <;> rw [h] <;> simp
@[simp] theorem State.doSwap_next : (s.doSwap save ipc).self.next = s.self.next := by
  rcases s.doSwap_cases save ipc with h | h <;> rw [h] <;> simp
@[simp] theorem State.doSwap_noCandidate : (s.doSwap save ipc).self.noCandidate = s.self.noCandidate := by
  rcases s.doSwap_cases save ipc with h | h <;> rw [h] <;> simp
@[simp] theorem State.doSwap_dma : (s.doSwap save ipc).self.dma = s.self.dma := by
  rcases s.doSwap_cases save ipc with h | h <;> rw [h] <;> simp
@[simp] theorem State.doSwap_ramman : (s.doSwap save ipc).self.ramman = s.self.ramman := by
  rcases s.doSwap_cases save ipc with h | h <;> rw [h] <;> simp
@[simp] theorem State.doSwap_hash : (s.doSwap save ipc).self.hash = s.self.hash := by
  rcases s.doSwap_cases save ipc with h | h <;> rw [h] <;> simp
@[simp] theorem State.doSwap_counter : (s.doSwap save ipc).self.counter = s.self.counter := by
  rcases s.doSwap_cases save ipc with h | h <;> rw [h] <;> simp
@[simp] theorem State.doSwap_bbtx : (s.doSwap save ipc).self.bbtx = s.self.bbtx := by
  rcases s.doSwap_cases save ipc with h | h <;> rw [h] <;> simp
@[simp] theorem State.doSwap_bbmsg : (s.doSwap save ipc).self.bbmsg = s.self.bbmsg := by
  rcases s.doSwap_cases save ipc with h | h <;> rw [h] <;> simp
@[simp] theorem State.doSwap_lkReady : (s.doSwap save ipc).self.lkReady = s.self.lkReady := by
  rcases s.doSwap_cases save ipc with h | h <;> rw [h] <;> simp
@[simp] theorem State.doSwap_rmReady : (s.doSwap save ipc).self.rmReady = s.self.rmReady := by
  rcases s.doSwap_cases save ipc with h | h <;> rw [h] <;> simp
@[simp] theorem State.doSwap_timer : (s.doSwap save ipc).self.timer = s.self.timer := by
  rcases s.doSwap_cases save ipc with h | h <;> rw [h] <;> simp
@[simp] theorem State.doSwap_tpause : (s.doSwap save ipc).self.tpause = s.self.tpause := by
  rcases s.doSwap_cases save ipc with h | h <;> rw [h] <;> simp
@[simp] theorem State.doSwap_tchain : (s.doSwap save ipc).self.tchain = s.self.tchain := by
  rcases s.doSwap_cases save ipc with h | h <;> rw [h] <;> simp
@[simp] theorem State.doSwap_ioStore : (s.doSwap save ipc).self.ioStore = s.self.ioStore := by
  rcases s.doSwap_cases save ipc with h | h <;> rw [h] <;> simp
@[simp] theorem State.doSwap_clk : (s.doSwap save ipc).self.clk = s.self.clk := by
  rcases s.doSwap_cases save ipc with h | h <;> rw [h] <;> simp
@[simp] theorem State.doSwap_code : (s.doSwap save ipc).self.code = s.self.code := by
  rcases s.doSwap_cases save ipc with h | h <;> rw [h] <;> simp
@[simp] theorem State.doSwap_sram : (s.doSwap save ipc).self.sram = s.self.sram := by
  rcases s.doSwap_cases save ipc with h | h <;> rw [h] <;> simp
@[simp] theorem State.doSwap_txOut : (s.doSwap save ipc).self.txOut = s.self.txOut := by
  rcases s.doSwap_cases save ipc with h | h <;> rw [h] <;> simp
@[simp] theorem State.doSwap_msgOut : (s.doSwap save ipc).self.msgOut = s.self.msgOut := by
  rcases s.doSwap_cases save ipc with h | h <;> rw [h] <;> simp
@[simp] theorem State.doSwap_cryptoOut : (s.doSwap save ipc).self.cryptoOut = s.self.cryptoOut := by
  rcases s.doSwap_cases save ipc with h | h <;> rw [h] <;> simp
@[simp] theorem State.doSwap_ctx : (s.doSwap save ipc).self.ctx =
    if save then saveRegs s.self.ctx s.self.cur s.self.priv else s.self.ctx := by
  rcases s.doSwap_cases save ipc with h | h <;> rw [h] <;> simp
@[simp] theorem State.doSwap_prev : (s.doSwap save ipc).self.prev = s.self.cur := by
  rcases s.doSwap_cases save ipc with h | h <;> rw [h] <;> simp
@[simp] theorem State.doSwap_cur : (s.doSwap save ipc).self.cur = s.self.next := by
  rcases s.doSwap_cases save ipc with h | h <;> rw [h] <;> simp
@[simp] theorem State.doSwap_nextValid : (s.doSwap save ipc).self.nextValid = false := by
  rcases s.doSwap_cases save ipc with h | h <;> rw [h] <;> simp
@[simp] theorem State.doSwap_saveCtx : (s.doSwap save ipc).self.saveCtx = false := by
  rcases s.doSwap_cases save ipc with h | h <;> rw [h] <;> simp
@[simp] theorem State.doSwap_pipe : (s.doSwap save ipc).self.pipe = [] := by
  rcases s.doSwap_cases save ipc with h | h <;> rw [h] <;> simp
@[simp] theorem State.doSwap_stall : (s.doSwap save ipc).self.stall = { s.self.stall with cause := .normal } := by
  rcases s.doSwap_cases save ipc with h | h <;> rw [h] <;> simp

theorem State.doSwap_priv : (s.doSwap save ipc).self.priv =
    restoreRegs (s.doSwap save ipc).self.ctx s.self.next s.self.priv := by
  rcases s.doSwap_cases save ipc with h | h <;> rw [h] <;> exact Proc.swapContexts_priv _ _

theorem State.doSwap_threads : (s.doSwap save ipc).self.threads = (s.self.swapContexts save).threads := by
  rcases s.doSwap_cases save ipc with h | h <;> rw [h] <;> simp

theorem State.doSwap_priv_zero : (s.doSwap save ipc).self.priv[0] = s.self.priv[0] := by
  simp [State.doSwap_priv, restoreRegs]

/-- A swap resumes at a masked offset, or halts and leaves `pc`. -/
theorem State.doSwap_pc_masked (masked : s.self.pc &&& ~~~Config.pcMask = 0) :
    (s.doSwap save ipc).self.pc &&& ~~~Config.pcMask = 0 := by
  rcases s.doSwap_cases save ipc with h | h <;> rw [h]
  · simpa using masked
  · exact maskPc_masked _

/-- A swap ends no halt. -/
theorem State.doSwap_halted (halted : s.self.halted = true) : (s.doSwap save ipc).self.halted = true := by
  rcases s.doSwap_cases save ipc with h | h <;> rw [h] <;> simp [halted]

end

/-! ## The accelerator tick (R243, R244) -/

/-- What no completion changes. -/
structure CompletionFrame (s t : State) : Prop where
  me : t.me = s.me
  peer : t.peer = s.peer
  ticks : t.ticks = s.ticks
  draws : t.draws = s.draws
  ddr : t.shared.ddr = s.shared.ddr
  psram : t.shared.psram = s.shared.psram
  sem : t.shared.sem = s.shared.sem
  ctrLock : t.shared.ctrLock = s.shared.ctrLock
  priv : t.self.priv = s.self.priv
  glob : t.self.glob = s.self.glob
  ctx : t.self.ctx = s.self.ctx
  pc : t.self.pc = s.self.pc
  flags : t.self.flags = s.self.flags
  cs : t.self.cs = s.self.cs
  csDepth : t.self.csDepth = s.self.csDepth
  pipe : t.self.pipe = s.self.pipe
  prev : t.self.prev = s.self.prev
  cur : t.self.cur = s.self.cur
  next : t.self.next = s.self.next
  nextValid : t.self.nextValid = s.self.nextValid
  saveCtx : t.self.saveCtx = s.self.saveCtx
  noCandidate : t.self.noCandidate = s.self.noCandidate
  stall : t.self.stall = s.self.stall
  timer : t.self.timer = s.self.timer
  tpause : t.self.tpause = s.self.tpause
  tchain : t.self.tchain = s.self.tchain
  halted : t.self.halted = s.self.halted
  haltCause : t.self.haltCause = s.self.haltCause
  haltInfo : t.self.haltInfo = s.self.haltInfo
  clk : t.self.clk = s.self.clk
  code : t.self.code = s.self.code
  cryptoOut : t.self.cryptoOut = s.self.cryptoOut

theorem CompletionFrame.refl (s : State) : CompletionFrame s s := by constructor <;> rfl

theorem CompletionFrame.trans {s t u : State} (h : CompletionFrame s t) (h' : CompletionFrame t u) :
    CompletionFrame s u := by
  constructor
  · exact h'.me.trans h.me
  · exact h'.peer.trans h.peer
  · exact h'.ticks.trans h.ticks
  · exact h'.draws.trans h.draws
  · exact h'.ddr.trans h.ddr
  · exact h'.psram.trans h.psram
  · exact h'.sem.trans h.sem
  · exact h'.ctrLock.trans h.ctrLock
  · exact h'.priv.trans h.priv
  · exact h'.glob.trans h.glob
  · exact h'.ctx.trans h.ctx
  · exact h'.pc.trans h.pc
  · exact h'.flags.trans h.flags
  · exact h'.cs.trans h.cs
  · exact h'.csDepth.trans h.csDepth
  · exact h'.pipe.trans h.pipe
  · exact h'.prev.trans h.prev
  · exact h'.cur.trans h.cur
  · exact h'.next.trans h.next
  · exact h'.nextValid.trans h.nextValid
  · exact h'.saveCtx.trans h.saveCtx
  · exact h'.noCandidate.trans h.noCandidate
  · exact h'.stall.trans h.stall
  · exact h'.timer.trans h.timer
  · exact h'.tpause.trans h.tpause
  · exact h'.tchain.trans h.tchain
  · exact h'.halted.trans h.halted
  · exact h'.haltCause.trans h.haltCause
  · exact h'.haltInfo.trans h.haltInfo
  · exact h'.clk.trans h.clk
  · exact h'.code.trans h.code
  · exact h'.cryptoOut.trans h.cryptoOut

theorem State.wakeOwner_frame (s : State) (wake : Bool) (owner : ThreadId) :
    CompletionFrame s (s.wakeOwner wake owner) := by
  unfold State.wakeOwner
  split <;> constructor <;> rfl

theorem State.completeDma_frame (s : State) (op : DmaOp) : CompletionFrame s (s.completeDma op) := by
  unfold State.completeDma
  simp only
  split <;> constructor <;> rfl

theorem State.completeRamman_frame (s : State) (op : RammanOp) : CompletionFrame s (s.completeRamman op) := by
  unfold State.completeRamman
  constructor <;> rfl

theorem State.completeHash_frame (s : State) (op : HashOp) : CompletionFrame s (s.completeHash op) := by
  unfold State.completeHash
  constructor <;> rfl

theorem State.completeCounter_frame (s : State) (op : CounterOp) : CompletionFrame s (s.completeCounter op) := by
  unfold State.completeCounter
  simp only
  split <;> constructor <;> rfl

theorem State.completeBbtx_frame (s : State) (owner : ThreadId) (op : BbtxOp) :
    CompletionFrame s (s.completeBbtx owner op) := by
  unfold State.completeBbtx
  constructor <;> rfl

theorem State.completeBbmsg_frame (s : State) (owner : ThreadId) (op : BbmsgOp) :
    CompletionFrame s (s.completeBbmsg owner op) := by
  unfold State.completeBbmsg
  constructor <;> simp

/-- A completion changes memories, result registers, output ports, wakeups and queues alone. -/
theorem State.completeHead_frame (s : State) (u : Accel) : CompletionFrame s (s.completeHead u) := by
  have queues : ∀ (dma : Fifo DmaOp) (ramman : Fifo RammanOp) (hash : Fifo HashOp) (counter : Fifo CounterOp)
      (bbtx : Fifo BbtxOp) (bbmsg : Fifo BbmsgOp), CompletionFrame s { s with self :=
        { s.self with dma := dma, ramman := ramman, hash := hash, counter := counter, bbtx := bbtx, bbmsg := bbmsg } } :=
    fun _ _ _ _ _ _ => by constructor <;> rfl
  unfold State.completeHead
  split <;> split
  · exact .refl s
  · exact ((queues _ _ _ _ _ _).trans (State.completeDma_frame _ _)).trans (State.wakeOwner_frame _ _ _)
  · exact .refl s
  · exact ((queues _ _ _ _ _ _).trans (State.completeRamman_frame _ _)).trans (State.wakeOwner_frame _ _ _)
  · exact .refl s
  · exact ((queues _ _ _ _ _ _).trans (State.completeHash_frame _ _)).trans (State.wakeOwner_frame _ _ _)
  · exact .refl s
  · exact ((queues _ _ _ _ _ _).trans (State.completeCounter_frame _ _)).trans (State.wakeOwner_frame _ _ _)
  · exact .refl s
  · exact ((queues _ _ _ _ _ _).trans (State.completeBbtx_frame _ _ _)).trans (State.wakeOwner_frame _ _ _)
  · exact .refl s
  · exact ((queues _ _ _ _ _ _).trans (State.completeBbmsg_frame _ _ _)).trans (State.wakeOwner_frame _ _ _)

theorem accLoop_frame (n : Nat) (s : State) : CompletionFrame s (accLoop n s) := by
  induction n generalizing s with
  | zero => exact .refl s
  | succ n ih =>
    unfold accLoop
    split
    · exact .refl s
    · exact (State.completeHead_frame s _).trans (ih _)

/-- The accelerator tick changes memories, result registers, output ports, wakeups and queues alone. -/
theorem State.accTick_frame (s : State) : CompletionFrame s s.accTick := accLoop_frame _ s

/-- A property that every completion keeps is kept by the accelerator tick. -/
theorem State.accTick_induction {P : State → Prop} {s : State} (h : P s)
    (keeps : ∀ (t : State) (u : Accel), P t → P (t.completeHead u)) : P s.accTick := by
  have loop : ∀ (n : Nat) (t : State), P t → P (accLoop n t) := by
    intro n
    induction n with
    | zero => exact fun _ ht => ht
    | succ n ih =>
      intro t ht
      unfold accLoop
      split
      · exact ht
      · exact ih _ (keeps _ _ ht)
  exact loop _ s h

/-! ## The scheduler tick (R216, R217) -/

/-- The scheduler tick does nothing, or replaces the choice, or replaces it and completes a parked swap. -/
theorem State.schedTick_cases (s : State) :
    s.schedTick = s ∨ s.schedTick = s.arbitrate ∨
    (s.self.stall.cause = .noContext ∧
      s.schedTick = s.arbitrate.doSwap s.arbitrate.self.saveCtx s.arbitrate.self.stall.resumePc) := by
  unfold State.schedTick
  simp only
  split
  · split
    · rename_i h
      have stall : s.arbitrate.self.stall = s.self.stall := by
        unfold State.arbitrate
        split <;> rfl
      exact .inr (.inr ⟨by rw [← stall]; exact h.1, rfl⟩)
    · exact .inr (.inl rfl)
  · exact .inl rfl

/-- An arbitration changes the choice alone. -/
theorem State.arbitrate_eq (s : State) : s.arbitrate = { s with self :=
    { s.self with next := s.arbitrate.self.next, nextValid := s.arbitrate.self.nextValid,
                  noCandidate := s.arbitrate.self.noCandidate } } := by
  unfold State.arbitrate
  split <;> rfl

/-! ## A whole step (R100, R101) -/

/-- The state of a tick of a processor that is not halted. -/
theorem State.runnable_cases (s : State) :
    (s.runnable = s ∧ s.self.halted = false) ∨ (s.runnable = s.passTurn ∧ s.self.halted = true) := by
  unfold State.runnable
  cases h : s.self.halted <;> simp

/-- Everything that a step can do: a processor that is not halted either is parked and runs no instruction, or has
an instruction's effect; the rest of the tick follows. -/
theorem step_cases {s s' : State} (h : step s = .next s') : s.runnable.self.halted = false ∧
    ((s.runnable.self.stall.cause = .noContext ∧ s' = s.runnable.endTick.nextTurn) ∨
     (s.runnable.self.stall.cause ≠ .noContext ∧
      ∃ t, ExecEffect s.runnable t ∧ s' = t.afterInstr.nextTurn)) := by
  unfold step at h
  simp only at h
  split at h
  · cases h
  · rename_i running
    refine ⟨by simpa using running, ?_⟩
    split at h
    · rename_i parked
      cases h
      exact .inl ⟨parked, rfl⟩
    · rename_i fetches
      refine .inr ⟨fetches, ?_⟩
      split at h
      · cases h
        exact ⟨_, .halted .decode s.runnable.ipc (.word s.runnable.word), by simp [State.afterInstr]⟩
      · rename_i i _
        obtain ⟨t, ht⟩ := exec_next i s.runnable
        rw [ht] at h
        cases h
        exact ⟨t, exec_effect ht, rfl⟩

/-- There is a step unless both processors are halted. -/
theorem step_next {s : State} (h : s.self.halted = false ∨ s.peer.halted = false) : ∃ s', step s = .next s' := by
  have running : s.runnable.self.halted = false := by
    rcases s.runnable_cases with ⟨e, hs⟩ | ⟨e, hs⟩ <;> rw [e]
    · exact hs
    · simpa [hs] using h
  unfold step
  simp only [running, Bool.false_eq_true, if_false]
  split
  · exact ⟨_, rfl⟩
  · split
    · exact ⟨_, rfl⟩
    · rename_i i _
      obtain ⟨t, ht⟩ := exec_next i s.runnable
      rw [ht]
      exact ⟨_, rfl⟩

/-- A property of states that each part of a tick keeps is kept by every step. -/
theorem step_keeps {P : State → Prop}
    (turn : ∀ s, P s → P s.passTurn)
    (count : ∀ s n, P s → P { s with ticks := n })
    (instr : ∀ s t, s.self.stall.cause ≠ .noContext → P s → ExecEffect s t → P t)
    (completion : ∀ s u, P s → P (s.completeHead u))
    (choice : ∀ s next valid none, P s → P { s with self :=
      { s.self with next := next, nextValid := valid, noCandidate := none } })
    (swap : ∀ s save ipc, P s → P (s.doSwap save ipc))
    (timers : ∀ s timer, P s → P { s with self := { s.self with timer := timer } })
    (clock : ∀ s, P s → P s.clockTick)
    {s s' : State} (h : P s) (hs : step s = .next s') : P s' := by
  have hr : P s.runnable := by
    rcases s.runnable_cases with ⟨e, -⟩ | ⟨e, -⟩ <;> rw [e]
    · exact h
    · exact turn _ h
  have next : ∀ t, P t → P t.nextTurn := by
    intro t ht
    unfold State.nextTurn
    simp only
    split
    · exact count _ _ ht
    · exact turn _ (count _ _ ht)
  have ends : ∀ t, P t → P t.endTick := by
    intro t ht
    have acc : P t.accTick := State.accTick_induction ht completion
    have arb : P t.accTick.arbitrate := by
      rw [State.arbitrate_eq]
      exact choice _ _ _ _ acc
    have sched : P t.accTick.schedTick := by
      rcases t.accTick.schedTick_cases with e | e | ⟨-, e⟩ <;> rw [e]
      · exact acc
      · exact arb
      · exact swap _ _ _ arb
    unfold State.endTick
    simp only
    split
    · exact sched
    · refine clock _ ?_
      rw [State.timerTick_eq]
      exact timers _ _ sched
  obtain ⟨-, ⟨-, rfl⟩ | ⟨fetches, t, ht, rfl⟩⟩ := step_cases hs
  · exact next _ (ends _ hr)
  · refine next _ ?_
    unfold State.afterInstr
    split
    · exact instr _ _ fetches hr ht
    · exact ends _ (instr _ _ fetches hr ht)

end Sys2Proof.Machine
end

