-- ==== Sys2Proof/Tests/Slice0.lean ====
section
/-! SUPPORT. The model's own tests. Expected values come from the spec: its encodings (30_encoding.md,
opcode_table.json), its vectors (95_test_vectors.md), or a rule worked by hand; and for every obligation
with hypotheses a concrete state that meets them. -/

namespace Sys2Proof.Tests

-- One theorem after another: the whole package is compiled as one text, and a thread for each would not fit.
set_option Elab.async false

open Sys2Proof.Machine

/-! ## Helpers -/

/-- The state after reset with general registers set. -/
def fresh (regs : List (Reg × Word)) : State := regs.foldl (fun s r => s.setReg r.1 r.2) State.reset

/-- The state after reset when processor 0 has the first turn, for tests in which it matters which one ticks. -/
def first0 : State := State.boot .p0 ⟨[], [], []⟩ ⟨[], [], []⟩ []

/-- A state with its ticking processor changed. -/
def onSelf (f : Proc → Proc) (s : State) : State := { s with self := f s.self }

/-- SRAM and common segment of part 2.3 of 95_test_vectors.md, and registers. -/
def filled (regs : List (Reg × Word)) : State :=
  { fresh regs with
    self := { (fresh regs).self with sram := Mem.writeBytes [] 0x200 [0x11, 0x22, 0x33, 0x44, 0x55, 0x66, 0x77, 0x88] }
    shared := { (fresh regs).shared with
      common := Mem.writeBytes [] 0x200 [0xA1, 0xA2, 0xA3, 0xA4, 0xB1, 0xB2, 0xB3, 0xB4] } }

/-- The state of part 2.4: the instruction at 0x0100. -/
def at100 (regs : List (Reg × Word)) : State := onSelf (fun p => { p with pc := 0x0100 }) (fresh regs)

/-- What one instruction word does: a view of the state after it. -/
def after {α : Type} (s : State) (w : Word) (view : State → α) : Option α :=
  match decodeWord w with
  | .error _ => none
  | .ok i =>
    match exec i s with
    | .next t => some (view t)
    | .fault _ => none
    | .refused _ => none

/-- The flags in the order of the vectors: Z N C V. -/
def zncv (s : State) : Bool × Bool × Bool × Bool := (s.self.flags.z, s.self.flags.n, s.self.flags.c, s.self.flags.v)

/-- The halt cause and its record. -/
def haltOf (s : State) : HaltCause × HaltRecord := (s.self.haltCause, s.self.haltInfo)

/-- `pc` and the code offsets of the delay slots. -/
def flow (s : State) : CodeOff × List CodeOff := (s.self.pc, s.self.pipe.map (fun e => e.ipc))

/-! ## Well-formedness: each check refuses an ill-formed term (R88, R95) -/

theorem test_wf_ld : (Instr.ldD 31 1 .b64 0).wellFormed = false ∧ (Instr.ldXI 31 1 .b64 0).wellFormed = false ∧
    (Instr.ldXR 31 1 .b64 2).wellFormed = false := by decide
theorem test_wf_st : (Instr.stD 31 1 .b64 0).wellFormed = false ∧ (Instr.stXI 31 1 .b64 0).wellFormed = false ∧
    (Instr.stXR 31 1 .b64 2).wellFormed = false := by decide
theorem test_wf_ldc : (Instr.ldcD 31 1 .b64 0).wellFormed = false ∧ (Instr.ldcXI 31 1 .b64 0).wellFormed = false ∧
    (Instr.ldcXR 31 1 .b64 2).wellFormed = false := by decide
theorem test_wf_stc : (Instr.stcD 31 1 .b64 0).wellFormed = false ∧ (Instr.stcXI 31 1 .b64 0).wellFormed = false ∧
    (Instr.stcXR 31 1 .b64 2).wellFormed = false := by decide
theorem test_wf_hash : (Instr.hash false .k48 0 0 31).wellFormed = false := by decide
theorem test_wf_bbmsg : (Instr.bbmsg false true 0 0 31).wellFormed = false := by decide
/-- The neighbours that are legal: `r30`, and `r31` where no pair is named. -/
theorem test_wf_legal : (Instr.ldD 30 1 .b64 0).wellFormed = true ∧ (Instr.stXR 31 1 .b32 2).wellFormed = true ∧
    (Instr.bbmsg false false 0 0 31).wellFormed = true := by decide

/-! ## Decoding: one word for every constructor, written out field by field from its encoding in
`spec/opcode_table.json` -/

theorem test_decode_nop : decodeTableWord 32 0b000000_00000000000000000000000000 = some .nop := by decide
theorem test_decode_addR : decodeTableWord 32 0b000001_01011_11111_0_0_1_0_01_11011_00000 =
    some (.addR 11 31 ⟨false, true, false, 1⟩ 27) := by decide
theorem test_decode_addI : decodeTableWord 32 0b000001_10010_00100_1_1_0_0_01_0001011001 =
    some (.addI 18 4 ⟨true, false, false, 1⟩ 89) := by decide
theorem test_decode_subR : decodeTableWord 32 0b000010_01110_00011_0_0_0_1_01_11011_00000 =
    some (.subR 14 3 ⟨false, false, true, 1⟩ 27) := by decide
theorem test_decode_subI : decodeTableWord 32 0b000010_10011_00100_1_0_0_1_01_1111101000 =
    some (.subI 19 4 ⟨false, false, true, 1⟩ 1000) := by decide
theorem test_decode_andR : decodeTableWord 32 0b000011_01000_00010_0_0_1_1_01_10010_00000 =
    some (.andR 8 2 ⟨false, true, true, 1⟩ 18) := by decide
theorem test_decode_andI : decodeTableWord 32 0b000011_00100_10011_1_1_0_0_11_1001001001 =
    some (.andI 4 19 ⟨true, false, false, 3⟩ 585) := by decide
theorem test_decode_orR : decodeTableWord 32 0b000100_10101_00111_0_1_0_0_11_00010_00000 =
    some (.orR 21 7 ⟨true, false, false, 3⟩ 2) := by decide
theorem test_decode_orI : decodeTableWord 32 0b000100_10100_00111_1_1_1_1_10_1001011000 =
    some (.orI 20 7 ⟨true, true, true, 2⟩ 600) := by decide
theorem test_decode_xorR : decodeTableWord 32 0b000101_11110_01111_0_1_1_0_01_10111_00000 =
    some (.xorR 30 15 ⟨true, true, false, 1⟩ 23) := by decide
theorem test_decode_xorI : decodeTableWord 32 0b000101_11001_01000_1_0_1_1_10_1011101011 =
    some (.xorI 25 8 ⟨false, true, true, 2⟩ 747) := by decide
theorem test_decode_mulR : decodeTableWord 32 0b000110_01111_01010_0_0_0_1_01_11001_00000 =
    some (.mulR 15 10 ⟨false, false, true, 1⟩ 25) := by decide
theorem test_decode_mulI : decodeTableWord 32 0b000110_01011_00101_1_1_1_0_11_0001010000 =
    some (.mulI 11 5 ⟨true, true, false, 3⟩ 80) := by decide
theorem test_decode_movi : decodeTableWord 32 0b000111_11001_1_1_000_1011000111111111 =
    some (.movi 25 true true 45567) := by decide
theorem test_decode_sllR : decodeTableWord 32 0b001000_01100_10100_000_000_10000_00000 =
    some (.sllR 12 20 16) := by decide
theorem test_decode_sllI : decodeTableWord 32 0b001000_10011_11010_001_00000000_01111 =
    some (.sllI 19 26 15) := by decide
theorem test_decode_srlR : decodeTableWord 32 0b001000_00011_11011_010_000_11111_00000 =
    some (.srlR 3 27 31) := by decide
theorem test_decode_srlI : decodeTableWord 32 0b001000_01001_10000_011_00000000_10111 =
    some (.srlI 9 16 23) := by decide
theorem test_decode_sraR : decodeTableWord 32 0b001000_10110_00011_100_000_00010_00000 =
    some (.sraR 22 3 2) := by decide
theorem test_decode_sraI : decodeTableWord 32 0b001000_11000_10111_101_00000000_01010 =
    some (.sraI 24 23 10) := by decide
theorem test_decode_insert : decodeTableWord 32 0b001001_10101_10011_10110_11011_000000 =
    some (.insert 21 19 22 27) := by decide
theorem test_decode_extract : decodeTableWord 32 0b001010_01111_01010_10111_01101_000000 =
    some (.extract 15 10 23 13) := by decide
theorem test_decode_sext8 : decodeTableWord 32 0b001011_11101_10110_00_00000000000000 = some (.sext8 29 22) := by decide
theorem test_decode_sext16 : decodeTableWord 32 0b001011_01100_00001_01_00000000000000 =
    some (.sext16 12 1) := by decide
theorem test_decode_ldD : decodeTableWord 32 0b001100_11111_01111_10_00_001010110001 =
    some (.ldD 31 15 .b32 689) := by decide
theorem test_decode_ldXI : decodeTableWord 32 0b001100_10100_00100_10_01_000011110010 =
    some (.ldXI 20 4 .b32 242) := by decide
theorem test_decode_ldXR : decodeTableWord 32 0b001100_00111_11001_10_10_0000000_00101 =
    some (.ldXR 7 25 .b32 5) := by decide
theorem test_decode_stD : decodeTableWord 32 0b001101_11000_01000_10_00_011001000010 =
    some (.stD 24 8 .b32 1602) := by decide
theorem test_decode_stXI : decodeTableWord 32 0b001101_11110_11100_10_01_000101001011 =
    some (.stXI 30 28 .b32 331) := by decide
theorem test_decode_stXR : decodeTableWord 32 0b001101_00110_01111_10_10_0000000_10010 =
    some (.stXR 6 15 .b32 18) := by decide
theorem test_decode_ldcD : decodeTableWord 32 0b001110_01001_11101_01_00_110100011100 =
    some (.ldcD 9 29 .b16 3356) := by decide
theorem test_decode_ldcXI : decodeTableWord 32 0b001110_01110_11100_11_01_010001110101 =
    some (.ldcXI 14 28 .b64 1141) := by decide
theorem test_decode_ldcXR : decodeTableWord 32 0b001110_10111_01110_10_10_0000000_10110 =
    some (.ldcXR 23 14 .b32 22) := by decide
theorem test_decode_stcD : decodeTableWord 32 0b001111_11101_01101_01_00_001001101011 =
    some (.stcD 29 13 .b16 619) := by decide
theorem test_decode_stcXI : decodeTableWord 32 0b001111_00011_00110_01_01_001110110111 =
    some (.stcXI 3 6 .b16 951) := by decide
theorem test_decode_stcXR : decodeTableWord 32 0b001111_10110_01000_01_10_0000000_10000 =
    some (.stcXR 22 8 .b16 16) := by decide
theorem test_decode_cmpjR : decodeTableWord 32 0b010000_01_1_10_00101_0_01110_1000100100 =
    some (.cmpjR 1 true .bitOr 5 14 548) := by decide
theorem test_decode_cmpjI : decodeTableWord 32 0b010000_10_1_01_10111_1_11100_1000010000 =
    some (.cmpjI 2 true .gt 23 28 528) := by decide
theorem test_decode_bz : decodeTableWord 32 0b010001_01_1_10_01101_0110011000100100 =
    some (.bz 1 true .high 13 26148) := by decide
theorem test_decode_ctxswap : decodeTableWord 32 0b010010_1_0000000000000000000000000 =
    some (.ctxswap true) := by decide
theorem test_decode_hash : decodeTableWord 32 0b010011_0_1_10_01_00111_000000000000000 =
    some (.hash false .k60 2 1 7) := by decide
theorem test_decode_crc : decodeTableWord 32 0b010100_0_0_01_10_00110_00000_0001110001 =
    some (.crc false 1 2 6 113) := by decide
theorem test_decode_cam : decodeTableWord 32 0b010100_1_1_11_01_00100_10011_0000000000 =
    some (.cam true 3 1 4 19) := by decide
theorem test_decode_bbtx : decodeTableWord 32 0b010101_0_0_1_10100_00000000_0000011011 =
    some (.bbtx false false true 20 27) := by decide
theorem test_decode_bbmsg : decodeTableWord 32 0b010110_0_0_1010_0111_00101_00000000000 =
    some (.bbmsg false false 10 7 5) := by decide
theorem test_decode_ffi : decodeTableWord 32 0b010111_10101_01001_0000000000000000 = some (.ffi 21 9) := by decide
theorem test_decode_ichk : decodeTableWord 32 0b011000_11111_01100_000000_10100_00000 =
    some (.ichk 31 12 20) := by decide
theorem test_decode_cnt : decodeTableWord 32 0b011001_1_1_0_0_0_11100_00000000_01111101 =
    some (.cnt true true false false 28 125) := by decide
theorem test_decode_crypto : decodeTableWord 32 0b011010_1_1_000_10000_000000_0101000000 =
    some (.crypto true true 16 320) := by decide
theorem test_decode_ret : decodeTableWord 32 0b011011_00000000000000000000000000 = some .ret := by decide
theorem test_decode_jmp : decodeTableWord 32 0b111010_01_0_001_0_11000_01011_101111100 =
    some (.jmp 1 false .zero 24 11 380) := by decide
theorem test_decode_jmpr : decodeTableWord 32 0b111010_10_1_010_1_10001_00111_0000_11111 =
    some (.jmpr 2 true .less 17 7 31) := by decide
theorem test_decode_ljmp : decodeTableWord 32 0b111011_10_0_0_000000_1011000010101001 =
    some (.ljmp 2 false 45225) := by decide
theorem test_decode_lcall : decodeTableWord 32 0b111011_01_1_1_000000_1111101010000000 =
    some (.lcall 1 true 64128) := by decide
theorem test_decode_dmard : decodeTableWord 32 0b111100_0_1_10001_01100_0000_1110100011 =
    some (.dmard false true 17 12 931) := by decide
theorem test_decode_dmawr : decodeTableWord 32 0b111101_0_1_11001_01000_0000_1000100010 =
    some (.dmawr false true 25 8 546) := by decide
theorem test_decode_dmal : decodeTableWord 32 0b111110_1_11_01000_10100_11010_00000000 =
    some (.dmal true 3 8 20 26) := by decide

/-- Ignored bits do not matter (R89): NOP, ADD in register form and DMARD with every ignored bit set. -/
theorem test_decode_ignored_bits :
    decodeTableWord 32 0b000000_11111111111111111111111111 = some .nop ∧
    decodeTableWord 32 0b000001_00001_00010_0_0_0_0_00_00011_11111 =
      some (.addR 1 2 ⟨false, false, false, 0⟩ 3) ∧
    decodeTableWord 32 0b111100_0_0_00001_00010_1111_0000000001 = some (.dmard false false 1 2 1) := by decide

/-- The words of part 2.5 have no instruction. -/
theorem test_decode_illegal : ∀ w ∈ ([0x70000000, 0xE4000000, 0xFC000000, 0xFFFFFFFF, 0xEB000000, 0xE8500000,
    0x44600000,
    0x2022C000, 0x2C228000, 0x30223000, 0x33E2C000, 0x37E2C000, 0x4CC00000, 0x4C0F8000, 0x5900F800] : List Nat),
    decodeTableWord 32 w = none := by decide

/-- `withFetchWord` places a word where the next step fetches it. -/
theorem test_fetch_word : (State.reset.withFetchWord 32 0x0464C001).word = 0x0464C001 := by decide

/-! ## One step: part 2.1 -/

theorem test_addR_carries : after (fresh [(2, 0xFFFFFFFF), (3, 1)]) 0x04224060 (fun t => (t.reg 1, zncv t)) =
    some (0, true, false, true, true) := by decide
theorem test_addI_zero_extends : after (fresh [(2, 1)]) 0x0422C3FF (fun t => (t.reg 1, zncv t)) =
    some (0x400, false, false, false, false) := by decide
theorem test_addI_drops_r0 : after (fresh [(2, 0xFFFFFFFF)]) 0x0402C001 (fun t => (t.reg 0, zncv t)) =
    some (0, true, false, true, true) := by decide
theorem test_subR_borrows : after (fresh [(2, 3), (3, 5)]) 0x08224060 (fun t => (t.reg 1, zncv t)) =
    some (0xFFFFFFFE, false, true, true, true) := by decide
theorem test_subI_inverted : after (fresh []) 0x0822E001 (fun t => (t.reg 1, zncv t)) =
    some (2, false, false, true, true) := by decide
theorem test_andR : after (fresh [(2, 0xF0F0F0F0), (3, 0x0F0F0F0F)]) 0x0C224060 (fun t => (t.reg 1, zncv t)) =
    some (0, true, false, false, false) := by decide
theorem test_andI_lsl8 : after (fresh [(2, 0x12345678)]) 0x0C2284FF (fun t => (t.reg 1, zncv t)) =
    some (0x5600, false, false, false, false) := by decide
theorem test_orR_inverted : after (fresh [(2, 0xFF00), (3, 0xFFFFFF00)]) 0x10226060 (fun t => (t.reg 1, zncv t)) =
    some (0xFFFF, false, false, false, false) := by decide
theorem test_orR_lsr16 : after (fresh [(2, 1), (3, 0xABCD0000)]) 0x10221860 (fun t => t.reg 1) = some 0xABCD := by
  decide
/-- R125 by hand: 0x1 or 0x3FF. -/
theorem test_orI : after (fresh [(2, 0x400)]) 0x102283FF (fun t => (t.reg 1, t.self.pc)) = some (0x7FF, 4) := by decide
theorem test_xorR_same : after (fresh [(9, 0xDEADBEEF)]) 0x15294120 (fun t => (t.reg 9, zncv t)) =
    some (0, true, false, false, false) := by decide
theorem test_xorI_not : after (fresh [(2, 0x0F0F0F0F)]) 0x1422A000 (fun t => t.reg 1) = some 0xF0F0F0F0 := by decide
theorem test_mulR_overflows : after (fresh [(2, 0x10000), (3, 0x10000)]) 0x18224060 (fun t => (t.reg 1, zncv t)) =
    some (0, true, false, false, true) := by decide
theorem test_mulI_sets_v : after (fresh [(2, 0x80000001)]) 0x18228003 (fun t => (t.reg 1, zncv t)) =
    some (0x80000003, false, false, false, true) := by decide

/-! ## One step: part 2.2 -/

theorem test_movi_clears : after (fresh [(5, 0xAAAABBBB)]) 0x1CA81234 (fun t => t.reg 5) = some 0x1234 := by decide
theorem test_movi_high_keeps : after (fresh [(5, 0xAAAABBBB)]) 0x1CB01234 (fun t => t.reg 5) = some 0x1234BBBB := by
  decide
/-- R141 by hand: the amount is 33 mod 32. -/
theorem test_sllR : after (fresh [(2, 0xF000000F), (3, 33)]) 0x20220060 (fun t => t.reg 1) = some 0xE000001E := by
  decide
theorem test_sllI : after (fresh [(2, 0xF000000F)]) 0x20222004 (fun t => t.reg 1) = some 0xF0 := by decide
theorem test_srlR : after (fresh [(2, 0x80000000), (3, 0x24)]) 0x20224060 (fun t => t.reg 1) = some 0x08000000 := by
  decide
theorem test_srlI : after (fresh [(2, 0x80000000)]) 0x2022601F (fun t => t.reg 1) = some 1 := by decide
/-- R143 by hand: arithmetic shift right by 0x3F mod 32 = 31. -/
theorem test_sraR : after (fresh [(2, 0x80000000), (3, 0x3F)]) 0x20228060 (fun t => t.reg 1) = some 0xFFFFFFFF := by
  decide
theorem test_sraI : after (fresh [(2, 0xFFFFFF0F)]) 0x2022A004 (fun t => t.reg 1) = some 0xFFFFFFF0 := by decide
theorem test_extract_past_end : after (fresh [(2, 0xA2345678)]) 0x2822E1C0 (fun t => t.reg 1) = some 0xA := by decide
theorem test_insert : after (fresh [(1, 0xFFFFFFFF), (2, 0xABC)]) 0x242222C0 (fun t => t.reg 1) = some 0xFFFFABCF := by
  decide
theorem test_insert_past_end : after (fresh [(1, 0x11111111), (2, 0xAB)]) 0x2422E1C0 (fun t => t.reg 1) =
    some 0xB1111111 := by decide
theorem test_sext8 : after (fresh [(2, 0x12345680)]) 0x2C220000 (fun t => t.reg 1) = some 0xFFFFFF80 := by decide
theorem test_sext16 : after (fresh [(2, 0x12348000)]) 0x2C224000 (fun t => t.reg 1) = some 0xFFFF8000 := by decide
theorem test_ffi : after (fresh [(2, 0xA00)]) 0x5C220000 (fun t => t.reg 1) = some 9 := by decide
theorem test_ffi_none : after (fresh []) 0x5C220000 (fun t => t.reg 1) = some 32 := by decide
theorem test_nop_wraps : after (onSelf (fun p => { p with pc := 0x7FFC }) (fresh [])) 0 (fun t => t.self.pc) = some 0 :=
  by decide
theorem test_ichk_drops_r0 : after (fresh [(2, 1), (3, 2)]) 0x60020060 (fun t => t.reg 0) = some 0 := by decide

/-! ## One step: part 2.3 -/

theorem test_ldD_16 : after (filled [(2, 0x200)]) 0x30224002 (fun t => t.reg 1) = some 0x3344 := by decide
theorem test_ldD_64_crosses : after (filled [(2, 0x200)]) 0x32E2C000 (fun t => (t.reg 23, t.reg 24)) =
    some (0x11223344, 0x55667788) := by decide
theorem test_ldXI_16 : after (filled [(2, 0x200)]) 0x30225003 (fun t => t.reg 1) = some 0x7788 := by decide
theorem test_ldXR_32 : after (filled [(2, 0x200), (3, 1)]) 0x3022A003 (fun t => t.reg 1) = some 0x55667788 := by decide
theorem test_ldcD_8 : after (filled [(2, 0x200)]) 0x38220003 (fun t => t.reg 1) = some 0xA4 := by decide
theorem test_ldcXI_64 : after (filled [(2, 0x200)]) 0x3882D000 (fun t => (t.reg 4, t.reg 5)) =
    some (0xA1A2A3A4, 0xB1B2B3B4) := by decide
/-- R161, R165 by hand: element 1 of 32-bit words. -/
theorem test_ldcXR_32 : after (filled [(2, 0x200), (3, 1)]) 0x3822A003 (fun t => t.reg 1) = some 0xB1B2B3B4 := by decide
theorem test_stD_8_negative : after (filled [(1, 0xAABBCCDD), (2, 0x204)]) 0x34220FFF
    (fun t => t.self.sram.readBytes 0x200 5) = some [0x11, 0x22, 0x33, 0xDD, 0x55] := by decide
theorem test_stD_64 : after (filled [(4, 0x01020304), (5, 0x05060708), (2, 0x200)]) 0x3482C000
    (fun t => t.self.sram.readBytes 0x200 9) = some [1, 2, 3, 4, 5, 6, 7, 8, 0] := by decide
/-- R161, R164 by hand: element 1 of 16-bit data. -/
theorem test_stXI_16 : after (filled [(1, 0xAABBCCDD), (2, 0x200)]) 0x34225001
    (fun t => t.self.sram.readBytes 0x200 5) = some [0x11, 0x22, 0xCC, 0xDD, 0x55] := by decide
/-- R161, R164 by hand: element 3 of bytes. -/
theorem test_stXR_8 : after (filled [(1, 0xAABBCCDD), (2, 0x200), (3, 3)]) 0x34222003
    (fun t => t.self.sram.readBytes 0x200 5) = some [0x11, 0x22, 0x33, 0xDD, 0x55] := by decide
theorem test_stcXR_16 : after (filled [(1, 0xAABBCCDD), (2, 0x200), (3, 3)]) 0x3C226003
    (fun t => t.shared.common.readBytes 0x200 8) = some [0xA1, 0xA2, 0xA3, 0xA4, 0xB1, 0xB2, 0xCC, 0xDD] := by decide
theorem test_stcXI_32 : after (filled [(1, 0xAABBCCDD), (2, 0x200)]) 0x3C229001
    (fun t => t.shared.common.readBytes 0x200 8) = some [0xA1, 0xA2, 0xA3, 0xA4, 0xAA, 0xBB, 0xCC, 0xDD] := by decide
theorem test_stcD_64_fatal : after (filled [(4, 1), (5, 2), (2, 0xFFFC)]) 0x3C82C000
    (fun t => (haltOf t, t.shared.common.readBytes 0xFFFC 4)) =
    some ((.access, ⟨0, 0, .address 0xFFFC⟩), [0, 0, 0, 0]) := by decide

/-! ## One step: part 2.4 -/

theorem test_jmp_ds2 : after (at100 []) 0xEA000004 flow = some (0x0110, [0x0104, 0x0108]) := by decide
theorem test_jmp_bit_inverted : after (at100 [(5, 0x7FFFFFFF)]) 0xE8C17E02 flow = some (0x0108, []) := by decide
theorem test_jmpr : after (at100 [(9, 0x12345679)]) 0xE9080009 flow = some (0x5678, [0x0104]) := by decide
theorem test_ljmp_masked : after (at100 []) 0xEC00FFFF flow = some (0x7FFC, []) := by decide
theorem test_lcall : after (at100 []) 0xEE400040 (fun t => (flow t, t.self.csDepth, t.self.cs[0])) =
    some ((0x0040, [0x0104, 0x0108]), 1, 0x010C) := by decide
theorem test_lcall_full : after (onSelf (fun p => { p with csDepth := 4 }) (at100 [])) 0xEC400040
    (fun t => (haltOf t, t.self.pc)) = some ((.stack, ⟨0, 0x0100, .push⟩), 0x0100) := by decide
theorem test_ret : after (onSelf (fun p => { p with csDepth := 2, cs := p.cs.set 1 0x0020 }) (at100 [])) 0x6C000000
    (fun t => (flow t, t.self.csDepth)) = some ((0x0020, [0x0104, 0x0108]), 1) := by decide
theorem test_ret_empty : after (at100 []) 0x6C000000 haltOf = some (.stack, ⟨0, 0x0100, .pop⟩) := by decide
theorem test_bz_inverted : after (at100 [(7, 1)]) 0x4587FFFE flow = some (0x00F8, [0x0104]) := by decide
theorem test_bz_high : after (at100 [(7, 0xFFFF)]) 0x44470005 flow = some (0x0114, []) := by decide
theorem test_cmpjR_unsigned : after (at100 [(1, 0x80000000), (2, 1)]) 0x40210803 flow = some (0x010C, []) := by decide
theorem test_cmpjI_inverted : after (at100 [(1, 7)]) 0x40A19FFE flow = some (0x00F8, []) := by decide

/-! ## One step: part 2.6. The latency is open, so the queued operation is compared without its clock. -/

theorem test_dmard_last_word : after (fresh [(1, 0xBFFC), (2, 0x1000)]) 0xF0088001
    (fun t => t.self.dma.entries.map (fun e => (e.owner, e.wake, e.payload))) =
    some [(0, false, ⟨.rd, 0xBFFC, 0x1000, 1⟩)] := by decide
theorem test_dmard_fatal : after (fresh [(1, 0x202), (2, 0x1000)]) 0xF0088001 haltOf =
    some (.access, ⟨0, 0, .address 0x202⟩) := by decide
theorem test_dmawr_fatal : after (fresh [(1, 0x200), (2, 0xFFFC)]) 0xF4088002 haltOf =
    some (.access, ⟨0, 0, .address 0xFFFC⟩) := by decide
theorem test_dmawr_queues : after (fresh [(1, 0x200), (2, 0x1000)]) 0xF6088001
    (fun t => t.self.dma.entries.map (fun e => (e.wake, e.payload))) = some [(true, ⟨.wr, 0x200, 0x1000, 1⟩)] := by
  decide
theorem test_dmal : after (fresh [(1, 0x300), (2, 0x4000), (3, 5)]) 0xFB044300
    (fun t => t.self.dma.entries.map (fun e => (e.wake, e.payload))) = some [(true, ⟨.lk, 0x300, 0x4050, 4⟩)] := by
  decide
theorem test_hash_60 : after (fresh [(10, 0xABCD1234), (11, 0x55667788)]) 0x4F650000
    (fun t => (t.self.hash.entries.map (fun e => e.payload), t.self.lkReady[1][2], t.self.lkReady[1][1])) =
    some ([⟨1, 2, .k60, 0x0BCD123455667788⟩], false, true) := by decide
theorem test_hash_48 : after (fresh [(10, 0xABCD1234), (11, 0x55667788)]) 0x4C050000
    (fun t => t.self.hash.entries.map (fun e => e.payload)) = some [⟨0, 0, .k48, 0x123455667788⟩] := by decide
theorem test_crc : after (fresh [(1, 0x400)]) 0x50408003
    (fun t => (t.self.ramman.entries.map (fun e => e.payload), t.self.rmReady[1], t.self.rmReady[0])) =
    some ([.crc 1 0 0x400 3], false, true) := by decide
/-- R256 by hand: slot 2, table size operand 1, key in r3, mask in r4. -/
theorem test_cam : after (fresh [(3, 0xAA), (4, 0xF0)]) 0x51919000
    (fun t => (t.self.ramman.entries.map (fun e => e.payload), t.self.rmReady[2])) =
    some ([.cam 2 0xAA 0xF0 1], false) := by decide
theorem test_cnt : after (fresh [(3, 0x100)]) 0x658300FF (fun t => t.self.counter.entries.map (fun e => e.payload)) =
    some [⟨0x100, true, true, false, 255⟩] := by decide
theorem test_bbtx_inc : after (fresh [(6, 0x1000)]) 0x57980006
    (fun t => (t.reg 6, t.self.bbtx.entries.map (fun e => (e.wake, e.payload)))) =
    some (0x1006, [(true, ⟨0x1000, 6, true⟩)]) := by decide
theorem test_bbmsg_64 : after (fresh [(8, 0x11111111), (9, 0x22222222)]) 0x59324000
    (fun t => t.self.bbmsg.entries.map (fun e => e.payload)) = some [⟨true, 3, 2, 0x11111111, 0x22222222⟩] := by decide
theorem test_bbmsg_32 : after (fresh [(8, 0x11111111), (9, 0x22222222)]) 0x5AFF4000
    (fun t => t.self.bbmsg.entries.map (fun e => e.payload)) = some [⟨false, 15, 15, 0x11111111, 0⟩] := by decide
theorem test_crypto : after (onSelf (fun p => { p with sram := Mem.writeBytes [] 0x801 [1, 2, 3, 4, 5, 6, 7] })
      (fresh [(2, 0x800)])) 0x6A020005 (fun t => t.self.cryptoOut) = some [⟨0, true, false, [0, 1, 2, 3, 4], 5⟩] := by
  decide

/-- A10: the counter at 0x100 holding 00 02, decremented by 5, wraps. -/
theorem test_counter_wraps : (({ State.reset with shared := { State.reset.shared with common := [(0x101, 2)] } } :
    State).completeCounter ⟨0x100, true, false, false, 5⟩).shared.common.readBytes 0x100 4 = [0xFF, 0xFD, 0, 0] := by
  decide
/-- P4 and A9: CRC-32 of 12 34 56 78. -/
theorem test_crc_value : (onSelf (fun p => { p with sram := Mem.writeBytes [] 0x400 [0x12, 0x34, 0x56, 0x78] })
    State.reset).rammanResult (.crc 2 0 0x400 1) = 0x207575D4 := by decide +kernel

/-! ## One step: part 2.7 -/

/-- Thread 0 about to run the CTXSWAP of C2 at 0x0044, its shadow in place. -/
def c2 : State := onSelf (fun p =>
    { p with
      pc := 0x0044
      next := 3
      nextValid := true
      code := ((Mem.write32 [] 0x44 0x4A000000).write32 0x48 0x1E180080).write32 0x4C 0
      ctx := (Mem.write32 [] (4 * (72 + 16)) 0x01000000).write32 (4 * (72 + 5)) 0x55 }) State.reset

/-- C2; and P3 at 0x0C, where nobody is chosen, so that the processor parks. -/
theorem test_ctxswap :
    after c2 0x4A000000
      (fun t => (t.self.cur, t.self.prev, t.self.pc, t.reg 5, t.self.ctx.read32 64, t.self.nextValid)) =
      some (3, 0, 0x0100, 0x55, 0x00800000, false) ∧
    after (onSelf (fun p => { p with pc := 0x0C, code := Mem.write32 [] 0x10 0x1E180020 }) State.reset) 0x4A000000
      (fun t => (t.self.stall, t.self.saveCtx, t.self.pc, t.reg 16)) =
      some (⟨.noContext, 0, 0x18, none⟩, true, 0x18, 0x200000) :=
  ⟨by decide +kernel, by decide⟩

/-- C3: the second shadow instruction is a BZ; the first took effect. -/
theorem test_shadow_halts : after (onSelf (fun p =>
      { p with code := (Mem.write32 [] 4 0x1C280007).write32 8 0x44000002 }) State.reset) 0x4A000000
    (fun t => (haltOf t, t.reg 1)) = some ((.shadow, ⟨0, 0, .word 0x44000002⟩), 7) := by decide

/-- Scheduler bits: thread 9 sync, thread 4 urgent (enabled or not), thread 2 normal and enabled (C1). -/
def c1 (enabled : Bool) : Vector ThreadBits 32 :=
  (((Vector.replicate 32 ⟨false, false, false, false, false⟩).set 9 ⟨true, false, false, false, false⟩).set 4
    ⟨false, false, true, false, enabled⟩).set 2 ⟨false, true, false, false, true⟩

theorem test_arbitration_urgent : chooseThread (c1 true) = some 4 := by decide
theorem test_arbitration_sync_first : chooseThread (c1 false) = some 9 := by decide

/-- C4: thread 2 has no resume address. -/
theorem test_panic : (fun t : State => (haltOf t, t.self.cur, t.self.prev, t.self.ctx.read32 4)) (onSelf (fun p =>
      { p with clk := 16, next := 2, nextValid := true }) (fresh [(1, 0xC004)]) |>.doSwap true 0x18) =
    ((.panic, ⟨16, 0x18, .thread 2⟩), 2, 0, 0xC004) := by decide +kernel

/-! ## One step: part 2.8 -/

theorem test_wakeup_store : (State.reset.ioStoreWord 1 0x120).self.threads[0] = ⟨false, false, true, false, false⟩ := by
  decide
theorem test_thread_wakeup : (State.reset.ioStoreWord 69 0xFFE8).ioLoad 69 = some 8 := by decide
theorem test_timer_chain : (onSelf (fun p => { p with timer := ((p.timer.set 0 0xFFFF).set 1 5).set 2 7, tchain := 1 })
    State.reset).timerTick.self.timer.toList = [0, 6, 8, 1] := by decide
theorem test_timer_ctrl : ((onSelf (fun p => { p with timer := (p.timer.set 0 4).set 1 4 }) State.reset).ioStoreWord 6
    0x112).ioLoad 6 = some 0x102 := by decide
/-- P6: acquire semaphore 3, status as the holder sees it. -/
theorem test_semaphore : (first0.ioStoreWord 2 0x0B).ioLoad 3 = some 0x808 := by decide
theorem test_counter_lock : (first0.ioStoreWord 12 1).ioLoad 12 = some 1 ∧
    (first0.ioStoreWord 12 1).passTurn.ioLoad 12 = some 2 := by decide
/-- I5: read-only registers ignore stores; an unnamed offset keeps all bits. -/
theorem test_storage : (State.reset.ioStoreWord 255 0xDEADBEEF).ioLoad 255 = some 0xDEADBEEF ∧
    (State.reset.ioStoreWord 8 0xFFFFFFFF).ioLoad 8 = some 0 := by decide

/-! ## Invariants at reset -/

theorem reset_memory_canonical : State.reset.MemoryCanonical := by decide
theorem reset_structured : State.reset.Structured := by decide
theorem reset_timely : State.reset.Timely := by decide
theorem reset_in_range : State.reset.InRange := by decide

/-! ## Hypotheses that are met: one concrete state or operand for each obligation that has some -/

/-- A processor at rest in reset whose queues hold one DMA operation and one counter operation. -/
def busy : State := onSelf (fun p =>
    { p with
      dma := ⟨[⟨3, 1, true, ⟨.rd, 0xBFFC, 0xFFFC, 1⟩⟩], 1⟩
      counter := ⟨[⟨4, 2, false, ⟨0xFFFE, true, false, true, 1⟩⟩], 1⟩ }) State.reset

/-- A processor that waits for a context. -/
def parked (clk : Nat) : State := onSelf (fun p =>
    { p with clk := clk, stall := ⟨.noContext, 0, 0x18, none⟩ }) State.reset

theorem witness_DecodeOfEncodeIsIdentity : (Instr.hash true .k60 2 3 30).wellFormed = true := by decide

theorem witness_DecodeLosesOnlyIgnoredBits : decodeWord 0x03FFFFFF = .ok .nop := by decide

theorem witness_IllegalWordsAreFatalDecode :
    let s := State.reset.withFetchWord 32 0xFC000000
    s.self.halted = false ∧ s.self.stall.cause ≠ .noContext ∧ IllegalWord s.word := by decide

theorem witness_FieldIsShiftedAndCut : ((0 : Nat) < 32 ∧ 32 ≤ 32) ∧ ((31 : Nat) < 32 ∧ 32 ≤ 32) := by decide

theorem witness_StepRunsTheDecodedInstruction :
    (State.reset.self.halted = false ∧ State.reset.self.stall.cause ≠ .noContext ∧
      decodeWord State.reset.word = .ok .nop ∧ ∃ t, exec .nop State.reset = .next t) ∧
    ((parked 1).self.halted = false ∧ (parked 1).self.stall.cause = .noContext) ∧
    (let s := onSelf (fun p => { p with halted := true }) State.reset
     s.self.halted = true ∧ s.peer.halted = false) :=
  ⟨⟨by decide, by decide, by decide, _, rfl⟩, by decide, by decide⟩

theorem witness_OtherProcessorOnlyWoken :
    let s := first0.passTurn.halt .decode 0 .nothing |>.passTurn
    (∃ s', step s = .next s') ∧ (s.proc .p1).halted = true ∧ (s.proc .p0).halted = false :=
  ⟨⟨_, rfl⟩, by decide, by decide⟩

theorem witness_ParkedProcessorRunsNothing :
    ((parked 1).self.halted = false ∧ (parked 1).self.stall.cause = .noContext ∧
      (parked 1).self.clk % Config.schedPeriod ≠ 0 ∧ ∃ s', step (parked 1) = .next s') ∧
    ((parked 16).self.halted = false ∧ (parked 16).self.stall.cause = .noContext ∧
      chooseThread (parked 16).accTick.self.threads = none ∧ ∃ s', step (parked 16) = .next s') :=
  ⟨⟨by decide, by decide, by decide, _, rfl⟩, by decide, by decide, by decide +kernel, _, rfl⟩

theorem witness_CodeIsNeverWritten :
    let s := onSelf (fun p => { p with pc := 0x0110, pipe := [⟨0, 0x0104⟩] }) first0
    (∃ s', step s = .next s') ∧ ∀ q, (s.proc q).PipeIsCode :=
  ⟨⟨_, rfl⟩, fun q => by cases q <;> decide⟩

/-- For the four invariants at once: operations queued, whose addresses end at the last byte of their spaces; and a
halted processor whose queued clocks, still in order, are in the past. -/
theorem witness_StepKeepsInvariants :
    (busy.MemoryCanonical ∧ busy.Structured ∧ busy.Timely ∧ busy.InRange ∧ ∃ s', step busy = .next s') ∧
    (let s := onSelf (fun p => { p with halted := true, clk := 99 }) busy
     s.Timely ∧ ¬s.self.dma.NotPast s.self.clk ∧ ∃ s', step s = .next s') :=
  ⟨⟨by decide, by decide, by decide, by decide, _, rfl⟩, by decide, by decide, _, rfl⟩

theorem witness_ResetValuesAreTheTables : (3071 : Nat) < Config.ctxBytes ∧ (32767 : Nat) < Config.codeBytes ∧
    (49151 : Nat) < Config.sramBytes ∧ (65535 : Nat) < Config.commonBytes := by decide

theorem witness_ShiftsMoveEveryBit : ((fresh [(3, 0xFFFFFFFF)]).reg 3).toNat % 32 = 31 := by decide

theorem witness_DataSpaceIsChosenByAddress :
    (0x201#32).toNat % min (Size.bytes .b16) 4 ≠ 0 ∧
    ((0xBFF8#32).toNat % min (Size.bytes .b64) 4 = 0 ∧ (0xBFF8#32).toNat + Size.bytes .b64 ≤ 0xC000) ∧
    ((0xC3FC#32).toNat % min (Size.bytes .b32) 4 = 0 ∧ 0xC000 < (0xC3FC#32).toNat + Size.bytes .b32 ∧
      0xC000 ≤ (0xC3FC#32).toNat ∧ (0xC3FC#32).toNat ≤ 0xC3FC) ∧
    ((0xBFFC#32).toNat % min (Size.bytes .b64) 4 = 0 ∧ 0xC000 < (0xBFFC#32).toNat + Size.bytes .b64) ∧
    ((0xC400#32).toNat % min (Size.bytes .b32) 4 = 0 ∧ 0xC000 < (0xC400#32).toNat + Size.bytes .b32 ∧
      ¬(0xC400#32).toNat ≤ 0xC3FC) := by decide

/-- The last pair of SRAM words, in each addressing form. -/
theorem witness_LdLoadsFromSram :
    let s := fresh [(2, 0xBFF0), (3, 1)]
    eaDirect (s.reg 2) 8 = 0xBFF8 ∧ eaIndexImm (s.reg 2) .b64 1 = 0xBFF8 ∧
    eaIndexReg (s.reg 2) .b64 (s.reg 3) = 0xBFF8 ∧
    (Instr.ldD 30 2 .b64 8).wellFormed = true ∧ (0xBFF8#32).toNat % min (Size.bytes .b64) 4 = 0 ∧
    (0xBFF8#32).toNat + Size.bytes .b64 ≤ 0xC000 := by decide

theorem witness_LdcLoadsFromCommon :
    let s := fresh [(2, 0xFFF0), (3, 1)]
    eaDirect (s.reg 2) 8 = 0xFFF8 ∧ eaIndexImm (s.reg 2) .b64 1 = 0xFFF8 ∧
    eaIndexReg (s.reg 2) .b64 (s.reg 3) = 0xFFF8 ∧
    (Instr.ldcD 30 2 .b64 8).wellFormed = true ∧ (0xFFF8#32).toNat % min (Size.bytes .b64) 4 = 0 ∧
    (0xFFF8#32).toNat + Size.bytes .b64 ≤ 0x10000 := by decide

theorem witness_StStoresToSram :
    let s := filled [(2, 0xBFF0), (3, 1)]
    eaDirect (s.reg 2) 8 = 0xBFF8 ∧ eaIndexImm (s.reg 2) .b64 1 = 0xBFF8 ∧
    eaIndexReg (s.reg 2) .b64 (s.reg 3) = 0xBFF8 ∧
    (Instr.stXR 30 2 .b64 3).wellFormed = true ∧ (0xBFF8#32).toNat % min (Size.bytes .b64) 4 = 0 ∧
    (0xBFF8#32).toNat + Size.bytes .b64 ≤ 0xC000 ∧ s.self.sram.wf = true := by decide

theorem witness_StcStoresToCommon :
    let s := filled [(2, 0xFFF0), (3, 1)]
    eaDirect (s.reg 2) 8 = 0xFFF8 ∧ eaIndexImm (s.reg 2) .b64 1 = 0xFFF8 ∧
    eaIndexReg (s.reg 2) .b64 (s.reg 3) = 0xFFF8 ∧
    (Instr.stcXR 30 2 .b64 3).wellFormed = true ∧ (0xFFF8#32).toNat % min (Size.bytes .b64) 4 = 0 ∧
    (0xFFF8#32).toNat + Size.bytes .b64 ≤ 0x10000 ∧ s.shared.common.wf = true := by decide

/-- Misaligned; the second word outside; above the IO window; the first byte after the common segment. -/
theorem witness_BadAddressIsFatalAccess :
    eaDirect ((fresh [(2, 0x200)]).reg 2) 1 = 0x201 ∧ (0x201#32).toNat % min (Size.bytes .b16) 4 ≠ 0 ∧
    eaDirect ((fresh [(2, 0xBFFC)]).reg 2) 0 = 0xBFFC ∧ 0xC000 < (0xBFFC#32).toNat + Size.bytes .b64 ∧
    eaDirect ((fresh [(2, 0xC400)]).reg 2) 0 = 0xC400 ∧ 0xC000 < (0xC400#32).toNat + Size.bytes .b32 ∧
    ¬(0xC400#32).toNat ≤ 0xC3FC ∧
    eaDirect ((fresh [(2, 0x10000)]).reg 2) 0 = 0x10000 ∧ 0x10000 < (0x10000#32).toNat + Size.bytes .b8 := by decide

/-- The first and the last register of the window, and a result register that is not ready. -/
theorem witness_IoWindowIsReachedByLdAndSt :
    let s := onSelf (fun p => { p with rmReady := p.rmReady.set 3 false })
      (fresh [(2, 0xC000), (4, 0xC3FC), (5, 0xC0CC)])
    (eaDirect (s.reg 2) 0).toNat = 0xC000 + 4 * (0 : Fin 256).val ∧ s.ioLoad 0 = some 0 ∧
    (eaDirect (s.reg 4) 0).toNat = 0xC000 + 4 * (255 : Fin 256).val ∧ s.ioLoad 255 = some 0 ∧
    (eaDirect (s.reg 5) 0).toNat = 0xC000 + 4 * (51 : Fin 256).val ∧ s.ioLoad 51 = none := by decide

/-- The first and the last index of each clause. -/
theorem witness_IoLoadReturnsTheRegister :
    (11 : Fin 256).val = 8 + (3 : Fin 4).val ∧ (43 : Fin 256).val = 32 + 4 * (2 : Fin 3).val + (3 : Fin 4).val ∧
    (51 : Fin 256).val = 48 + (3 : Fin 4).val ∧ (95 : Fin 256).val = 64 + (31 : ThreadId).val ∧
    96 ≤ (255 : Fin 256).val := by decide

theorem witness_IoStoreKeepsToTheWriteMask : (43 : Fin 256).val < 44 ∧ (16 : Fin 256).val ∈ [0, 4, 5, 13, 14, 15, 16] ∧
    (96 : Fin 256).val ≥ 96 := by decide

/-- 0x1FF has reserved fields; 0x7 names thread 7; 0x120 the current thread; index 64 thread 0. -/
theorem witness_WakeupStoresSetSchedulerBits :
    (2 ≤ ((0x1FF#32).toNat / 2 ^ 5) % 4) ∧ ((0x180#32).toNat / 2 ^ 7) % 4 = 3 ∧
    (((0x7#32).toNat / 2 ^ 5) % 4 < 2 ∧ ((0x7#32).toNat / 2 ^ 7) % 4 < 3) ∧
    (((0x120#32).toNat / 2 ^ 5) % 4 < 2 ∧ ((0x120#32).toNat / 2 ^ 7) % 4 < 3) ∧
    (64 : Fin 256).val = 64 + (0 : ThreadId).val := by decide

/-- Acquire, release and the two commands without effect on semaphores 3, 7 and 0. -/
theorem witness_SemaphoreCommandsAcquireAndRelease :
    ((3 : Fin 8).val = (0x0B#32).toNat % 8 ∧ ((0x0B#32).toNat / 2 ^ 3) % 4 = 1) ∧
    ((7 : Fin 8).val = (0x17#32).toNat % 8 ∧ ((0x17#32).toNat / 2 ^ 3) % 4 = 2) ∧
    ((0 : Fin 8).val = (0x18#32).toNat % 8 ∧ ((0x18#32).toNat / 2 ^ 3) % 4 = 3) := by decide

/-- For the branches: reset has no pending delay slot, and the call stack at its two ends. -/
theorem witness_Branches : (at100 []).self.pipe = [] ∧ (at100 []).self.csDepth = 0 ∧
    (onSelf (fun p => { p with csDepth := 4 }) (at100 [])).self.csDepth = 4 ∧
    (onSelf (fun p => { p with csDepth := 3 }) (at100 [])).self.csDepth.val < 4 ∧
    (onSelf (fun p => { p with csDepth := 4 }) (at100 [])).self.csDepth.val = (3 : Fin 4).val + 1 := by decide

theorem witness_ControlTransferInDelaySlotIsFatal :
    let s := onSelf (fun p => { p with pc := 0x0110, pipe := [⟨0xE8000002, 0x0104⟩] }) State.reset
    (Instr.jmp 0 false .always 0 0 2).isControlTransfer = true ∧ s.self.pipe ≠ [] := by decide

/-- Both shadow instructions of C2 take effect; with a pending context, and without. -/
theorem witness_CtxswapRunsItsShadowThenSwapsOrParks :
    Instr.nop.isControlTransfer = false ∧ c2.self.pipe = [] ∧
    (∃ s1 s2, ShadowRuns c2 ((c2.self.pc + 4) &&& Config.pcMask) s1 ∧
      ShadowRuns s1 ((c2.self.pc + 8) &&& Config.pcMask) s2 ∧ s2.self.nextValid = true) ∧
    (∃ s1 s2, ShadowRuns State.reset ((State.reset.self.pc + 4) &&& Config.pcMask) s1 ∧
      ShadowRuns s1 ((State.reset.self.pc + 8) &&& Config.pcMask) s2 ∧ s2.self.nextValid = false) :=
  ⟨by decide, by decide,
   ⟨_, _, ⟨.movi 16 true true 0x80, by decide, rfl⟩, ⟨.nop, by decide, rfl⟩, by decide⟩,
   ⟨_, _, ⟨.nop, by decide, rfl⟩, ⟨.nop, by decide, rfl⟩, by decide⟩⟩

/-- Reset with a code word at each of the two shadow offsets. -/
def shadowed (w1 w2 : Word) : State :=
  onSelf (fun p => { p with code := (Mem.write32 [] 4 w1).write32 8 w2 }) State.reset

/-- A word that does not decode, a control transfer, a stall and a fatal access, in the first and the second
shadow. -/
theorem witness_ShadowViolationsHalt :
    (∃ u, ShadowHalts (shadowed 0x70000000 0) 0 4 u) ∧ (∃ u, ShadowHalts (shadowed 0xE8000002 0) 0 4 u) ∧
    (∃ u, ShadowHalts (onSelf (fun p => { p with ramman := ⟨[⟨9, 0, false, .cam 0 0 0 0⟩], 1⟩ })
      (shadowed 0x50000000 0)) 0 4 u) ∧
    (∃ u, ShadowHalts (shadowed 0x6C000000 0) 0 4 u) ∧ (∃ u, ShadowHalts (shadowed 0x30208001 0) 0 4 u) ∧
    (∃ s1 u, ShadowRuns (shadowed 0x1C280007 0x44000002) 4 s1 ∧ ShadowHalts s1 0 8 u) :=
  ⟨⟨_, .inl ⟨.noHandler, by decide, rfl⟩⟩,
   ⟨_, .inr ⟨.jmp 0 false .always 0 0 2, by decide, .inl ⟨by decide, rfl⟩⟩⟩,
   ⟨_, .inr ⟨.crc false 0 0 0 0, by decide, .inr (.inl ⟨.rammanBusy, rfl, rfl⟩)⟩⟩,
   ⟨_, .inr ⟨.ret, by decide, .inl ⟨by decide, rfl⟩⟩⟩,
   ⟨_, .inr ⟨.ldD 1 0 .b32 1, by decide, .inr (.inr ⟨.access, .address 1, rfl, rfl⟩)⟩⟩,
   ⟨_, _, ⟨.movi 1 false true 7, by decide, rfl⟩, .inr ⟨.bz 0 false .all 0 2, by decide, .inl ⟨by decide, rfl⟩⟩⟩⟩

/-- A resume address of 0 and another one. -/
theorem witness_SwapProcedureMovesTheContext : c2.self.ctx.wf = true ∧ State.reset.self.ctx.wf = true := by decide

/-- Thread 0 leaves saved; thread 3 runs; thread 0 is chosen again. -/
theorem witness_ContextRoundTripRestoresRegisters :
    let s := onSelf (fun p => p.setReg 5 0xCAFE) c2
    let t := onSelf (fun p => { p with next := 0 }) (s.doSwap true 0x44)
    s.self.ctx.wf = true ∧ s.self.priv[0] = 0 ∧ t.self.ctx.wf = true ∧ t.self.priv[0] = 0 ∧
    t.self.cur ≠ s.self.cur ∧ t.self.next = s.self.cur ∧
    ∀ k : Fin 24, t.ctxWord s.self.cur k.val = (s.doSwap true 0x44).ctxWord s.self.cur k.val := by decide +kernel

/-- A tick that arbitrates with a choice and without one, and a tick that does not arbitrate. -/
theorem witness_SchedulerPicksTheFirstReadyThread :
    (parked 16).self.clk % 16 = 0 ∧ chooseThread (parked 16).self.threads = none ∧
    chooseThread (onSelf (fun p => { p with threads := c1 true }) (parked 16)).self.threads = some 4 ∧
    (parked 17).self.clk % 16 ≠ 0 := by decide

/-- Ranges that end at the last byte of SRAM and common segment, and an empty queue. -/
theorem witness_DmaInstructionsQueueTheirTransfer :
    let s := fresh [(1, 0xBFF8), (2, 0xFFF8)]
    (s.reg 1).toNat % 4 = 0 ∧ (s.reg 1).toNat + 4 * 2 ≤ 0xC000 ∧
    (s.reg 2 + s.reg 3 * BitVec.ofNat 32 (4 * 2 ^ (1#2).toNat)).toNat % 4 = 0 ∧
    (s.reg 2 + s.reg 3 * BitVec.ofNat 32 (4 * 2 ^ (1#2).toNat)).toNat + 4 * 2 ≤ 0x10000 ∧
    s.self.dma.entries.length < 7 := by decide

theorem witness_ResultUnitsClearReadyAndQueue :
    let s := fresh [(1, 0xBFFC)]
    (Instr.hash true .k48 2 3 30).wellFormed = true ∧ s.self.hash.entries.length < 4 ∧
    (s.reg 1).toNat % 4 = 0 ∧ (s.reg 1).toNat + 4 * (1#10).toNat ≤ 0xC000 ∧ (3 : Fin 4).val = (3#2).toNat ∧
    s.self.ramman.entries = [] := by decide

theorem witness_CounterAndBufferUnitsQueue :
    let s := fresh [(1, 0xFFFC), (2, 0xBFFC)]
    (s.reg 1).toNat % 4 = 0 ∧ (s.reg 1).toNat + 4 ≤ 0x10000 ∧ s.self.counter.entries.length < 4 ∧
    (s.reg 2).toNat % 4 = 0 ∧ (s.reg 2).toNat + (4#10).toNat ≤ 0xC000 ∧ s.self.bbtx.entries.length < 4 ∧
    (Instr.bbmsg true true 0 0 30).wellFormed = true ∧ s.self.bbmsg.entries.length < 4 := by decide

theorem witness_CryptoEmitsItsChunk :
    ((fresh [(2, 0xBFFC)]).reg 2).toNat % 4 = 0 ∧ ((fresh [(2, 0xBFFC)]).reg 2).toNat + (4#10).toNat ≤ 0xC000 := by
  decide

/-- Misaligned, and one byte too long, in each space; a good SRAM range before a bad common one. -/
theorem witness_BadAcceleratorAddressIsFatalAccess :
    let s := fresh [(1, 0x202), (2, 0xBFFC), (3, 0xFFFC)]
    (s.reg 1).toNat % 4 ≠ 0 ∧ 0xC000 < (s.reg 2).toNat + 4 * (2#10).toNat ∧
    ((s.reg 2).toNat % 4 = 0 ∧ ¬0xC000 < (s.reg 2).toNat + 4 * 2 ^ (0#2).toNat) ∧
    0x10000 < (s.reg 3 + s.reg 4 * BitVec.ofNat 32 (4 * 2 ^ (1#2).toNat)).toNat + 4 * 2 ^ (1#2).toNat ∧
    0xC000 < (s.reg 2).toNat + (5#10).toNat := by decide

/-- Every queue at its depth, and legal operands. -/
theorem witness_FullUnitStallsTheInvocation :
    let s := onSelf (fun p =>
      { p with
        dma := ⟨List.replicate 7 ⟨9, 0, false, ⟨.rd, 0, 0, 0⟩⟩, 7⟩
        ramman := ⟨[⟨9, 0, false, .cam 0 0 0 0⟩], 1⟩
        hash := ⟨List.replicate 4 ⟨9, 0, false, ⟨0, 0, .k48, 0⟩⟩, 4⟩
        counter := ⟨List.replicate 4 ⟨9, 0, false, ⟨0, false, false, false, 0⟩⟩, 4⟩
        bbtx := ⟨List.replicate 4 ⟨9, 0, false, ⟨0, 0, false⟩⟩, 4⟩
        bbmsg := ⟨List.replicate 4 ⟨9, 0, false, ⟨false, 0, 0, 0, 0⟩⟩, 4⟩ }) (fresh [(1, 0xBFFC), (2, 0xFFFC)])
    s.self.dma.entries.length = 7 ∧ s.self.ramman.entries.length = 1 ∧ s.self.hash.entries.length = 4 ∧
    s.self.counter.entries.length = 4 ∧ s.self.bbtx.entries.length = 4 ∧ s.self.bbmsg.entries.length = 4 ∧
    (s.reg 1).toNat % 4 = 0 ∧ (s.reg 1).toNat + 4 ≤ 0xC000 ∧ (s.reg 2).toNat % 4 = 0 ∧ (s.reg 2).toNat + 4 ≤ 0x10000 ∧
    (Instr.hash false .k60 0 0 30).wellFormed = true ∧ (Instr.bbmsg false true 0 0 30).wellFormed = true := by decide

/-- Both directions of a transfer, and a counter in the last two bytes of the common segment. -/
theorem witness_MemoryCompletionsMoveAndCount :
    (∃ e rest, busy.self.dma.entries = e :: rest ∧ e.payload.kind ≠ .wr) ∧
    (∃ (e : Entry DmaOp) (rest : List (Entry DmaOp)),
      (onSelf (fun p => { p with dma := ⟨[⟨3, 1, true, ⟨.wr, 0xBFFC, 0xFFFC, 1⟩⟩], 1⟩ }) busy).self.dma.entries =
        e :: rest ∧
        e.payload.kind = .wr) ∧
    (∃ e rest, busy.self.counter.entries = e :: rest) ∧ busy.self.sram.wf = true ∧ busy.shared.common.wf = true :=
  ⟨⟨_, _, rfl, by decide⟩, ⟨_, _, rfl, rfl⟩, ⟨_, _, rfl⟩, by decide, by decide⟩

theorem witness_ResultCompletionsWriteTheirRegisters :
    let s := onSelf (fun p =>
      { p with
        ramman := ⟨[⟨9, 0, true, .crc 3 0 0xBFFC 1⟩], 1⟩
        hash := ⟨[⟨9, 31, false, ⟨2, 3, .k60, 1⟩⟩], 1⟩
        bbtx := ⟨[⟨9, 0, true, ⟨0xBFFC, 4, true⟩⟩], 1⟩
        bbmsg := ⟨[⟨9, 0, false, ⟨true, 15, 15, 1, 2⟩⟩], 1⟩ }) State.reset
    (∃ e rest, s.self.hash.entries = e :: rest) ∧ (∃ e rest, s.self.ramman.entries = e :: rest) ∧
    (∃ e rest, s.self.bbtx.entries = e :: rest) ∧ (∃ e rest, s.self.bbmsg.entries = e :: rest) :=
  ⟨⟨_, _, rfl⟩, ⟨_, _, rfl⟩, ⟨_, _, rfl⟩, ⟨_, _, rfl⟩⟩

end Sys2Proof.Tests
end

section
/-! PROOFS. The two processors seen by number: passing the turn changes neither, a step keeps the one that does not
tick but for wakeups, and the tick of the other one ends in a halt or in the whole end of a tick (R100, R101, R353). -/

namespace Sys2Proof

theorem ProcId.eq_or_eq_other (p q : ProcId) : p = q ∨ p = q.other :=
  (em (p = q)).imp_right ProcId.eq_other_of_ne

theorem ProcId.other_ne (q : ProcId) : q.other ≠ q := by
  cases q <;> decide

end Sys2Proof

namespace Sys2Proof.Machine

/-! ## The turn (R352) -/

@[simp] theorem State.proc_me (s : State) : s.proc s.me = s.self := if_pos rfl

@[simp] theorem State.proc_other (s : State) : s.proc s.me.other = s.peer := if_neg (ProcId.other_ne _)

/-- A statement about both processors, by number or by turn. -/
theorem State.forall_proc_iff {P : Proc → Prop} (s : State) : (∀ q, P (s.proc q)) ↔ P s.self ∧ P s.peer := by
  constructor
  · intro h
    exact ⟨s.proc_me ▸ h s.me, s.proc_other ▸ h s.me.other⟩
  · rintro ⟨hself, hpeer⟩ q
    rcases ProcId.eq_or_eq_other q s.me with rfl | rfl
    · rwa [State.proc_me]
    · rwa [State.proc_other]

@[simp] theorem State.passTurn_proc (s : State) (q : ProcId) : s.passTurn.proc q = s.proc q := by
  unfold State.proc State.passTurn
  cases q <;> cases s.me <;> rfl

@[simp] theorem State.runnable_proc (s : State) (q : ProcId) : s.runnable.proc q = s.proc q := by
  rcases s.runnable_cases with ⟨e, -⟩ | ⟨e, -⟩ <;> rw [e]
  exact s.passTurn_proc q

@[simp] theorem State.nextTurn_proc (s : State) (q : ProcId) : s.nextTurn.proc q = s.proc q := by
  unfold State.nextTurn
  simp only
  split
  · rfl
  · exact State.passTurn_proc { s with ticks := s.ticks + 1 } q

/-- The processor whose tick a step is has the turn in `runnable`. -/
theorem State.runnable_me (s : State) : s.runnable.me = s.ticking := by
  rcases s.runnable_cases with ⟨e, h⟩ | ⟨e, h⟩ <;> simp [e, h, State.ticking]

/-! ## The processor that does not tick -/

/-- Part of a tick: the turn stays where it is, and the other processor is at most woken. -/
structure KeepsPeer (s t : State) : Prop where
  me : t.me = s.me
  peer : WakeupsOnly s.peer t.peer

theorem KeepsPeer.of_eq {s t : State} (me : t.me = s.me) (peer : t.peer = s.peer) : KeepsPeer s t :=
  ⟨me, peer ▸ .refl _⟩

theorem KeepsPeer.trans {s t u : State} (h : KeepsPeer s t) (h' : KeepsPeer t u) : KeepsPeer s u :=
  ⟨h'.me.trans h.me, h.peer.trans h'.peer⟩

theorem RuleEffect.keepsPeer {s t : State} (h : RuleEffect s t) : KeepsPeer s t := ⟨h.frame.me, h.frame.peer⟩

theorem State.retire_keepsPeer (s : State) : KeepsPeer s s.retire := by
  rw [State.retire_eq]
  exact .of_eq rfl rfl

theorem State.recordStall_keepsPeer (s : State) (c : StallCause) : KeepsPeer s (s.recordStall c) := by
  unfold State.recordStall
  split <;> exact .of_eq rfl rfl

/-- A CTXSWAP whose shadow ran advances `pc` past it, then swaps or parks (R212, R214, R215). -/
theorem State.swapOrPark_cases (s : State) (save : Bool) :
    s.swapOrPark save = (s.endStall.setPc (s.self.pc + 12)).doSwap save s.self.pc ∨
    s.swapOrPark save = (s.endStall.setPc (s.self.pc + 12)).park save := by
  unfold State.swapOrPark
  simp only
  split
  · exact .inl rfl
  · exact .inr rfl

theorem State.swapOrPark_keepsPeer (s : State) (save : Bool) : KeepsPeer s (s.swapOrPark save) := by
  rcases s.swapOrPark_cases save with e | e <;> rw [e] <;> exact .of_eq (by simp) (by simp)

/-- No instruction changes the other processor but by wakeups: a semaphore release is the only one that reaches it
(R316). -/
theorem ExecEffect.keepsPeer {s t : State} (h : ExecEffect s t) : KeepsPeer s t := by
  cases h with
  | retired u rule => exact rule.keepsPeer.trans u.retire_keepsPeer
  | stalled c => exact s.recordStall_keepsPeer c
  | halted => exact .of_eq rfl rfl
  | branched => exact .of_eq rfl rfl
  | shadowHalted u rule => exact rule.keepsPeer.trans (.of_eq rfl rfl)
  | swapped u v first second save =>
    exact (first.keepsPeer.trans second.keepsPeer).trans (v.swapOrPark_keepsPeer save)

theorem State.arbitrate_keepsPeer (s : State) : KeepsPeer s s.arbitrate := by
  rw [State.arbitrate_eq]
  exact .of_eq rfl rfl

theorem State.schedTick_keepsPeer (s : State) : KeepsPeer s s.schedTick := by
  rcases s.schedTick_cases with e | e | ⟨-, e⟩ <;> rw [e]
  · exact .of_eq rfl rfl
  · exact s.arbitrate_keepsPeer
  · exact s.arbitrate_keepsPeer.trans (.of_eq (by simp) (by simp))

/-- The end of a tick stops at a panic of the scheduler, or goes on to timers and clock (R100, R109). -/
theorem State.endTick_cases (s : State) :
    (s.endTick = s.accTick.schedTick ∧ s.accTick.schedTick.self.halted = true) ∨
    s.endTick = s.accTick.schedTick.timerTick.clockTick := by
  unfold State.endTick
  simp only
  split
  · exact .inl ⟨rfl, ‹_›⟩
  · exact .inr rfl

theorem State.endTick_keepsPeer (s : State) : KeepsPeer s s.endTick := by
  have acc : KeepsPeer s s.accTick := .of_eq s.accTick_frame.me s.accTick_frame.peer
  have sched := acc.trans s.accTick.schedTick_keepsPeer
  rcases s.endTick_cases with ⟨e, -⟩ | e <;> rw [e]
  · exact sched
  · exact sched.trans (.of_eq (by simp) (by simp))

/-- What a step leaves: the tick of a processor that was not halted, over when that processor has halted or when the
whole end of a tick is done, and then the turn passes (R100, R109, R352). -/
theorem step_ends {s s' : State} (h : step s = .next s') : s.runnable.self.halted = false ∧
    ∃ t, s' = t.nextTurn ∧ KeepsPeer s.runnable t ∧ (t.self.halted = true ∨ ∃ u : State, t = u.endTick) := by
  obtain ⟨running, ⟨-, rfl⟩ | ⟨-, t, effect, rfl⟩⟩ := step_cases h
  · exact ⟨running, _, rfl, s.runnable.endTick_keepsPeer, .inr ⟨_, rfl⟩⟩
  · refine ⟨running, t.afterInstr, rfl, ?_⟩
    unfold State.afterInstr
    split
    · exact ⟨effect.keepsPeer, .inl ‹_›⟩
    · exact ⟨effect.keepsPeer.trans t.endTick_keepsPeer, .inr ⟨t, rfl⟩⟩

/-- A processor that takes a step is not halted (R101). -/
theorem step_ticking_running {s s' : State} (h : step s = .next s') : (s.proc s.ticking).halted = false := by
  rw [← s.runnable_proc, ← s.runnable_me, State.proc_me]
  exact (step_ends h).1

theorem step_other_woken {s s' : State} (h : step s = .next s') :
    WakeupsOnly (s.proc s.ticking.other) (s'.proc s.ticking.other) := by
  obtain ⟨-, t, rfl, keeps, -⟩ := step_ends h
  have before : s.proc s.ticking.other = s.runnable.peer := by
    rw [← s.runnable_proc, ← s.runnable_me, State.proc_other]
  have after : t.nextTurn.proc s.ticking.other = t.peer := by
    rw [t.nextTurn_proc, ← s.runnable_me, ← keeps.me, State.proc_other]
  rw [before, after]
  exact keeps.peer

/-- Settles O7: the parts of a tick each keep the other processor but for wakeups, and a halted processor is never
the one that ticks. -/
theorem otherProcessorOnlyWoken : Obligations.OtherProcessorOnlyWoken := by
  refine ⟨fun s s' h => step_other_woken h, fun s s' q h halted => ?_, fun s q running => step_next ?_⟩
  · rcases ProcId.eq_or_eq_other q s.ticking with rfl | rfl
    · rw [step_ticking_running h] at halted
      cases halted
    · exact step_other_woken h
  · rcases ProcId.eq_or_eq_other q s.me with rfl | rfl
    · exact .inl (by simpa using running)
    · exact .inr (by simpa using running)

end Sys2Proof.Machine
end

section
/-! PROOFS. The completion clocks of the six queues, as one list for each unit: an enqueue appends a clock that no
queued one exceeds, a completion drops the head, and nothing else touches a queue (R242, R243, R265). -/

namespace Sys2Proof.Machine

/-! ## The clocks of a queue -/

/-- The completion clocks queued on a unit, in issue order. -/
def Proc.compClocks (p : Proc) : Accel → List Nat
  | .dma => p.dma.entries.map (fun e => e.comp)
  | .ramman => p.ramman.entries.map (fun e => e.comp)
  | .hash => p.hash.entries.map (fun e => e.comp)
  | .counter => p.counter.entries.map (fun e => e.comp)
  | .bbtx => p.bbtx.entries.map (fun e => e.comp)
  | .bbmsg => p.bbmsg.entries.map (fun e => e.comp)

section
variable (p : Proc)

@[simp] theorem Proc.compClocks_dma : p.compClocks .dma = p.dma.entries.map (fun e => e.comp) := rfl
@[simp] theorem Proc.compClocks_ramman : p.compClocks .ramman = p.ramman.entries.map (fun e => e.comp) := rfl
@[simp] theorem Proc.compClocks_hash : p.compClocks .hash = p.hash.entries.map (fun e => e.comp) := rfl
@[simp] theorem Proc.compClocks_counter : p.compClocks .counter = p.counter.entries.map (fun e => e.comp) := rfl
@[simp] theorem Proc.compClocks_bbtx : p.compClocks .bbtx = p.bbtx.entries.map (fun e => e.comp) := rfl
@[simp] theorem Proc.compClocks_bbmsg : p.compClocks .bbmsg = p.bbmsg.entries.map (fun e => e.comp) := rfl

theorem Proc.headComp_eq_head? (u : Accel) : p.headComp u = (p.compClocks u).head? := by
  cases u <;> simp [Proc.headComp, Fifo.headComp]

theorem Proc.queued_eq_sum : p.queued = (Accel.inOrder.map (fun u => (p.compClocks u).length)).sum := by
  simp [Proc.queued, Accel.inOrder, Nat.add_assoc]

end

/-- Every unit stands in the order of R243. -/
theorem Accel.mem_inOrder (u : Accel) : u ∈ Accel.inOrder := by
  cases u <;> decide

/-- A statement about all units is one about each of the six. -/
theorem forall_accel_iff {P : Accel → Prop} :
    (∀ u, P u) ↔ P .dma ∧ P .ramman ∧ P .hash ∧ P .counter ∧ P .bbtx ∧ P .bbmsg := by
  constructor
  · exact fun h => ⟨h _, h _, h _, h _, h _, h _⟩
  · rintro ⟨hdma, hramman, hhash, hcounter, hbbtx, hbbmsg⟩ u
    cases u <;> assumption

/-! ## What changes them -/

theorem le_foldl_max {α : Type} (key : α → Nat) (l : List α) (m : Nat) :
    m ≤ l.foldl (fun m e => max m (key e)) m ∧ ∀ e ∈ l, key e ≤ l.foldl (fun m e => max m (key e)) m := by
  induction l generalizing m with
  | nil => simp
  | cons a l ih =>
    obtain ⟨init, mem⟩ := ih (max m (key a))
    simp only [List.foldl_cons, List.forall_mem_cons]
    exact ⟨by omega, by omega, mem⟩

/-- No queued clock is beyond the furthest (R242). -/
theorem Fifo.comp_le_furthest {α : Type} (f : Fifo α) : ∀ e ∈ f.entries, e.comp ≤ f.furthest :=
  (le_foldl_max (fun e : Entry α => e.comp) f.entries 0).2

/-- The queue of a unit is as it was, or one operation was put behind the others while there was room (R242, R265). -/
def EnqueuedAtMost (u : Accel) (before after : List Nat) : Prop :=
  after = before ∨
    before.length < Config.depth u ∧ ∃ c, (∀ x ∈ before, x ≤ c) ∧ after = before ++ [c]

theorem Fifo.push_enqueued {α : Type} {f : Fifo α} {u : Accel} (room : f.entries.length < Config.depth u)
    (clk lat : Nat) (owner : ThreadId) (wake : Bool) (payload : α) :
    EnqueuedAtMost u (f.entries.map (fun e => e.comp))
      ((f.push clk lat owner wake payload).entries.map (fun e => e.comp)) := by
  refine .inr ⟨by simpa using room, max (clk + lat) f.furthest, ?_, by simp [Fifo.push]⟩
  simp only [List.forall_mem_map]
  exact fun e mem => Nat.le_trans (f.comp_le_furthest e mem) (Nat.le_max_right _ _)

/-- A rule enqueues on at most its own unit. -/
theorem RuleEffect.enqueued {s t : State} (h : RuleEffect s t) (u : Accel) :
    EnqueuedAtMost u (s.self.compClocks u) (t.self.compClocks u) := by
  cases h
  -- the other five queues are the same lists, the unit's own is pushed on
  case dma | ramman | hash | counter | bbtx | bbmsg =>
    cases u <;> first | exact .inl rfl | exact Fifo.push_enqueued (by assumption) _ _ _ _ _
  all_goals exact .inl (by cases u <;> rfl)

section
variable (s : State) (u : Accel)

/-! What no completion's effect touches: the queues, from which `completeHead` has removed the entry before. -/

theorem State.wakeOwner_compClocks (wake : Bool) (owner : ThreadId) :
    (s.wakeOwner wake owner).self.compClocks u = s.self.compClocks u := by
  cases wake <;> cases u <;> rfl

theorem State.completeDma_compClocks (op : DmaOp) : (s.completeDma op).self.compClocks u = s.self.compClocks u := by
  unfold State.completeDma
  cases op.kind <;> cases u <;> rfl

theorem State.completeRamman_compClocks (op : RammanOp) :
    (s.completeRamman op).self.compClocks u = s.self.compClocks u := by
  cases u <;> rfl

theorem State.completeHash_compClocks (op : HashOp) : (s.completeHash op).self.compClocks u = s.self.compClocks u := by
  cases u <;> rfl

theorem State.completeCounter_compClocks (op : CounterOp) :
    (s.completeCounter op).self.compClocks u = s.self.compClocks u := by
  unfold State.completeCounter
  cases op.w4 <;> cases u <;> rfl

theorem State.completeBbtx_compClocks (owner : ThreadId) (op : BbtxOp) :
    (s.completeBbtx owner op).self.compClocks u = s.self.compClocks u := by
  cases u <;> rfl

theorem State.completeBbmsg_compClocks (owner : ThreadId) (op : BbmsgOp) :
    (s.completeBbmsg owner op).self.compClocks u = s.self.compClocks u := by
  unfold State.completeBbmsg
  cases u <;> simp

end

/-- A completion removes the head of its own unit's queue and no other entry (R243). -/
theorem State.completeHead_compClocks (s : State) (u v : Accel) :
    (s.completeHead u).self.compClocks v =
      if v = u then (s.self.compClocks v).tail else s.self.compClocks v := by
  unfold State.completeHead
  split <;> split
  -- an empty queue leaves nothing to rewrite
  all_goals
    rename_i queue
    try simp only [State.wakeOwner_compClocks, State.completeDma_compClocks, State.completeRamman_compClocks,
      State.completeHash_compClocks, State.completeCounter_compClocks, State.completeBbtx_compClocks,
      State.completeBbmsg_compClocks]
    cases v <;> simp [queue]

theorem State.retire_compClocks (s : State) (u : Accel) : s.retire.self.compClocks u = s.self.compClocks u := by
  rw [State.retire_eq]
  cases u <;> rfl

theorem State.recordStall_compClocks (s : State) (c : StallCause) (u : Accel) :
    (s.recordStall c).self.compClocks u = s.self.compClocks u := by
  unfold State.recordStall
  split
  · rfl
  · cases u <;> rfl

theorem State.halt_compClocks (s : State) (k : HaltCause) (ipc : CodeOff) (info : HaltInfo) (u : Accel) :
    (s.halt k ipc info).self.compClocks u = s.self.compClocks u := by
  cases u <;> rfl

theorem State.doSwap_compClocks (s : State) (save : Bool) (ipc : CodeOff) (u : Accel) :
    (s.doSwap save ipc).self.compClocks u = s.self.compClocks u := by
  cases u <;> simp

theorem State.swapOrPark_compClocks (s : State) (save : Bool) (u : Accel) :
    (s.swapOrPark save).self.compClocks u = s.self.compClocks u := by
  rcases s.swapOrPark_cases save with e | e <;> rw [e] <;> cases u <;> simp

theorem State.schedTick_compClocks (s : State) (u : Accel) :
    s.schedTick.self.compClocks u = s.self.compClocks u := by
  have arbitrate : s.arbitrate.self.compClocks u = s.self.compClocks u := by
    rw [State.arbitrate_eq]
    cases u <;> rfl
  rcases s.schedTick_cases with e | e | ⟨-, e⟩ <;> rw [e]
  · exact arbitrate
  · rw [State.doSwap_compClocks, arbitrate]

theorem WakeupsOnly.compClocks {p q : Proc} (h : WakeupsOnly p q) (u : Accel) : q.compClocks u = p.compClocks u := by
  rw [h.1]
  cases u <;> rfl

/-! ## What every step keeps of a queue -/

section
variable {Q : Accel → List Nat → Prop}
  (completed : ∀ u clocks, Q u clocks → Q u clocks.tail)
  (enqueued : ∀ u clocks c, clocks.length < Config.depth u → (∀ x ∈ clocks, x ≤ c) → Q u clocks →
    Q u (clocks ++ [c]))

include enqueued

theorem EnqueuedAtMost.keeps {u : Accel} {before after : List Nat} (h : EnqueuedAtMost u before after)
    (hq : Q u before) : Q u after := by
  rcases h with rfl | ⟨room, c, last, rfl⟩
  · exact hq
  · exact enqueued u before c room last hq

theorem RuleEffect.keeps_compClocks {s t : State} (h : RuleEffect s t) (hs : ∀ u, Q u (s.self.compClocks u))
    (u : Accel) : Q u (t.self.compClocks u) :=
  (h.enqueued u).keeps enqueued (hs u)

/-- An instruction changes the queues by the enqueues of its rule, or of the two rules of a CTXSWAP's shadow. -/
theorem ExecEffect.keeps_compClocks {s t : State} (h : ExecEffect s t) (hs : ∀ u, Q u (s.self.compClocks u))
    (u : Accel) : Q u (t.self.compClocks u) := by
  cases h with
  | retired v rule =>
    rw [State.retire_compClocks]
    exact rule.keeps_compClocks enqueued hs u
  | stalled c =>
    rw [State.recordStall_compClocks]
    exact hs u
  | halted =>
    rw [State.halt_compClocks]
    exact hs u
  | branched => exact (by cases u <;> rfl : s.self.compClocks u = _) ▸ hs u
  | shadowHalted v rule =>
    rw [State.halt_compClocks]
    exact rule.keeps_compClocks enqueued hs u
  | swapped v w first second save =>
    rw [State.swapOrPark_compClocks]
    exact second.keeps_compClocks enqueued (first.keeps_compClocks enqueued hs) u

include completed

/-- A property of the clocks of a unit that an enqueue with room and a completion keep is kept by every step. -/
theorem step_keeps_compClocks {s s' : State} (hs : ∀ q u, Q u ((s.proc q).compClocks u)) (h : step s = .next s') :
    ∀ q u, Q u ((s'.proc q).compClocks u) := by
  rw [State.forall_proc_iff (P := fun p => ∀ u, Q u (p.compClocks u))] at hs ⊢
  refine step_keeps (P := fun s => (∀ u, Q u (s.self.compClocks u)) ∧ ∀ u, Q u (s.peer.compClocks u))
    ?turn ?count ?instr ?completion ?choice ?swap ?timers ?clock hs h
  case turn => exact fun s h => ⟨h.2, h.1⟩
  case count => exact fun s n h => h
  case instr =>
    intro s t _ h effect
    exact ⟨effect.keeps_compClocks enqueued h.1, fun u => effect.keepsPeer.peer.compClocks u ▸ h.2 u⟩
  case completion =>
    intro s u h
    refine ⟨fun v => ?_, (s.completeHead_frame u).peer ▸ h.2⟩
    rw [State.completeHead_compClocks]
    split
    · exact completed v _ (h.1 v)
    · exact h.1 v
  case choice => exact fun s _ _ _ h => ⟨fun u => by cases u <;> exact h.1 _, h.2⟩
  case swap =>
    refine fun s save ipc h => ⟨fun u => ?_, by simpa using h.2⟩
    rw [State.doSwap_compClocks]
    exact h.1 u
  case timers => exact fun s _ h => ⟨fun u => by cases u <;> exact h.1 _, h.2⟩
  case clock => exact fun s h => ⟨fun u => by cases u <;> exact h.1 _, h.2⟩

end

end Sys2Proof.Machine
end

section
/-! PROOFS. R31 (d) to (g): the occupancy of the queues, and the sequencing of a processor (delay-slot buffer, program
counter, `P[0]`), each kept by every step. -/

namespace Sys2Proof.Machine

/-- R31 (d): the occupancy of every queue is within its depth. -/
def Proc.QueuesFit (p : Proc) : Prop := ∀ u, (p.compClocks u).length ≤ Config.depth u

/-- R31 (e), (f), (g), and the empty buffer of a parked processor (R190, R214). -/
structure Proc.Sequential (p : Proc) : Prop where
  short : p.pipe.length ≤ Config.maxDelay
  masked : p.pc &&& ~~~Config.pcMask = 0
  zero : p.priv[0] = 0
  parked : p.stall.cause = .noContext → p.pipe = []

theorem Proc.structured_iff (p : Proc) : p.Structured ↔ p.QueuesFit ∧ p.Sequential := by
  have fit : p.QueuesFit ↔ _ := forall_accel_iff
  simp only [Proc.compClocks_dma, Proc.compClocks_ramman, Proc.compClocks_hash, Proc.compClocks_counter,
    Proc.compClocks_bbtx, Proc.compClocks_bbmsg, List.length_map] at fit
  rw [fit]
  constructor
  · rintro ⟨hdma, hramman, hhash, hcounter, hbbtx, hbbmsg, short, masked, zero, parked⟩
    exact ⟨⟨hdma, hramman, hhash, hcounter, hbbtx, hbbmsg⟩, short, masked, zero, parked⟩
  · rintro ⟨⟨hdma, hramman, hhash, hcounter, hbbtx, hbbmsg⟩, short, masked, zero, parked⟩
    exact ⟨hdma, hramman, hhash, hcounter, hbbtx, hbbmsg, short, masked, zero, parked⟩

theorem State.structured_iff (s : State) :
    s.Structured ↔ (∀ q, (s.proc q).QueuesFit) ∧ s.self.Sequential ∧ s.peer.Sequential := by
  rw [State.forall_proc_iff]
  unfold State.Structured
  rw [Proc.structured_iff, Proc.structured_iff]
  exact and_and_and_comm

/-- An enqueue needs room, so no queue outgrows its depth. -/
theorem step_queuesFit {s s' : State} (hs : ∀ q, (s.proc q).QueuesFit) (h : step s = .next s') :
    ∀ q, (s'.proc q).QueuesFit := by
  refine step_keeps_compClocks (Q := fun u clocks => clocks.length ≤ Config.depth u) ?_ ?_ hs h
  · intro u clocks fits
    rw [List.length_tail]
    omega
  · intro u clocks c room _ _
    rw [List.length_append]
    exact room

/-! ## Sequencing -/

/-- Sequencing depends on four fields alone. -/
theorem Proc.Sequential.congr {p q : Proc} (h : p.Sequential) (pipe : q.pipe = p.pipe) (pc : q.pc = p.pc)
    (zero : q.priv[0] = p.priv[0]) (stall : q.stall = p.stall) : q.Sequential :=
  ⟨pipe ▸ h.short, pc ▸ h.masked, zero ▸ h.zero, by rw [stall, pipe]; exact h.parked⟩

theorem WakeupsOnly.sequential {p q : Proc} (h : WakeupsOnly p q) (hp : p.Sequential) : q.Sequential := by
  rw [h.1]
  exact hp.congr rfl rfl rfl rfl

theorem RuleEffect.sequential {s t : State} (h : RuleEffect s t) (hs : s.self.Sequential) : t.self.Sequential :=
  hs.congr h.frame.pipe h.frame.pc h.frame.zero h.frame.stall

theorem State.retire_sequential {s : State} (h : s.self.Sequential) : s.retire.self.Sequential := by
  rw [State.retire_eq]
  refine ⟨?short, ?masked, h.zero, fun parked => nomatch parked⟩
  case short => exact Nat.le_trans (by simp) h.short
  case masked =>
    simp only
    split
    · exact maskPc_masked _
    · exact h.masked

theorem State.doSwap_sequential {s : State} (h : s.self.Sequential) (save : Bool) (ipc : CodeOff) :
    (s.doSwap save ipc).self.Sequential :=
  ⟨by simp, s.doSwap_pc_masked save ipc h.masked, (s.doSwap_priv_zero save ipc).trans h.zero, fun _ => by simp⟩

/-- A CTXSWAP fetched at `pc` leaves the buffer empty, whether it swaps or parks. -/
theorem State.swapOrPark_sequential {s : State} (h : s.self.Sequential) (empty : s.self.pipe = []) (save : Bool) :
    (s.swapOrPark save).self.Sequential := by
  have past : (s.endStall.setPc (s.self.pc + 12)).self.Sequential :=
    ⟨h.short, maskPc_masked _, h.zero, fun _ => empty⟩
  rcases s.swapOrPark_cases save with e | e <;> rw [e]
  · exact State.doSwap_sequential past _ _
  · exact ⟨past.short, past.masked, past.zero, fun _ => empty⟩

theorem ExecEffect.sequential {s t : State} (h : ExecEffect s t) (hs : s.self.Sequential) : t.self.Sequential := by
  cases h with
  | retired u rule => exact State.retire_sequential (rule.sequential hs)
  | stalled c cause =>
    unfold State.recordStall
    split
    · exact hs
    · exact ⟨hs.short, hs.masked, hs.zero, fun parked => absurd parked cause⟩
  | halted => exact hs.congr rfl rfl rfl rfl
  | branched cs csDepth pipe pc empty short code masked =>
    exact ⟨short, masked, hs.zero, fun parked => nomatch parked⟩
  | shadowHalted u rule => exact (rule.sequential hs).congr rfl rfl rfl rfl
  | swapped u v first second save empty =>
    have shadow_pipe : v.self.pipe = s.self.pipe := second.frame.pipe.trans first.frame.pipe
    exact State.swapOrPark_sequential (second.sequential (first.sequential hs)) (shadow_pipe.trans empty) save

theorem step_sequential {s s' : State} (hs : s.self.Sequential ∧ s.peer.Sequential) (h : step s = .next s') :
    s'.self.Sequential ∧ s'.peer.Sequential := by
  refine step_keeps (P := fun s => s.self.Sequential ∧ s.peer.Sequential)
    ?turn ?count ?instr ?completion ?choice ?swap ?timers ?clock hs h
  case turn => exact fun s h => ⟨h.2, h.1⟩
  case count => exact fun s n h => h
  case instr => exact fun s t _ h effect => ⟨effect.sequential h.1, effect.keepsPeer.peer.sequential h.2⟩
  case completion =>
    intro s u h
    have frame := s.completeHead_frame u
    exact ⟨h.1.congr frame.pipe frame.pc (by rw [frame.priv]) frame.stall, frame.peer ▸ h.2⟩
  case choice => exact fun s _ _ _ h => ⟨h.1.congr rfl rfl rfl rfl, h.2⟩
  case swap => exact fun s save ipc h => ⟨State.doSwap_sequential h.1 save ipc, by simpa using h.2⟩
  case timers => exact fun s _ h => ⟨h.1.congr rfl rfl rfl rfl, h.2⟩
  case clock => exact fun s h => ⟨h.1.congr rfl rfl rfl rfl, h.2⟩

/-- Settles O11: the occupancy of the queues and the sequencing are each kept. -/
theorem stepKeepsStructure : Obligations.StepKeepsStructure := by
  intro s s' hs h
  rw [State.structured_iff] at hs ⊢
  exact ⟨step_queuesFit hs.1 h, step_sequential hs.2 h⟩

end Sys2Proof.Machine
end

section
/-! PROOFS. R31 (c): every queue stays ordered by its completion clocks, and the accelerator tick leaves no head that is
due, so after the clock of a running processor has advanced no queued clock is in the past (R242, R243). -/

namespace Sys2Proof.Machine

/-- The completion clocks of every queue never decrease along it (R31 (c)). -/
def Proc.QueuesOrdered (p : Proc) : Prop := ∀ u, (p.compClocks u).Pairwise (fun a b => a ≤ b)

/-- No queued completion clock is in the past (R31 (c)). -/
def Proc.NothingPast (p : Proc) : Prop := ∀ u, ∀ c ∈ p.compClocks u, p.clk ≤ c

theorem Proc.timely_iff (p : Proc) : p.Timely ↔ p.QueuesOrdered ∧ (p.halted = true ∨ p.NothingPast) := by
  have ordered : p.QueuesOrdered ↔ _ := forall_accel_iff
  have past : p.NothingPast ↔ _ := forall_accel_iff
  simp only [Proc.compClocks_dma, Proc.compClocks_ramman, Proc.compClocks_hash, Proc.compClocks_counter,
    Proc.compClocks_bbtx, Proc.compClocks_bbmsg, List.forall_mem_map] at ordered past
  rw [ordered, past]

theorem State.timely_iff (s : State) : s.Timely ↔ ∀ q, (s.proc q).Timely :=
  (s.forall_proc_iff (P := Proc.Timely)).symm

theorem WakeupsOnly.timely {p q : Proc} (h : WakeupsOnly p q) (hp : p.Timely) : q.Timely := by
  rw [h.1]
  exact hp

/-- An operation is queued behind clocks that its own floor covers, so every queue stays ordered (R242). -/
theorem step_queuesOrdered {s s' : State} (hs : ∀ q, (s.proc q).QueuesOrdered) (h : step s = .next s') :
    ∀ q, (s'.proc q).QueuesOrdered := by
  refine step_keeps_compClocks (Q := fun _ clocks => clocks.Pairwise (fun a b => a ≤ b)) ?_ ?_ hs h
  · exact fun u clocks ordered => ordered.tail
  · intro u clocks c _ last ordered
    rw [List.pairwise_append]
    exact ⟨ordered, List.pairwise_singleton _ _, fun x hx y hy => List.mem_singleton.mp hy ▸ last x hx⟩

/-! ## The accelerator tick leaves nothing due (R243) -/

/-- The choice so far is always the head of its unit's queue. -/
theorem earlierDue_isHead {p : Proc} {best : Option (Accel × Nat)} (u : Accel)
    (hbest : ∀ v c, best = some (v, c) → p.headComp v = some c) :
    ∀ v c, earlierDue p best u = some (v, c) → p.headComp v = some c := by
  intro v c
  unfold earlierDue
  split
  · exact hbest v c
  · split
    · split
      · rintro ⟨⟩
        assumption
      · split
        · rintro ⟨⟩
          assumption
        · exact hbest v c
    · exact hbest v c

/-- Nothing is chosen only if nothing was before and the unit's head is not due. -/
theorem earlierDue_eq_none {p : Proc} {best : Option (Accel × Nat)} {u : Accel} (h : earlierDue p best u = none) :
    best = none ∧ ∀ c, p.headComp u = some c → p.clk < c := by
  unfold earlierDue at h
  split at h
  · simp_all
  · split at h
    · split at h
      · cases h
      · split at h <;> cases h
    · simp_all

theorem nextDue_isHead {p : Proc} {u : Accel} (h : p.nextDue = some u) : p.compClocks u ≠ [] := by
  have isHead : ∀ (units : List Accel) (best : Option (Accel × Nat)),
      (∀ v c, best = some (v, c) → p.headComp v = some c) →
      ∀ v c, units.foldl (earlierDue p) best = some (v, c) → p.headComp v = some c := by
    intro units
    induction units with
    | nil => exact fun best hbest => hbest
    | cons u units ih => exact fun best hbest => ih _ (earlierDue_isHead u hbest)
  unfold Proc.nextDue at h
  obtain ⟨⟨v, c⟩, chosen, rfl⟩ := Option.map_eq_some_iff.mp h
  have head := isHead _ _ (by simp) v c chosen
  intro empty
  rw [Proc.headComp_eq_head?, empty] at head
  cases head

theorem nextDue_eq_none {p : Proc} (h : p.nextDue = none) (u : Accel) : ∀ c, p.headComp u = some c → p.clk < c := by
  have later : ∀ (units : List Accel) (best : Option (Accel × Nat)),
      units.foldl (earlierDue p) best = none →
      best = none ∧ ∀ u ∈ units, ∀ c, p.headComp u = some c → p.clk < c := by
    intro units
    induction units with
    | nil => exact fun best none => ⟨none, by simp⟩
    | cons u units ih =>
      intro best none
      obtain ⟨rest, units_later⟩ := ih _ none
      obtain ⟨best_none, u_later⟩ := earlierDue_eq_none rest
      exact ⟨best_none, List.forall_mem_cons.mpr ⟨u_later, units_later⟩⟩
  exact (later _ _ (Option.map_eq_none_iff.mp h)).2 u (Accel.mem_inOrder u)

/-- Completing a unit that has an entry leaves one operation less queued. -/
theorem State.completeHead_queued {s : State} {u : Accel} (h : s.self.compClocks u ≠ []) :
    (s.completeHead u).self.queued + 1 = s.self.queued := by
  have pos := List.length_pos_iff.mpr h
  rw [Proc.queued_eq_sum, Proc.queued_eq_sum]
  cases u <;> simp [Accel.inOrder, State.completeHead_compClocks] at pos ⊢ <;> omega

theorem nextDue_of_queued_eq_zero {p : Proc} (h : p.queued = 0) : p.nextDue = none := by
  cases due : p.nextDue with
  | none => rfl
  | some u =>
    have pos := List.length_pos_iff.mpr (nextDue_isHead due)
    have le := List.le_sum_of_mem (List.mem_map_of_mem (f := fun u => (p.compClocks u).length) (Accel.mem_inOrder u))
    rw [← Proc.queued_eq_sum] at le
    omega

/-- As many rounds as operations queued are enough. -/
theorem accLoop_nextDue {n : Nat} {s : State} (enough : s.self.queued ≤ n) : (accLoop n s).self.nextDue = none := by
  induction n generalizing s with
  | zero => exact nextDue_of_queued_eq_zero (Nat.le_zero.mp enough)
  | succ n ih =>
    unfold accLoop
    split
    · assumption
    · rename_i due
      have less := State.completeHead_queued (nextDue_isHead due)
      exact ih (by omega)

theorem State.accTick_nextDue (s : State) : s.accTick.self.nextDue = none := accLoop_nextDue (Nat.le_refl _)

/-! ## The clock (R100) -/

/-- In an ordered queue whose head is not before a clock nothing is. -/
theorem forall_le_of_head_le {l : List Nat} {n : Nat} (ordered : l.Pairwise (fun a b => a ≤ b))
    (head : ∀ c, l.head? = some c → n ≤ c) : ∀ c ∈ l, n ≤ c := by
  cases l with
  | nil => simp
  | cons a l =>
    have first : n ≤ a := head a rfl
    have rest := (List.pairwise_cons.mp ordered).1
    exact List.forall_mem_cons.mpr ⟨first, fun c hc => Nat.le_trans first (rest c hc)⟩

theorem State.schedTick_clk (s : State) : s.schedTick.self.clk = s.self.clk := by
  have arbitrate : s.arbitrate.self.clk = s.self.clk := by rw [State.arbitrate_eq]
  rcases s.schedTick_cases with e | e | ⟨-, e⟩ <;> rw [e]
  · exact arbitrate
  · rw [State.doSwap_clk, arbitrate]

theorem State.timerTick_clockTick_clk (s : State) : s.timerTick.clockTick.self.clk = s.self.clk + 1 := by
  rw [State.timerTick_eq]
  rfl

theorem State.timerTick_clockTick_compClocks (s : State) (u : Accel) :
    s.timerTick.clockTick.self.compClocks u = s.self.compClocks u := by
  rw [State.timerTick_eq]
  cases u <;> rfl

/-- At the end of a tick that did not halt, the heads that the accelerator tick left are not before the clock. -/
theorem State.endTick_heads (s : State) : s.endTick.self.halted = true ∨
    ∀ u c, (s.endTick.self.compClocks u).head? = some c → s.endTick.self.clk ≤ c := by
  rcases s.endTick_cases with ⟨e, halted⟩ | e <;> rw [e]
  · exact .inl halted
  · refine .inr fun u c head => ?_
    rw [State.timerTick_clockTick_clk, State.schedTick_clk]
    rw [State.timerTick_clockTick_compClocks, State.schedTick_compClocks, ← Proc.headComp_eq_head?] at head
    exact nextDue_eq_none s.accTick_nextDue u c head

/-- The processor that ticked has halted, or holds ordered queues with nothing past. -/
theorem step_ticking_notPast {s s' : State} (h : step s = .next s') (ordered : (s'.proc s.ticking).QueuesOrdered) :
    (s'.proc s.ticking).halted = true ∨ (s'.proc s.ticking).NothingPast := by
  obtain ⟨-, t, rfl, keeps, ends⟩ := step_ends h
  have ticked : t.nextTurn.proc s.ticking = t.self := by
    rw [t.nextTurn_proc, ← s.runnable_me, ← keeps.me, State.proc_me]
  rw [ticked] at ordered ⊢
  rcases ends with halted | ⟨u, rfl⟩
  · exact .inl halted
  · exact u.endTick_heads.imp_right fun heads v => forall_le_of_head_le (ordered v) (heads v)

/-- Settles O12: the order is kept by every enqueue and completion; the processor that ticked has nothing past by the
accelerator tick, and the other one kept its queues and its clock. -/
theorem stepKeepsCompletionClocks : Obligations.StepKeepsCompletionClocks := by
  intro s s' hs h
  rw [State.timely_iff] at hs ⊢
  have ordered := step_queuesOrdered (fun q => ((Proc.timely_iff _).mp (hs q)).1) h
  intro q
  rcases ProcId.eq_or_eq_other q s.ticking with rfl | rfl
  · exact (Proc.timely_iff _).mpr ⟨ordered _, step_ticking_notPast h (ordered _)⟩
  · exact (step_other_woken h).timely (hs _)

end Sys2Proof.Machine
end

section
/-! PROOFS. The state after reset: what a loaded image reads as, the invariants of a processor after reset, and the
table of R33. -/

namespace Sys2Proof.Machine

/-! ## A loaded image (R57) -/

theorem Mem.listed_below (a : Nat) (bs : List Byte) : (Mem.listed a bs).Below (a + bs.length) := by
  induction bs generalizing a with
  | nil => simp [Mem.listed]
  | cons b bs ih =>
    have rest : ∀ c ∈ Mem.listed (a + 1) bs, c.1 < a + (b :: bs).length := fun c mem => by
      have := ih (a + 1) c mem
      rw [List.length_cons]
      omega
    unfold Mem.listed
    split
    · exact rest
    · exact List.forall_mem_cons.mpr ⟨by simp, rest⟩

/-- A loaded image lies inside its segment. -/
theorem Mem.ofImage_below (size : Nat) (image : List Byte) : (Mem.ofImage size image).Below size := by
  intro c mem
  have := Mem.listed_below 0 (image.take size) c mem
  rw [List.length_take] at this
  omega

theorem Mem.read_of_below {m : Mem} {n a : Nat} (below : m.Below n) (le : n ≤ a) : m.read a = unlisted := by
  induction m with
  | nil => rfl
  | cons c rest ih =>
    obtain ⟨first, rest_below⟩ := List.forall_mem_cons.mp below
    have not_lt : ¬a < c.1 := by omega
    have ne : a ≠ c.1 := by omega
    rw [Mem.read, if_neg not_lt, if_neg ne]
    exact ih rest_below

/-- Byte `a` of a segment is byte `a` of its image, or 0 past the image's end. -/
theorem Mem.read_ofImage {size a : Nat} (h : a < size) (image : List Byte) :
    (Mem.ofImage size image).read a = image.getD a 0 := by
  unfold Mem.ofImage
  by_cases inside : a < image.length
  · have taken : a < (image.take size).length := by
      rw [List.length_take]
      omega
    have read := Mem.read_listed 0 a (image.take size) taken
    rw [Nat.zero_add] at read
    rw [read, List.getElem_take, List.getD_eq_getElem _ _ inside]
  · have short : 0 + (image.take size).length ≤ a := by
      rw [List.length_take]
      omega
    rw [Mem.read_of_below (Mem.listed_below _ _) short, List.getD_eq_default _ _ (by omega)]
    rfl

/-! ## A processor after reset -/

section
variable (im : Images)

theorem Proc.boot_memoryCanonical : (Proc.boot im).MemoryCanonical :=
  ⟨Mem.ofImage_wf _ _, Mem.ofImage_wf _ _, Mem.ofImage_wf _ _⟩

theorem Proc.boot_compClocks (u : Accel) : (Proc.boot im).compClocks u = [] := by
  cases u <;> rfl

theorem Proc.boot_priv_zero : (Proc.boot im).priv[0] = 0 := by
  simp [Proc.boot]

theorem Proc.boot_structured : (Proc.boot im).Structured := by
  rw [Proc.structured_iff]
  refine ⟨fun u => ?_, Nat.zero_le _, maskPc_masked 0, Proc.boot_priv_zero im, fun _ => rfl⟩
  rw [Proc.boot_compClocks]
  exact Nat.zero_le _

theorem Proc.boot_timely : (Proc.boot im).Timely := by
  rw [Proc.timely_iff]
  refine ⟨fun u => ?_, .inr fun u c mem => ?_⟩
  · rw [Proc.boot_compClocks]
    exact .nil
  · exact Nat.zero_le c

theorem Proc.boot_queuesInRange : (Proc.boot im).QueuesInRange :=
  ⟨List.forall_mem_nil _, List.forall_mem_nil _, List.forall_mem_nil _, List.forall_mem_nil _⟩

theorem Proc.boot_pipeIsCode : (Proc.boot im).PipeIsCode := List.forall_mem_nil _

end

/-! ## The machine after reset -/

section
variable (first : ProcId) (im0 im1 : Images) (common : List Byte)

theorem State.boot_me : (State.boot first im0 im1 common).me = first := by
  cases first <;> rfl

theorem State.boot_proc_p0 : (State.boot first im0 im1 common).proc .p0 = Proc.boot im0 := by
  cases first <;> rfl

theorem State.boot_proc_p1 : (State.boot first im0 im1 common).proc .p1 = Proc.boot im1 := by
  cases first <;> rfl

theorem State.boot_shared : (State.boot first im0 im1 common).shared =
    ⟨Mem.ofImage Config.commonBytes common, [], [], Vector.replicate _ Semaphore.reset, ⟨false, .p0⟩⟩ := by
  cases first <;> rfl

/-- What every processor after reset has, both processors of the machine after reset have. -/
theorem State.boot_forall_proc {P : Proc → Prop} (h : ∀ im, P (Proc.boot im)) :
    ∀ q, P ((State.boot first im0 im1 common).proc q)
  | .p0 => State.boot_proc_p0 first im0 im1 common ▸ h im0
  | .p1 => State.boot_proc_p1 first im0 im1 common ▸ h im1

theorem State.boot_self_and_peer {P : Proc → Prop} (h : ∀ im, P (Proc.boot im)) :
    P (State.boot first im0 im1 common).self ∧ P (State.boot first im0 im1 common).peer :=
  (State.forall_proc_iff _).mp (State.boot_forall_proc first im0 im1 common h)

theorem State.boot_memoryCanonical : (State.boot first im0 im1 common).MemoryCanonical := by
  obtain ⟨self, peer⟩ := State.boot_self_and_peer first im0 im1 common Proc.boot_memoryCanonical
  refine ⟨self, peer, ?_⟩
  rw [State.boot_shared]
  exact ⟨Mem.ofImage_wf _ _, rfl, rfl⟩

theorem State.boot_inRange : (State.boot first im0 im1 common).InRange := by
  obtain ⟨queues_self, queues_peer⟩ := State.boot_self_and_peer first im0 im1 common Proc.boot_queuesInRange
  obtain ⟨sram_self, sram_peer⟩ := State.boot_self_and_peer first im0 im1 common
    (P := fun p => p.sram.Below Config.sramBytes) fun im => Mem.ofImage_below _ _
  obtain ⟨ctx_self, ctx_peer⟩ := State.boot_self_and_peer first im0 im1 common
    (P := fun p => p.ctx.Below Config.ctxBytes) fun im => Mem.ofImage_below _ _
  obtain ⟨code_self, code_peer⟩ := State.boot_self_and_peer first im0 im1 common
    (P := fun p => p.code.Below Config.codeBytes) fun im => Mem.ofImage_below _ _
  refine ⟨queues_self, queues_peer, sram_self, sram_peer, ctx_self, ctx_peer, code_self, code_peer, ?_⟩
  rw [State.boot_shared]
  exact ⟨Mem.ofImage_below _ _, List.forall_mem_nil _, List.forall_mem_nil _⟩

end

theorem State.reset_eq_boot : State.reset = State.boot (Config.schedule 0) ⟨[], [], []⟩ ⟨[], [], []⟩ [] := by
  unfold State.reset State.boot
  split <;> rename_i e <;> rw [e]

/-- Settles O14: each invariant holds of a processor after reset, whatever its images. -/
theorem resetMeetsTheInvariants : Obligations.ResetMeetsTheInvariants :=
  ⟨fun first im0 im1 common =>
    ⟨State.boot_memoryCanonical first im0 im1 common,
      State.boot_self_and_peer first im0 im1 common Proc.boot_structured,
      State.boot_self_and_peer first im0 im1 common Proc.boot_timely,
      State.boot_inRange first im0 im1 common,
      State.boot_forall_proc first im0 im1 common Proc.boot_pipeIsCode⟩,
    State.reset_eq_boot⟩

/-! ## The table of R33 -/

section
variable (im : Images)

theorem Proc.boot_ctx_read {a : Nat} (h : a < Config.ctxBytes) : (Proc.boot im).ctx.read a = im.ctx.getD a 0 :=
  Mem.read_ofImage h im.ctx

theorem Proc.boot_code_read {a : Nat} (h : a < Config.codeBytes) : (Proc.boot im).code.read a = im.code.getD a 0 :=
  Mem.read_ofImage h im.code

theorem Proc.boot_sram_read {a : Nat} (h : a < Config.sramBytes) : (Proc.boot im).sram.read a = im.sram.getD a 0 :=
  Mem.read_ofImage h im.sram

/-- The resident `P[1..23]` are thread 0's saved words. -/
theorem Proc.boot_priv (k : Fin 24) (h : k ≠ 0) :
    (Proc.boot im).priv[k.val] = (Proc.boot im).ctx.read32 (4 * k.val) := by
  simp [Proc.boot, h]

end

/-- Settles O15: most rows are read off `Proc.boot`; the segments and `P[1..23]` are what their images
hold. -/
theorem resetValuesAreTheTables : Obligations.ResetValuesAreTheTables := by
  intro first im0 im1 common s
  refine ⟨State.boot_me .., fun q => ?procs, fun a h => ?common, fun k => ?semaphores, ?lock⟩
  case common =>
    rw [State.boot_shared]
    exact Mem.read_ofImage h common
  case semaphores => simp [s, State.boot_shared, Semaphore.reset]
  case lock => rw [State.boot_shared]
  case procs =>
    intro p im
    have boot : p = Proc.boot im := by
      cases q
      · exact State.boot_proc_p0 ..
      · exact State.boot_proc_p1 ..
    clear_value p im
    subst boot
    refine ⟨?glob, Proc.boot_priv_zero im, Proc.boot_priv im, fun a => Proc.boot_ctx_read im,
      fun a => Proc.boot_code_read im, fun a => Proc.boot_sram_read im, rfl, rfl, rfl, ?cs, rfl, rfl, ?threads, rfl,
      rfl, rfl, rfl, rfl, rfl, rfl, rfl, rfl, rfl, rfl, rfl, rfl, ?lkReady, ?rmReady, ?timer, rfl, rfl, ?ioStore, rfl, rfl,
      rfl, rfl, rfl, rfl⟩
    all_goals simp [Proc.boot]

end Sys2Proof.Machine
end

section
/-! PROOFS. The canonical form of every memory is kept by every step: a memory changes only by stores of byte strings,
and every such store keeps the form (R49, R57). -/

namespace Sys2Proof.Machine

/-- The save of the registers is a row of word stores (R215). -/
theorem saveRegs_wf {ctx : Mem} (h : ctx.wf = true) (t : ThreadId) (priv : Vector Word Config.nPrivate) :
    (saveRegs ctx t priv).wf = true := by
  unfold saveRegs
  generalize List.finRange Config.nPrivate = indices
  induction indices generalizing ctx with
  | nil => exact h
  | cons k indices ih => exact ih (Mem.write32_wf _ _ h)

theorem WakeupsOnly.memoryCanonical {p q : Proc} (h : WakeupsOnly p q) (hp : p.MemoryCanonical) :
    q.MemoryCanonical := by
  rw [h.1]
  exact hp

section
variable {s : State} (hs : s.MemoryCanonical)

include hs

/-! ## Stores -/

theorem State.setSram_memoryCanonical (a : Nat) (bytes : List Byte) :
    (s.setSram (s.self.sram.writeBytes a bytes)).MemoryCanonical := by
  obtain ⟨⟨code, sram, ctx⟩, rest⟩ := hs
  exact ⟨⟨code, Mem.writeBytes_wf a bytes sram, ctx⟩, rest⟩

theorem State.setCommon_memoryCanonical (a : Nat) (bytes : List Byte) :
    (s.setCommon (s.shared.common.writeBytes a bytes)).MemoryCanonical := by
  obtain ⟨self, peer, common, rest⟩ := hs
  exact ⟨self, peer, Mem.writeBytes_wf a bytes common, rest⟩

/-! ## Instructions -/

/-- A rule stores to SRAM, stores to the common segment, or leaves every memory as it is. -/
theorem RuleEffect.memoryCanonical {t : State} (h : RuleEffect s t) : t.MemoryCanonical := by
  cases h
  case sram a bytes inside => exact State.setSram_memoryCanonical hs a bytes
  case common a bytes inside => exact State.setCommon_memoryCanonical hs a bytes
  case semaphores sem threads peer woken =>
    obtain ⟨self, old_peer, shared⟩ := hs
    exact ⟨self, woken.memoryCanonical old_peer, shared⟩
  all_goals exact hs

theorem State.retire_memoryCanonical : s.retire.MemoryCanonical := by
  rw [State.retire_eq]
  exact hs

theorem State.recordStall_memoryCanonical (c : StallCause) : (s.recordStall c).MemoryCanonical := by
  unfold State.recordStall
  split <;> exact hs

/-- A swap stores to the context area at most. -/
theorem State.doSwap_memoryCanonical (save : Bool) (ipc : CodeOff) : (s.doSwap save ipc).MemoryCanonical := by
  obtain ⟨⟨code, sram, ctx⟩, peer, shared⟩ := hs
  have saved : (s.doSwap save ipc).self.ctx.wf = true := by
    rw [State.doSwap_ctx]
    split
    · exact saveRegs_wf ctx _ _
    · exact ctx
  exact ⟨⟨by rwa [State.doSwap_code], by rwa [State.doSwap_sram], saved⟩, by rwa [State.doSwap_peer],
    by rwa [State.doSwap_shared]⟩

theorem State.swapOrPark_memoryCanonical (save : Bool) : (s.swapOrPark save).MemoryCanonical := by
  have past : (s.endStall.setPc (s.self.pc + 12)).MemoryCanonical := hs
  rcases s.swapOrPark_cases save with e | e <;> rw [e]
  · exact State.doSwap_memoryCanonical past _ _
  · exact past

theorem ExecEffect.memoryCanonical {t : State} (h : ExecEffect s t) : t.MemoryCanonical := by
  cases h with
  | retired u rule => exact State.retire_memoryCanonical (rule.memoryCanonical hs)
  | stalled c => exact State.recordStall_memoryCanonical hs c
  | halted => exact hs
  | branched => exact hs
  | shadowHalted u rule => exact rule.memoryCanonical hs
  | swapped u v first second save =>
    exact State.swapOrPark_memoryCanonical (second.memoryCanonical (first.memoryCanonical hs)) save

/-! ## Completions -/

theorem State.wakeOwner_memoryCanonical (wake : Bool) (owner : ThreadId) :
    (s.wakeOwner wake owner).MemoryCanonical := by
  unfold State.wakeOwner
  split <;> exact hs

theorem State.completeDma_memoryCanonical (op : DmaOp) : (s.completeDma op).MemoryCanonical := by
  unfold State.completeDma
  cases op.kind with
  | rd | lk => exact State.setSram_memoryCanonical hs _ _
  | wr => exact State.setCommon_memoryCanonical hs _ _

theorem State.completeCounter_memoryCanonical (op : CounterOp) : (s.completeCounter op).MemoryCanonical := by
  unfold State.completeCounter
  cases op.w4 <;> exact State.setCommon_memoryCanonical hs _ _

theorem State.completeBbmsg_memoryCanonical (owner : ThreadId) (op : BbmsgOp) :
    (s.completeBbmsg owner op).MemoryCanonical := by
  unfold State.completeBbmsg
  exact hs

/-- A completion of the DMA or of the counter unit is a store; the other units write no memory, and neither does the
removal of a queue's head. -/
theorem State.completeHead_memoryCanonical (u : Accel) : (s.completeHead u).MemoryCanonical := by
  unfold State.completeHead
  cases u <;> simp only
  case dma =>
    split
    · exact hs
    · refine State.wakeOwner_memoryCanonical (State.completeDma_memoryCanonical ?_ _) _ _
      exact hs
  case counter =>
    split
    · exact hs
    · refine State.wakeOwner_memoryCanonical (State.completeCounter_memoryCanonical ?_ _) _ _
      exact hs
  case bbmsg =>
    split
    · exact hs
    · refine State.wakeOwner_memoryCanonical (State.completeBbmsg_memoryCanonical ?_ _ _) _ _
      exact hs
  case ramman | hash | bbtx =>
    split
    · exact hs
    · refine State.wakeOwner_memoryCanonical ?_ _ _
      exact hs

end

/-- Settles O10: no part of a tick changes a memory but by stores. -/
theorem stepKeepsMemoryCanonical : Obligations.StepKeepsMemoryCanonical := by
  intro s s' hs h
  refine step_keeps (P := State.MemoryCanonical)
    ?turn ?count ?instr ?completion ?choice ?swap ?timers ?clock hs h
  case turn => exact fun s ⟨self, peer, shared⟩ => ⟨peer, self, shared⟩
  case count => exact fun s n hs => hs
  case instr => exact fun s t _ hs effect => effect.memoryCanonical hs
  case completion => exact fun s u hs => State.completeHead_memoryCanonical hs u
  case choice => exact fun s _ _ _ hs => hs
  case swap => exact fun s save ipc hs => State.doSwap_memoryCanonical hs save ipc
  case timers => exact fun s _ hs => hs
  case clock => exact fun s hs => hs

end Sys2Proof.Machine
end

section
/-! PROOFS. Nothing writes a code segment, and a delay-slot entry is captured from it, so an entry always holds the word
of its own offset (R41, R55, R181). -/

namespace Sys2Proof.Machine

/-- The code segment stays, and a delay-slot entry was there before or holds the word of its own offset. -/
structure Proc.KeepsCode (p q : Proc) : Prop where
  code : q.code = p.code
  pipe : ∀ e ∈ q.pipe, e ∈ p.pipe ∨ e.word = p.codeRead e.ipc

theorem Proc.KeepsCode.of_eq {p q : Proc} (code : q.code = p.code) (pipe : q.pipe = p.pipe) : p.KeepsCode q :=
  ⟨code, fun _ mem => .inl (pipe ▸ mem)⟩

/-- An empty buffer holds no entry. -/
theorem Proc.KeepsCode.of_nil {p q : Proc} (code : q.code = p.code) (pipe : q.pipe = []) : p.KeepsCode q :=
  ⟨code, by simp [pipe]⟩

theorem Proc.KeepsCode.refl (p : Proc) : p.KeepsCode p := .of_eq rfl rfl

theorem Proc.KeepsCode.trans {p q r : Proc} (h : p.KeepsCode q) (h' : q.KeepsCode r) : p.KeepsCode r := by
  refine ⟨h'.code.trans h.code, fun e mem => ?_⟩
  rcases h'.pipe e mem with buffered | captured
  · exact h.pipe e buffered
  · right
    rw [captured, Proc.codeRead, h.code, Proc.codeRead]

theorem Proc.KeepsCode.pipeIsCode {p q : Proc} (h : p.KeepsCode q) (hp : p.PipeIsCode) : q.PipeIsCode := by
  intro e mem
  rw [Proc.codeRead, h.code]
  exact (h.pipe e mem).elim (hp e) id

/-! ## The parts of a tick -/

theorem WakeupsOnly.keepsCode {p q : Proc} (h : WakeupsOnly p q) : p.KeepsCode q := by
  rw [h.1]
  exact .of_eq rfl rfl

theorem RuleEffect.keepsCode {s t : State} (h : RuleEffect s t) : s.self.KeepsCode t.self :=
  .of_eq h.frame.code h.frame.pipe

theorem State.retire_keepsCode (s : State) : s.self.KeepsCode s.retire.self := by
  rw [State.retire_eq]
  exact ⟨rfl, fun _ mem => .inl (List.mem_of_mem_tail mem)⟩

theorem State.recordStall_keepsCode (s : State) (c : StallCause) : s.self.KeepsCode (s.recordStall c).self := by
  unfold State.recordStall
  split <;> exact .of_eq rfl rfl

theorem State.doSwap_keepsCode (s : State) (save : Bool) (ipc : CodeOff) :
    s.self.KeepsCode (s.doSwap save ipc).self :=
  .of_nil (s.doSwap_code save ipc) (s.doSwap_pipe save ipc)

theorem State.swapOrPark_keepsCode (s : State) (save : Bool) : s.self.KeepsCode (s.swapOrPark save).self := by
  have past : s.self.KeepsCode (s.endStall.setPc (s.self.pc + 12)).self := .of_eq rfl rfl
  rcases s.swapOrPark_cases save with e | e <;> rw [e]
  · exact past.trans (State.doSwap_keepsCode _ _ _)
  · exact past.trans (.of_eq rfl rfl)

/-- Only a taken branch puts entries into the buffer, and it captures code words (R181). -/
theorem ExecEffect.keepsCode {s t : State} (h : ExecEffect s t) : s.self.KeepsCode t.self := by
  cases h with
  | retired u rule => exact rule.keepsCode.trans u.retire_keepsCode
  | stalled c => exact s.recordStall_keepsCode c
  | halted => exact .of_eq rfl rfl
  | branched cs csDepth pipe pc empty short code => exact ⟨rfl, fun e mem => .inr (code e mem)⟩
  | shadowHalted u rule => exact rule.keepsCode.trans (.of_eq rfl rfl)
  | swapped u v first second save =>
    exact (first.keepsCode.trans second.keepsCode).trans (v.swapOrPark_keepsCode save)

/-! ## A whole step -/

/-- What a part of a tick does to the two processors by turn, it does to them by number. -/
theorem State.forall_keepsCode_trans {s t u : State} (h : ∀ q, (s.proc q).KeepsCode (t.proc q)) (me : u.me = t.me)
    (self : t.self.KeepsCode u.self) (peer : t.peer.KeepsCode u.peer) : ∀ q, (s.proc q).KeepsCode (u.proc q) := by
  refine fun q => (h q).trans ?_
  unfold State.proc
  rw [me]
  split
  · exact self
  · exact peer

theorem step_keepsCode {s s' : State} (h : step s = .next s') : ∀ q, (s.proc q).KeepsCode (s'.proc q) := by
  refine step_keeps (P := fun t => ∀ q, (s.proc q).KeepsCode (t.proc q))
    ?turn ?count ?instr ?completion ?choice ?swap ?timers ?clock (fun q => .refl _) h
  case turn =>
    intro t ht q
    rw [State.passTurn_proc]
    exact ht q
  case count => exact fun t n ht => ht
  case instr =>
    exact fun t u _ ht effect =>
      State.forall_keepsCode_trans ht effect.keepsPeer.me effect.keepsCode effect.keepsPeer.peer.keepsCode
  case completion =>
    intro t u ht
    have frame := t.completeHead_frame u
    exact State.forall_keepsCode_trans ht frame.me (.of_eq frame.code frame.pipe) (frame.peer ▸ .refl _)
  case choice => exact fun t _ _ _ ht => State.forall_keepsCode_trans ht rfl (.of_eq rfl rfl) (.refl _)
  case swap =>
    exact fun t save ipc ht =>
      State.forall_keepsCode_trans ht (t.doSwap_me save ipc) (t.doSwap_keepsCode save ipc)
        (t.doSwap_peer save ipc ▸ .refl _)
  case timers => exact fun t _ ht => State.forall_keepsCode_trans ht rfl (.of_eq rfl rfl) (.refl _)
  case clock => exact fun t ht => State.forall_keepsCode_trans ht rfl (.of_eq rfl rfl) (.refl _)

/-- Settles O9: what a step keeps of the code segment and of the buffer gives both sentences. -/
theorem codeIsNeverWritten : Obligations.CodeIsNeverWritten :=
  fun _ _ h => ⟨fun q => (step_keepsCode h q).code, fun hs q => (step_keepsCode h q).pipeIsCode (hs q)⟩

end Sys2Proof.Machine
end

section
/-! PROOFS. Loads and stores (R160 to R166, R342): which space an address reaches, what a load and a store at a good
address do, and that a bad address is fatal; each said once of the effective address, for the three forms
that compute it. -/

namespace Sys2Proof.Machine

/-! ## The space that an address reaches (R48, R162, R165) -/

section
variable {ea : Word} {size : Size}

theorem aligned_iff : aligned ea size = true ↔ ea.toNat % min (Size.bytes size) 4 = 0 := decide_eq_true_iff

theorem dataSpace_of_misaligned (misaligned : ea.toNat % min (Size.bytes size) 4 ≠ 0) :
    dataSpace ea size = none := by
  simp [dataSpace, aligned_iff, misaligned]

theorem dataSpace_of_inside (al : ea.toNat % min (Size.bytes size) 4 = 0)
    (inside : ea.toNat + Size.bytes size ≤ 0xC000) : dataSpace ea size = some .sram := by
  simp [dataSpace, aligned_iff.mpr al, inside]

/-- A 32-bit access to the window reaches the register whose word it is. -/
theorem dataSpace_of_window (al : ea.toNat % min (Size.bytes .b32) 4 = 0) (low : 0xC000 ≤ ea.toNat)
    (high : ea.toNat ≤ 0xC3FC) :
    ∃ k : IoIndex, dataSpace ea .b32 = some (.io k) ∧ 4 * k.val = ea.toNat - 0xC000 := by
  have outside : ¬ea.toNat + Size.bytes .b32 ≤ 0xC000 := by
    simp only [Size.bytes]
    omega
  refine ⟨Fin.ofNat 256 ((ea.toNat - 0xC000) / 4), ?_, ?_⟩
  · simp [dataSpace, aligned_iff.mpr al, outside, low, show ea.toNat ≤ Config.ioBase + Config.ioBytes - 4 from high]
  · have word : ea.toNat % 4 = 0 := al
    show 4 * ((ea.toNat - 0xC000) / 4 % 256) = ea.toNat - 0xC000
    omega

theorem dataSpace_of_outside (outside : 0xC000 < ea.toNat + Size.bytes size)
    (not_io : ¬(size = .b32 ∧ 0xC000 ≤ ea.toNat ∧ ea.toNat ≤ 0xC3FC)) : dataSpace ea size = none := by
  unfold dataSpace
  split
  · rfl
  · exact (if_neg (Nat.not_le.mpr outside)).trans (if_neg not_io)

theorem commonOk_iff : commonOk ea size = true ↔
    ea.toNat % min (Size.bytes size) 4 = 0 ∧ ea.toNat + Size.bytes size ≤ 0x10000 := by
  simp [commonOk, aligned_iff]

end

/-- Settles O27: the branches of `dataSpace`, each under its own condition. -/
theorem dataSpaceIsChosenByAddress : Obligations.DataSpaceIsChosenByAddress := by
  intro ea size b
  refine ⟨dataSpace_of_misaligned, dataSpace_of_inside, ?_, fun _ => dataSpace_of_outside⟩
  rintro al - rfl low high
  exact dataSpace_of_window al low high

/-! ## The rules at an effective address -/

section
variable {ea : Word} {size : Size} (rd : Reg) (s : State)

theorem ldRule_sram (h : dataSpace ea size = some .sram) :
    ldRule ea size rd s = .done (s.loadFrom (s.mem .sram) ea.toNat size rd) := by
  simp only [ldRule, h, State.mem_sram]

theorem ldRule_fatal (h : dataSpace ea size = none) : ldRule ea size rd s = .fatal .access (.address ea) := by
  simp only [ldRule, h]

theorem stRule_sram (h : dataSpace ea size = some .sram) : stRule ea size rd s =
    .done (s.setSram (s.self.sram.writeBytes ea.toNat (dataBytes size (s.reg rd) (s.reg (rd + 1))))) := by
  simp only [stRule, h, storeTo_eq]

theorem stRule_fatal (h : dataSpace ea size = none) : stRule ea size rd s = .fatal .access (.address ea) := by
  simp only [stRule, h]

theorem ldcRule_common (h : commonOk ea size = true) :
    ldcRule ea size rd s = .done (s.loadFrom (s.mem .common) ea.toNat size rd) := by
  rw [ldcRule, if_pos h, State.mem_common]

theorem ldcRule_fatal (h : ¬commonOk ea size = true) : ldcRule ea size rd s = .fatal .access (.address ea) := by
  rw [ldcRule, if_neg h]

theorem stcRule_common (h : commonOk ea size = true) : stcRule ea size rd s =
    .done (s.setCommon (s.shared.common.writeBytes ea.toNat (dataBytes size (s.reg rd) (s.reg (rd + 1))))) := by
  rw [stcRule, if_pos h, storeTo_eq]

theorem stcRule_fatal (h : ¬commonOk ea size = true) : stcRule ea size rd s = .fatal .access (.address ea) := by
  rw [stcRule, if_neg h]

end

/-! ## The three addressing forms (R161) -/

/-- The instruction is one of the three forms of a load or store, and `ea` is the address that it computes. -/
def Accesses (mkD mkXI : Reg → Reg → Size → BitVec 12 → Instr) (mkXR : Reg → Reg → Size → Reg → Instr) (i : Instr)
    (rd ra rb : Reg) (size : Size) (imm12 : BitVec 12) (ea : Word) (s : State) : Prop :=
  i = mkD rd ra size imm12 ∧ ea = eaDirect (s.reg ra) imm12 ∨
  i = mkXI rd ra size imm12 ∧ ea = eaIndexImm (s.reg ra) size imm12 ∨
  i = mkXR rd ra size rb ∧ ea = eaIndexReg (s.reg ra) size (s.reg rb)

section
variable {i : Instr} {rd ra rb : Reg} {size : Size} {imm12 : BitVec 12} {ea : Word} {s : State}

theorem Accesses.exec_ld (h : Accesses .ldD .ldXI .ldXR i rd ra rb size imm12 ea s) :
    exec i s = complete (ldRule ea size rd s) s := by
  rcases h with ⟨rfl, rfl⟩ | ⟨rfl, rfl⟩ | ⟨rfl, rfl⟩ <;> rfl

theorem Accesses.exec_st (h : Accesses .stD .stXI .stXR i rd ra rb size imm12 ea s) :
    exec i s = complete (stRule ea size rd s) s := by
  rcases h with ⟨rfl, rfl⟩ | ⟨rfl, rfl⟩ | ⟨rfl, rfl⟩ <;> rfl

theorem Accesses.exec_ldc (h : Accesses .ldcD .ldcXI .ldcXR i rd ra rb size imm12 ea s) :
    exec i s = complete (ldcRule ea size rd s) s := by
  rcases h with ⟨rfl, rfl⟩ | ⟨rfl, rfl⟩ | ⟨rfl, rfl⟩ <;> rfl

theorem Accesses.exec_stc (h : Accesses .stcD .stcXI .stcXR i rd ra rb size imm12 ea s) :
    exec i s = complete (stcRule ea size rd s) s := by
  rcases h with ⟨rfl, rfl⟩ | ⟨rfl, rfl⟩ | ⟨rfl, rfl⟩ <;> rfl

/-- A form of one of two instructions is a form of the one or of the other. -/
theorem Accesses.of_or {mkD mkXI mkD' mkXI' : Reg → Reg → Size → BitVec 12 → Instr}
    {mkXR mkXR' : Reg → Reg → Size → Reg → Instr}
    (h : (i = mkD rd ra size imm12 ∨ i = mkD' rd ra size imm12) ∧ ea = eaDirect (s.reg ra) imm12 ∨
      (i = mkXI rd ra size imm12 ∨ i = mkXI' rd ra size imm12) ∧ ea = eaIndexImm (s.reg ra) size imm12 ∨
      (i = mkXR rd ra size rb ∨ i = mkXR' rd ra size rb) ∧ ea = eaIndexReg (s.reg ra) size (s.reg rb)) :
    Accesses mkD mkXI mkXR i rd ra rb size imm12 ea s ∨ Accesses mkD' mkXI' mkXR' i rd ra rb size imm12 ea s := by
  unfold Accesses
  tauto

end

/-! ## Loads (R163, R165) -/

/-- What registers a load wrote, they still hold after the bookkeeping. -/
theorem Loads.retire {size : Size} {rd : Reg} {sp : Space} {a : Nat} {s t : State} (h : Loads size rd sp a s t) :
    Loads size rd sp a s t.retire := by
  cases size <;> exact fun r => (t.reg_retire r).trans (h r)

/-- An instruction whose rule does no more than load (R104 (a)). -/
theorem givesLoad_of_loadFrom {i : Instr} {s : State} {size : Size} {rd : Reg} {sp : Space} {a : Nat}
    (h : exec i s = complete (.done (s.loadFrom (s.mem sp) a size rd)) s) : GivesLoad i s size rd sp a := by
  have loads := s.loads_loadFrom sp a size rd
  obtain ⟨priv, glob, registers⟩ : ∃ priv glob, s.loadFrom (s.mem sp) a size rd =
      { s with self := { s.self with priv := priv, glob := glob } } := ⟨_, _, s.loadFrom_eq (s.mem sp) a size rd⟩
  rw [registers] at h loads
  rw [complete_done] at h
  refine ⟨_, h, loads.retire, State.sequenced_retire rfl rfl rfl, ?only, fun sp' a' => ?memory⟩
  case only =>
    unfold OnlyRegisters
    rw [State.retire_eq]
    rfl
  case memory =>
    rw [State.readByte_retire]
    cases sp' <;> rfl

/-- Settles O28: such an address reaches SRAM, so the rule is a load from it. -/
theorem ldLoadsFromSram : Obligations.LdLoadsFromSram := by
  intro i rd ra rb size imm12 ea s form _ al inside
  have run := Accesses.exec_ld form
  rw [ldRule_sram rd s (dataSpace_of_inside al inside)] at run
  exact givesLoad_of_loadFrom run

/-- Settles O29: such an address is good for the common segment, so the rule is a load from it. -/
theorem ldcLoadsFromCommon : Obligations.LdcLoadsFromCommon := by
  intro i rd ra rb size imm12 ea s form _ al inside
  have run := Accesses.exec_ldc form
  rw [ldcRule_common rd s (commonOk_iff.mpr ⟨al, inside⟩)] at run
  exact givesLoad_of_loadFrom run

/-! ## Stores (R164, R166) -/

theorem Stores.retire {sp : Space} {a : Nat} {bytes : List Byte} {s t : State} (h : Stores sp a bytes s t) :
    Stores sp a bytes s t.retire :=
  fun sp' a' => (t.readByte_retire sp' a').trans (h sp' a')

section
variable {s : State} (a : Nat) (bytes : List Byte)

theorem State.stores_setSram (h : s.self.sram.wf = true) :
    Stores .sram a bytes s (s.setSram (s.self.sram.writeBytes a bytes)) := by
  intro sp a'
  cases sp
  case sram => simpa [State.readByte] using Mem.read_writeBytes h a a' bytes
  all_goals simp [State.readByte]

theorem State.stores_setCommon (h : s.shared.common.wf = true) :
    Stores .common a bytes s (s.setCommon (s.shared.common.writeBytes a bytes)) := by
  intro sp a'
  cases sp
  case common => simpa [State.readByte] using Mem.read_writeBytes h a a' bytes
  all_goals simp [State.readByte]

end

theorem State.onlySram_retire (s : State) (m : Mem) : OnlySram s (s.setSram m).retire := by
  unfold OnlySram
  rw [State.retire_eq]
  rfl

theorem State.onlyCommon_retire (s : State) (m : Mem) : OnlyCommon s (s.setCommon m).retire := by
  unfold OnlyCommon
  rw [State.retire_eq]
  rfl

/-- Settles O30: such an address reaches SRAM, so the rule is a store of one string of bytes there. -/
theorem stStoresToSram : Obligations.StStoresToSram := by
  intro i rd ra rb size imm12 ea s form _ al inside canonical
  have run := Accesses.exec_st form
  rw [stRule_sram rd s (dataSpace_of_inside al inside)] at run
  exact ⟨_, run, (State.stores_setSram _ _ canonical).retire, State.sequenced_retire rfl rfl rfl,
    s.onlySram_retire _⟩

/-- Settles O31: such an address is good for the common segment, so the rule is a store of one string of bytes there. -/
theorem stcStoresToCommon : Obligations.StcStoresToCommon := by
  intro i rd ra rb size imm12 ea s form _ al inside canonical
  have run := Accesses.exec_stc form
  rw [stcRule_common rd s (commonOk_iff.mpr ⟨al, inside⟩)] at run
  exact ⟨_, run, (State.stores_setCommon _ _ canonical).retire, State.sequenced_retire rfl rfl rfl,
    s.onlyCommon_retire _⟩

/-! ## Bad addresses (R342) -/

/-- Settles O32: a bad address reaches no space, and every rule checks that before its first write. -/
theorem badAddressIsFatalAccess : Obligations.BadAddressIsFatalAccess := by
  intro i rd ra rb size imm12 ea s
  refine ⟨fun form bad => ?data, fun form bad => ?common⟩
  case data =>
    have nothing : dataSpace ea size = none :=
      bad.elim dataSpace_of_misaligned fun ⟨outside, not_io⟩ => dataSpace_of_outside outside not_io
    rcases Accesses.of_or form with ld | st
    · exact isFatal_of_complete (ldRule_fatal rd s nothing ▸ ld.exec_ld)
    · exact isFatal_of_complete (stRule_fatal rd s nothing ▸ st.exec_st)
  case common =>
    have refused : ¬commonOk ea size = true := by
      rw [commonOk_iff]
      omega
    rcases Accesses.of_or form with ldc | stc
    · exact isFatal_of_complete (ldcRule_fatal rd s refused ▸ ldc.exec_ldc)
    · exact isFatal_of_complete (stcRule_fatal rd s refused ▸ stc.exec_stc)

end Sys2Proof.Machine
end

section
/-! PROOFS. Decode after encode (R60 to R89): dispatch reads the opcode back, and the decoder of each layout the fields
that its encoder wrote. -/

namespace Sys2Proof

/-! ## Written fields (R61) -/

/-- A field that was written shows in no field and no flag apart from it. -/
@[simp] theorem put_apart {a b : Nat} {v : BitVec (b - a)} {h : a < b ∧ b ≤ 32} :
    (∀ s e valid, b ≤ s ∨ e ≤ a → fld (put a b v h) s e valid = 0) ∧
    (∀ s valid, b ≤ s ∨ s < a → flag (put a b v h) s valid = false) :=
  ⟨fun s e => fld_put_other a b v h s e, fun s => flag_put_other a b v h s⟩

/-- A flag that was written shows in no field and no flag apart from it. -/
@[simp] theorem putFlag_apart {a : Nat} {c : Bool} {h : a < 32} :
    (∀ s e valid, a < s ∨ e ≤ a → fld (putFlag a c h) s e valid = 0) ∧
    (∀ s valid, a ≠ s → flag (putFlag a c h) s valid = false) :=
  ⟨fun s e => fld_putFlag_other a c h s e, fun s => flag_putFlag_other a c h s⟩

/-! ## Decode after encode -/

/-- Each case is one layout, with all the instructions that it holds. A pair that runs past `r31` is the only thing
well-formedness excludes, so the cases that can name one take it from there. -/
theorem decodeWord_encode {i : Instr} (wf : i.wellFormed = true) : decodeWord (encode i) = .ok i := by
  cases i with
  | nop | ret | movi | ctxswap | bbtx | ffi | ichk | cnt | crypto =>
    simp (disch := decide) [encode, decodeWord, fld_put_inside, decodeGeneral]
  | addR | addI | subR | subI | andR | andI | orR | orI | xorR | xorI | mulR | mulI =>
    simp (disch := decide) [encode, encodeAlu, decodeWord, fld_put_inside, decodeGeneral, decodeAlu, aluModsOf]
  | sllR | sllI | srlR | srlI | sraR | sraI =>
    simp (disch := decide) [encode, encodeShift, decodeWord, fld_put_inside, decodeGeneral, decodeShift]
  | insert | extract =>
    simp (disch := decide) [encode, encodeBitField, decodeWord, fld_put_inside, decodeGeneral]
  | sext8 | sext16 => simp (disch := decide) [encode, decodeWord, fld_put_inside, decodeGeneral, decodeSext]
  | ldD | ldXI | ldXR | stD | stXI | stXR | ldcD | ldcXI | ldcXR | stcD | stcXI | stcXR =>
    have pair : transferOk _ _ = true := wf
    simp (disch := decide) [encode, encodeLoadStore, decodeWord, fld_put_inside, decodeGeneral, decodeLoadStore, pair]
  | cmpjR | cmpjI =>
    simp (disch := decide) [encode, encodeCmpj, decodeWord, fld_put_inside, decodeGeneral, decodeCmpj]
  | bz =>
    simp (disch := decide) [encode, decodeWord, fld_put_inside, decodeGeneral, decodeBz]
    rfl
  | hash wake kw tbl slot rk =>
    have pair : pairOk rk = true := wf
    simp (disch := decide) [encode, decodeWord, fld_put_inside, decodeGeneral, decodeHash, pair]
  | crc | cam => simp (disch := decide) [encode, decodeWord, fld_put_inside, decodeGeneral, decodeRamman]
  | bbmsg wake w64 mtype dest rp =>
    have pair : (!w64 || pairOk rp) = true := wf
    simp (disch := decide) [encode, decodeWord, fld_put_inside, decodeGeneral, decodeBbmsg, pair]
  | jmp | jmpr =>
    simp (disch := decide) [encode, encodeJump, decodeWord, fld_put_inside, decodeJump]
    rfl
  | ljmp | lcall => simp (disch := decide) [encode, encodeLong, decodeWord, fld_put_inside, decodeJump]
  | dmard | dmawr => simp (disch := decide) [encode, encodeDma, decodeWord, decodeDma]
  | dmal => simp (disch := decide) [encode, decodeWord, decodeDma]

/-- Four bytes at the head of a string decode as the word they are of (R41). -/
theorem decode_wordBytes (w : Word) (rest : List Byte) :
    decode (wordBytes w ++ rest) = (decodeWord w).map (fun i => (i, rest)) := by
  simp [wordBytes, decode]

/-- Settles O1: the word of an instruction decodes back, and its four bytes decode as that word. -/
theorem decodeOfEncodeIsIdentity : Obligations.DecodeOfEncodeIsIdentity := by
  intro i rest wf
  have word := decodeWord_encode wf
  refine ⟨word, ?_⟩
  rw [encodeBytes, decode_wordBytes, word]
  rfl

end Sys2Proof
end

section
/-! PROOFS. What the decoder makes of any word: it refuses the words of R88 and no others, and the instruction that it
reads from another word is well-formed and encodes to the bits of the word that some field covers (R88, R89). -/

namespace Sys2Proof

/-! ## Fields of a word (R61) -/

/-- Settles O4: a field is an extraction of bits. -/
theorem fieldIsShiftedAndCut : Obligations.FieldIsShiftedAndCut :=
  fun w s e _ => w.extractLsb'_toNat (32 - e) (e - s)

/-- A field inside another field is a slice of it. -/
theorem fld_inside (w : Word) (s e s' e' : Nat) (h : s < e ∧ e ≤ 32) (h' : s' < e' ∧ e' ≤ 32)
    (inside : s ≤ s' ∧ e' ≤ e) : fld w s' e' h' = (fld w s e h).extractLsb' (e - e') (e' - s') := by
  ext k hk
  have within : e - e' + k < e - s := by omega
  have place : 32 - e + (e - e' + k) = 32 - e' + k := by omega
  simp [fld, within, place]

/-- The code of the DMA group is the upper four bits of `op6` (R62). -/
theorem fld_0_4 (w : Word) : fld w 0 4 = (fld w 0 6).extractLsb' 2 4 :=
  fld_inside w 0 6 0 4 (by decide) (by decide) (by decide)

/-- The code of the jumps is the upper five bits of `op6` (R62). -/
theorem fld_0_5 (w : Word) : fld w 0 5 = (fld w 0 6).extractLsb' 1 5 :=
  fld_inside w 0 6 0 5 (by decide) (by decide) (by decide)

/-- R88 writes the flag `w64` as a field of one bit. -/
theorem fld_7_8_iff (w : Word) : fld w 7 8 = 1 ↔ flag w 7 = true := by
  have one : ∀ b : BitVec 1, b = 1 ↔ b.getLsbD 0 = true := by decide
  have bit : (fld w 7 8).getLsbD 0 = flag w 7 := by simp [fld, flag]
  rw [one, bit]

/-- The bits that a written field has in common with a word are those it has in common with that field of it. -/
theorem put_and {s e : Nat} (v : BitVec (e - s)) (h : s < e ∧ e ≤ 32) (w : Word) :
    put s e v h &&& w = put s e (v &&& fld w s e h) h := by
  ext k hk
  by_cases low : k < 32 - e
  · simp [put, low]
  · have place : 32 - e + (k - (32 - e)) = k := by omega
    by_cases high : k - (32 - e) < e - s
    · simp [put, fld, low, high, place, hk]
    · simp [put, low, BitVec.getLsbD_of_ge _ _ (Nat.le_of_not_lt high)]

theorem putFlag_and {s : Nat} (b : Bool) (h : s < 32) (w : Word) :
    putFlag s b h &&& w = putFlag s (b && flag w s h) h := by
  ext k hk
  by_cases here : k = 31 - s
  · subst here
    simp [putFlag, flag, BitVec.getLsbD_eq_getElem hk]
  · rcases Nat.lt_or_gt_of_ne here with low | high
    · simp [putFlag, low]
    · have beyond : k - (31 - s) ≠ 0 := by omega
      simp [putFlag, BitVec.getLsbD_ofBool, beyond]

/-! ## Words that lie within a word -/

/-- Every bit that `a` sets is set in `w`. -/
def Within (a w : Word) : Prop := a &&& w = a

theorem within_iff {a w : Word} : Within a w ↔ ∀ k (_ : k < 32), a[k] = true → w[k] = true := by
  refine ⟨fun h k hk set => ?_, fun h => BitVec.eq_of_getElem_eq fun k hk => ?_⟩
  · have bit : (a &&& w)[k] = a[k] := congrArg (fun x : Word => x[k]) h
    simpa [set] using bit
  · simpa using h k hk

@[simp] theorem within_or {a b w : Word} : Within (a ||| b) w ↔ Within a w ∧ Within b w := by
  simp only [within_iff, BitVec.getElem_or, Bool.or_eq_true]
  exact ⟨fun both => ⟨fun k hk ha => both k hk (.inl ha), fun k hk hb => both k hk (.inr hb)⟩,
    fun ⟨left, right⟩ k hk => Or.rec (left k hk) (right k hk)⟩

@[simp] theorem within_put {s e : Nat} {v : BitVec (e - s)} {h : s < e ∧ e ≤ 32} {w : Word} :
    Within (put s e v h) w ↔ v &&& fld w s e h = v := by
  rw [Within, put_and]
  exact ⟨fun eq => by simpa using congrArg (fld · s e h) eq, congrArg (put s e · h)⟩

@[simp] theorem within_putFlag {s : Nat} {b : Bool} {h : s < 32} {w : Word} :
    Within (putFlag s b h) w ↔ (b && flag w s h) = b := by
  rw [Within, putFlag_and]
  exact ⟨fun eq => by simpa using congrArg (flag · s h) eq, congrArg (putFlag s · h)⟩

/-! ## Right answers of a decoder -/

/-- The instruction is well-formed and its word sets no bit that `w` does not set. -/
def Reads (w : Word) (i : Instr) : Prop := i.wellFormed = true ∧ Within (encode i) w

/-- A decoder's answer for `w` is right: it refuses just when `bad`, and else the instruction it gives reads `w`. -/
def Faithful (w : Word) (bad : Prop) : Except DecodeError Instr → Prop
  | .ok i => ¬bad ∧ Reads w i
  | .error _ => bad

section
variable {w : Word} {bad : Prop} {r : Except DecodeError Instr}

theorem Faithful.congr {bad' : Prop} (h : Faithful w bad r) (same : bad ↔ bad') : Faithful w bad' r := by
  rwa [← propext same]

theorem Faithful.refuses_iff (h : Faithful w bad r) : (∃ e, r = .error e) ↔ bad := by
  cases r with
  | ok i => exact ⟨fun ⟨_, refused⟩ => (nomatch refused), fun b => absurd b h.1⟩
  | error e => exact ⟨fun _ => h, fun _ => ⟨e, rfl⟩⟩

theorem Faithful.reads {i : Instr} (h : Faithful w bad r) (ok : r = .ok i) : Reads w i := by
  subst ok
  exact h.2

/-- A layout that only checks for a pair past `r31` (R88). -/
theorem Faithful.guarded {ok : Bool} {i : Instr} {e : DecodeError} (legal : ok = true ↔ ¬bad)
    (reads : ok = true → Reads w i) : Faithful w bad (if ok then .ok i else .error e) := by
  split
  case isTrue h => exact ⟨legal.mp h, reads h⟩
  case isFalse h => exact not_not.mp (mt legal.mpr h)

end

/-! ## Sub-fields: the inverse of their codes, or the reserved value -/

@[simp] theorem bits_sizeOfBits (b : BitVec 2) : (sizeOfBits b).bits = b := by revert b; decide
@[simp] theorem bits_cmpOfBits (b : BitVec 2) : (cmpOfBits b).bits = b := by revert b; decide
@[simp] theorem bit_keyWidthOfBit (b : Bool) : (keyWidthOfBit b).bit = b := by revert b; decide

theorem delayOfBits_cases (b : BitVec 2) : (b = 3#2 ∧ delayOfBits b = .error .reservedDelay) ∨
    (¬b = 3#2 ∧ ∃ ds, delayOfBits b = .ok ds ∧ bitsOfThree ds = b) := by
  revert b; decide

theorem tableOfBits_cases (b : BitVec 2) : (b = 3#2 ∧ tableOfBits b = .error .reservedTable) ∨
    (¬b = 3#2 ∧ ∃ tbl, tableOfBits b = .ok tbl ∧ bitsOfThree tbl = b) := by
  revert b; decide

theorem halfOfBits_cases (b : BitVec 2) : (b = 3#2 ∧ halfOfBits b = .error .reservedHalf) ∨
    (¬b = 3#2 ∧ ∃ half, halfOfBits b = .ok half ∧ half.bits = b) := by
  match b with
  | 0 | 1 | 2 => exact .inr ⟨by decide, _, rfl, rfl⟩
  | 3 => exact .inl ⟨rfl, rfl⟩

theorem condOfBits_cases (b : BitVec 3) : (5 ≤ b.toNat ∧ condOfBits b = .error .reservedCond) ∨
    (¬5 ≤ b.toNat ∧ ∃ cond, condOfBits b = .ok cond ∧ cond.bits = b) := by
  match b with
  | 0 | 1 | 2 | 3 | 4 => exact .inr ⟨by decide, _, rfl, rfl⟩
  | 5 | 6 | 7 => exact .inl ⟨by decide, rfl⟩

theorem pairOk_iff (r : Reg) : pairOk r = true ↔ ¬r = 31 := by simp [pairOk]

theorem transferOk_iff (b : BitVec 2) (rd : Reg) : transferOk (sizeOfBits b) rd = true ↔ ¬(b = 3 ∧ rd = 31) := by
  revert b rd; decide

theorem two_bits (b : BitVec 2) : b = 0 ∨ b = 1 ∨ b = 2 ∨ b = 3 := by revert b; decide

theorem ok_bind {ε α β : Type} (a : α) (f : α → Except ε β) : (Except.ok a >>= f) = f a := rfl

/-! ## The layouts: when each decoder refuses, and that it else reads the word -/

section
variable {w : Word}

/-- Layout "ALU" (R70), at any of its opcodes. -/
theorem decodeAlu_reads {op : BitVec 6} {mkR : Reg → Reg → AluMods → Reg → Instr}
    {mkI : Reg → Reg → AluMods → BitVec 10 → Instr} (h : fld w 0 6 = op)
    (register : ∀ rd ra m rb, (mkR rd ra m rb).wellFormed = true ∧
      encode (mkR rd ra m rb) = (encodeAlu op rd ra false m ||| put 22 27 rb))
    (immediate : ∀ rd ra m imm10, (mkI rd ra m imm10).wellFormed = true ∧
      encode (mkI rd ra m imm10) = (encodeAlu op rd ra true m ||| put 22 32 imm10)) :
    Reads w (decodeAlu mkR mkI w) := by
  unfold decodeAlu
  split
  case isTrue i => simp [Reads, immediate, encodeAlu, aluModsOf, h, i]
  case isFalse i => simp [Reads, register, encodeAlu, aluModsOf, h]

/-- Layout "shift" (R71). -/
theorem decodeShift_faithful (h : fld w 0 6 = 0x08) : Faithful w (fld w 16 18 = 3) (decodeShift w) := by
  rcases two_bits (fld w 16 18) with mode | mode | mode | mode
  case inr.inr.inr => simp [decodeShift, mode, Faithful]
  all_goals
    cases i : flag w 18 <;>
      simp [decodeShift, mode, i, Faithful, Reads, Instr.wellFormed, encode, encodeShift, h]

/-- Layout "sign-extend" (R73). -/
theorem decodeSext_faithful (h : fld w 0 6 = 0x0B) : Faithful w (2 ≤ (fld w 16 18).toNat) (decodeSext w) := by
  rcases two_bits (fld w 16 18) with sz | sz | sz | sz <;>
    simp [decodeSext, sz, Faithful, Reads, Instr.wellFormed, encode, h]

/-- Layout "load/store" (R68), at any of its opcodes. -/
theorem decodeLoadStore_faithful {op : BitVec 6} {mkD mkXI : Reg → Reg → Size → BitVec 12 → Instr}
    {mkXR : Reg → Reg → Size → Reg → Instr} (h : fld w 0 6 = op)
    (direct : ∀ rd ra size off12, (mkD rd ra size off12).wellFormed = transferOk size rd ∧
      encode (mkD rd ra size off12) = (encodeLoadStore op rd ra size 0 ||| put 20 32 off12))
    (indexed : ∀ rd ra size idx12, (mkXI rd ra size idx12).wellFormed = transferOk size rd ∧
      encode (mkXI rd ra size idx12) = (encodeLoadStore op rd ra size 1 ||| put 20 32 idx12))
    (register : ∀ rd ra size rb, (mkXR rd ra size rb).wellFormed = transferOk size rd ∧
      encode (mkXR rd ra size rb) = (encodeLoadStore op rd ra size 2 ||| put 27 32 rb)) :
    Faithful w (fld w 18 20 = 3 ∨ (fld w 16 18 = 3 ∧ fld w 6 11 = 31)) (decodeLoadStore mkD mkXI mkXR w) := by
  rcases two_bits (fld w 18 20) with am | am | am | am
  case inr.inr.inr => simp [decodeLoadStore, am, Faithful]
  all_goals
    simp only [decodeLoadStore, am]
    refine (Faithful.guarded (transferOk_iff _ _) fun pair => ?_).congr (by simp)
    simp [Reads, direct, indexed, register, encodeLoadStore, h, pair, am]

/-- Layout "compare-jump" (R65). -/
theorem decodeCmpj_faithful (h : fld w 0 6 = 0x10) : Faithful w (fld w 6 8 = 3) (decodeCmpj w) := by
  unfold decodeCmpj
  obtain ⟨bad, e⟩ | ⟨good, ds, e, code⟩ := delayOfBits_cases (fld w 6 8) <;> rw [e]
  case inl => exact bad
  case inr =>
    cases i : flag w 16 <;> simp [i, Faithful, good, Reads, Instr.wellFormed, encode, encodeCmpj, h, code]

/-- Layout "branch-if-zero" (R66). -/
theorem decodeBz_faithful (h : fld w 0 6 = 0x11) : Faithful w (fld w 6 8 = 3 ∨ fld w 9 11 = 3) (decodeBz w) := by
  unfold decodeBz
  obtain ⟨bad, e⟩ | ⟨good, ds, e, code⟩ := delayOfBits_cases (fld w 6 8) <;> rw [e]
  case inl => exact .inl bad
  obtain ⟨bad', e'⟩ | ⟨good', half, e', code'⟩ := halfOfBits_cases (fld w 9 11) <;> rw [e', ok_bind]
  case inl => exact .inr bad'
  simp [Faithful, good, good', Reads, Instr.wellFormed, encode, h, code, code']

/-- Layout "hash" (R76). -/
theorem decodeHash_faithful (h : fld w 0 6 = 0x13) :
    Faithful w (fld w 8 10 = 3 ∨ fld w 12 17 = 31) (decodeHash w) := by
  unfold decodeHash
  obtain ⟨bad, e⟩ | ⟨good, tbl, e, code⟩ := tableOfBits_cases (fld w 8 10) <;> rw [e]
  case inl => exact .inl bad
  refine (Faithful.guarded (pairOk_iff _) fun pair => ?_).congr (by simp [good])
  simp [Reads, Instr.wellFormed, encode, h, code, pair]

/-- Layout "CRC/CAM" (R77). -/
theorem decodeRamman_reads (h : fld w 0 6 = 0x14) : Reads w (decodeRamman w) := by
  unfold decodeRamman
  split
  case isTrue mode => simp [Reads, Instr.wellFormed, encode, h, mode]
  case isFalse mode => simp [Reads, Instr.wellFormed, encode, h]

/-- Layout "buffer-message" (R79). -/
theorem decodeBbmsg_faithful (h : fld w 0 6 = 0x16) :
    Faithful w (fld w 7 8 = 1 ∧ fld w 16 21 = 31) (decodeBbmsg w) := by
  rw [fld_7_8_iff]
  refine Faithful.guarded (by simp [pairOk_iff, imp_iff_not_or]) fun pair => ?_
  simp [Reads, Instr.wellFormed, encode, h, pair]

/-- Layouts "jump" (R64) and "long-jump" (R67). -/
theorem decodeJump_faithful (h : fld w 0 5 = Config.jmpPrefix) :
    Faithful w (fld w 6 8 = 3 ∨ (flag w 5 = false ∧ 5 ≤ (fld w 9 12).toNat)) (decodeJump w) := by
  unfold decodeJump
  obtain ⟨bad, e⟩ | ⟨good, ds, e, code⟩ := delayOfBits_cases (fld w 6 8) <;> rw [e]
  case inl => exact .inl bad
  rw [ok_bind]
  cases long : flag w 5
  case true =>
    cases call : flag w 9 <;>
      simp [call, pure, Except.pure, Faithful, good, Reads, Instr.wellFormed, encode, encodeLong, h, code, long]
  case false =>
    obtain ⟨bad', e'⟩ | ⟨good', cond, e', code'⟩ := condOfBits_cases (fld w 9 12) <;> simp only [e', ok_bind]
    case inl => exact .inr ⟨trivial, bad'⟩
    cases tm : flag w 12 <;>
      simp [tm, pure, Except.pure, Faithful, good, good', Reads, Instr.wellFormed, encode, encodeJump, h, code, code']

/-- Layouts "DMA" (R74) and "DMA-lookup" (R75). -/
theorem decodeDma_faithful (h : fld w 0 4 = Config.dmaPrefix) : Faithful w (fld w 4 6 = 3) (decodeDma w) := by
  rcases two_bits (fld w 4 6) with sub | sub | sub | sub <;>
    simp [decodeDma, sub, Faithful, Reads, Instr.wellFormed, encode, encodeDma, h]

/-! ## The whole decoder -/

open Machine (IllegalWord)

/-- The general table (R63), where neither code of R62 stands. The rows are in the order of their opcodes, so that the
row of opcode `n` is alternative `n + 1`. -/
theorem decodeGeneral_faithful (low : fld w 0 6 < 0x3A#6) : Faithful w (IllegalWord w) (decodeGeneral w) := by
  unfold decodeGeneral
  split
  -- Rows that reserve no value: the ALU family, CRC/CAM, and those that the table decodes itself.
  case h_2 h | h_3 h | h_4 h | h_5 h | h_6 h | h_7 h =>
    refine ⟨by simp [IllegalWord, fld_0_4, fld_0_5, h], ?_⟩
    exact decodeAlu_reads h (fun _ _ _ _ => ⟨rfl, rfl⟩) (fun _ _ _ _ => ⟨rfl, rfl⟩)
  case h_21 h => exact ⟨by simp [IllegalWord, fld_0_4, fld_0_5, h], decodeRamman_reads h⟩
  case h_1 h | h_8 h | h_10 h | h_11 h | h_19 h | h_22 h | h_24 h | h_25 h | h_26 h | h_27 h | h_28 h =>
    refine ⟨by simp [IllegalWord, fld_0_4, fld_0_5, h], ?_⟩
    simp [Reads, Instr.wellFormed, encode, encodeBitField, h]
  -- Rows with reserved values.
  case h_9 h => exact (decodeShift_faithful h).congr (by simp [IllegalWord, fld_0_4, fld_0_5, h])
  case h_12 h => exact (decodeSext_faithful h).congr (by simp [IllegalWord, fld_0_4, fld_0_5, h])
  case h_13 h | h_14 h | h_15 h | h_16 h =>
    exact (decodeLoadStore_faithful h (fun _ _ _ _ => ⟨rfl, rfl⟩) (fun _ _ _ _ => ⟨rfl, rfl⟩)
      (fun _ _ _ _ => ⟨rfl, rfl⟩)).congr (by simp [IllegalWord, fld_0_4, fld_0_5, h])
  case h_17 h => exact (decodeCmpj_faithful h).congr (by simp [IllegalWord, fld_0_4, fld_0_5, h])
  case h_18 h => exact (decodeBz_faithful h).congr (by simp [IllegalWord, fld_0_4, fld_0_5, h])
  case h_20 h => exact (decodeHash_faithful h).congr (by simp [IllegalWord, fld_0_4, fld_0_5, h])
  case h_23 h => exact (decodeBbmsg_faithful h).congr (by simp [IllegalWord, fld_0_4, fld_0_5, h])
  -- No row.
  case h_29 => exact .inl (by constructor <;> simp only [imp_false] at * <;> bv_omega)

/-- Decoding is right at every word, and what it refuses is R88. -/
theorem decodeWord_faithful (w : Word) : Faithful w (IllegalWord w) (decodeWord w) := by
  unfold decodeWord
  split
  case isTrue dma =>
    have group : ∀ op : BitVec 6, op.extractLsb' 2 4 = Config.dmaPrefix →
        op = 0x3C ∨ op = 0x3D ∨ op = 0x3E ∨ op = 0x3F := by decide
    refine (decodeDma_faithful dma).congr ?_
    rcases group _ (fld_0_4 w ▸ dma) with h | h | h | h <;> simp [IllegalWord, fld_0_4, fld_0_5, h]
  case isFalse noDma =>
    split
    case isTrue jump =>
      have group : ∀ op : BitVec 6, op.extractLsb' 1 5 = Config.jmpPrefix → op = 0x3A ∨ op = 0x3B := by decide
      have long : flag w 5 = (fld w 0 6).getLsbD 0 := by simp [flag, fld]
      refine (decodeJump_faithful jump).congr ?_
      rcases group _ (fld_0_5 w ▸ jump) with h | h <;> simp [IllegalWord, fld_0_4, fld_0_5, long, h]
    case isFalse noJump =>
      have general : ∀ op : BitVec 6, op.extractLsb' 2 4 ≠ Config.dmaPrefix →
          op.extractLsb' 1 5 ≠ Config.jmpPrefix → op < 0x3A#6 := by decide
      exact decodeGeneral_faithful (general _ (fld_0_4 w ▸ noDma) (fld_0_5 w ▸ noJump))

end

/-- Settles O2: the decoder's answer reads the word, so it is well-formed, and what is well-formed decodes back. -/
theorem decodeLosesOnlyIgnoredBits : Obligations.DecodeLosesOnlyIgnoredBits := by
  intro w i ok
  obtain ⟨wf, within⟩ := (decodeWord_faithful w).reads ok
  exact ⟨wf, within, decodeWord_encode wf⟩

/-- A word that the decoder refuses halts the processor that is about to run it (R341, R109). -/
theorem Machine.step_of_refused {s : Machine.State} {e : DecodeError} (running : s.self.halted = false)
    (unparked : s.self.stall.cause ≠ .noContext) (refused : decodeWord s.word = .error e) :
    Machine.step s = .next (s.halt .decode s.ipc (.word s.word)).nextTurn := by
  simp [Machine.step, Machine.State.runnable, running, unparked, refused]

/-- Settles O3: decoding refuses R88's words alone, and the step of a refused word is the halt. -/
theorem illegalWordsAreFatalDecode : Obligations.IllegalWordsAreFatalDecode := by
  refine ⟨fun w => (decodeWord_faithful w).refuses_iff, fun s running unparked illegal => ?_⟩
  obtain ⟨e, refused⟩ := (decodeWord_faithful s.word).refuses_iff.mpr illegal
  exact Machine.step_of_refused running unparked refused

/-- Settles O5: each word is fixed, so the decoder runs on it. -/
theorem specEncodingsDecode : Obligations.SpecEncodingsDecode := by
  refine ⟨?_, ?_, ?_, ?_, ?_, ?_, ?_, ?_, ?_, ?_, ?_, ?_, ?_⟩ <;> decide

end Sys2Proof
end

section
/-! PROOFS. The execution cycle: the parts of a step of a running, a parked and a halted processor; a scheduler tick
without a choice; the violations of a CTXSWAP shadow; the stall of an invocation whose unit is full (R100 to R109,
R213, R265). -/

namespace Sys2Proof.Machine

/-! ## The step, by the state of its processor (R100 to R109) -/

section
variable {s : State}

/-- A processor that is not halted keeps its turn. -/
theorem State.runnable_of_running (running : s.self.halted = false) : s.runnable = s := by
  simp [State.runnable, running]

theorem step_of_exec {i : Instr} {t : State} (running : s.self.halted = false)
    (unparked : s.self.stall.cause ≠ .noContext) (decodes : decodeWord s.word = .ok i)
    (runs : exec i s = .next t) : step s = .next t.afterInstr.nextTurn := by
  simp [step, State.runnable_of_running running, running, unparked, decodes, runs]

/-- A parked processor selects no instruction (R108). -/
theorem step_of_parked (running : s.self.halted = false) (parked : s.self.stall.cause = .noContext) :
    step s = .next s.endTick.nextTurn := by
  simp [step, State.runnable_of_running running, running, parked]

/-- A halted processor has no tick: its turn is the other one's (R101). -/
theorem step_of_halted (halted : s.self.halted = true) (running : s.peer.halted = false) :
    step s = step s.passTurn := by
  have turn : s.runnable = s.passTurn := by simp [State.runnable, halted]
  have stays : s.passTurn.runnable = s.passTurn := State.runnable_of_running running
  simp only [step, turn, stays]

end

/-- The schedule names the processor of the next tick (R352). -/
theorem State.nextTurn_me (s : State) : s.nextTurn.me = Config.schedule (s.ticks + 1) := by
  unfold State.nextTurn
  simp only
  split
  · rename_i same
    exact same.symm
  · rename_i differs
    exact (ProcId.eq_other_of_ne differs).symm

/-- Either processor's turn next, the tick is counted and what both share is as it was. -/
theorem State.nextTurn_keeps (s : State) :
    s.nextTurn.ticks = s.ticks + 1 ∧ s.nextTurn.shared = s.shared ∧ s.nextTurn.draws = s.draws := by
  unfold State.nextTurn
  simp only
  split <;> exact ⟨rfl, rfl, rfl⟩

/-- Settles O6: one lemma for each state of the ticking processor, and the end of a tick and the turn as defined. -/
theorem stepRunsTheDecodedInstruction : Obligations.StepRunsTheDecodedInstruction := by
  refine ⟨fun s t i running unparked decodes runs => step_of_exec running unparked decodes runs,
    fun s running parked => step_of_parked running parked,
    fun s halted running => step_of_halted halted running, fun s => rfl, exec_next, fun s => ?_⟩
  obtain ⟨ticks, shared, draws⟩ := s.nextTurn_keeps
  exact ⟨ticks, s.nextTurn_me, s.nextTurn_proc, shared, draws⟩

/-! ## A parked processor with no thread to run (R108, R214, R217) -/

/-- Out of phase, or without a candidate, the scheduler tick records at most that there is no choice: no swap
follows (R216, R217). -/
theorem State.schedTick_of_no_choice {s : State}
    (no_choice : s.self.clk % Config.schedPeriod ≠ 0 ∨ chooseThread s.self.threads = none) :
    ∃ valid noCandidate, s.schedTick = { s with self :=
      { s.self with nextValid := valid, noCandidate := noCandidate } } := by
  by_cases phase : s.self.clk % Config.schedPeriod = 0
  · have nobody : chooseThread s.self.threads = none := no_choice.resolve_left (not_not_intro phase)
    exact ⟨false, true, by simp [State.schedTick, State.arbitrate, phase, nobody]⟩
  · exact ⟨s.self.nextValid, s.self.noCandidate, by simp [State.schedTick, phase]⟩

/-- A scheduler tick that does not halt the processor is followed by timers and clock (R100). -/
theorem State.endTick_of_running {s : State} (running : s.accTick.schedTick.self.halted = false) :
    s.endTick = s.accTick.schedTick.timerTick.clockTick := by
  rcases s.endTick_cases with ⟨-, halted⟩ | e
  · rw [running] at halted
    cases halted
  · exact e

/-- Settles O8: of the parts of the tick, completions touch no register, the scheduler makes no choice and so no swap
follows, and timers and clock are all that is left. -/
theorem parkedProcessorRunsNothing : Obligations.ParkedProcessorRunsNothing := by
  intro s s' running parked no_choice h
  have acc := s.accTick_frame
  rw [← acc.clk] at no_choice
  obtain ⟨valid, noCandidate, sched⟩ := State.schedTick_of_no_choice no_choice
  have ends := State.endTick_of_running (s := s) (by rw [sched]; exact acc.halted.trans running)
  rw [step_of_parked running parked] at h
  cases h
  have ticked : s.endTick.nextTurn.proc s.me = s.endTick.self := by
    rw [State.nextTurn_proc, ← s.endTick_keepsPeer.me, State.proc_me]
  rw [ticked, ends, State.timerTick_eq, sched]
  exact ⟨acc.priv, acc.glob, acc.flags, acc.pc, acc.cs, acc.csDepth, acc.pipe, acc.ctx, acc.cur, acc.saveCtx,
    acc.stall, acc.halted.trans running, congrArg (· + 1) acc.clk⟩

/-! ## The CTXSWAP shadow (R212, R213) -/

/-- The offset of shadow instruction `k` of the CTXSWAP at `pc` (R212). -/
def State.shadowOffset (s : State) (k : Nat) : CodeOff := maskPc (s.self.pc + BitVec.ofNat 16 (4 * k))

/-- No control transfer has a rule for the shadow (R212). -/
theorem shadowRule_of_controlTransfer {i : Instr} (transfer : i.isControlTransfer = true) (s : State) :
    shadowRule i s = none := by
  cases i <;> first | rfl | cases transfer

section
variable {s u : State}

theorem shadowStep_of_halts {k : Nat} (halts : ShadowHalts s s.self.pc (s.shadowOffset k) u) :
    shadowStep k s = .halted u := by
  unfold State.shadowOffset at halts
  rcases halts with ⟨e, refused, rfl⟩ | ⟨i, decodes, ⟨transfer, rfl⟩ | ⟨c, rule, rfl⟩ | ⟨cause, info, rule, rfl⟩⟩
  · simp [shadowStep, refused]
  · simp [shadowStep, decodes, shadowRule_of_controlTransfer transfer]
  · simp [shadowStep, decodes, rule]
  · simp [shadowStep, decodes, rule]

theorem shadowStep_of_runs {k : Nat} (runs : ShadowRuns s (s.shadowOffset k) u) : shadowStep k s = .ran u := by
  unfold State.shadowOffset at runs
  obtain ⟨i, decodes, rule⟩ := runs
  simp [shadowStep, decodes, rule]

/-- A shadow instruction that takes effect leaves `pc` on the CTXSWAP (R212). -/
theorem ShadowRuns.pc {a : CodeOff} (runs : ShadowRuns s a u) : u.self.pc = s.self.pc := by
  obtain ⟨i, -, rule⟩ := runs
  exact (shadowRule_effect rule).frame.pc

theorem execCtxswap_of_first_halted (save : Bool) (fetched : s.self.pipe = []) (first : shadowStep 1 s = .halted u) :
    execCtxswap save s = .next u := by
  rw [execCtxswap, control_of_nil fetched, first]

theorem execCtxswap_of_second_halted (save : Bool) {s1 : State} (fetched : s.self.pipe = [])
    (first : shadowStep 1 s = .ran s1) (second : shadowStep 2 s1 = .halted u) : execCtxswap save s = .next u := by
  simp only [execCtxswap, control_of_nil fetched, first, second]

end

/-- Settles O46: a violation halts the shadow step that meets it; the second one runs at the same `pc`, from the state
that the first left. -/
theorem shadowViolationsHalt : Obligations.ShadowViolationsHalt := by
  intro save s s1 u fetched
  refine ⟨fun halts => ?first, fun runs halts => ?second⟩
  case first => exact execCtxswap_of_first_halted save fetched (shadowStep_of_halts (k := 1) halts)
  case second =>
    rw [← runs.pc] at halts
    exact execCtxswap_of_second_halted save fetched (shadowStep_of_runs (k := 1) runs)
      (shadowStep_of_halts (k := 2) halts)

/-! ## Full units (R245, R265) -/

theorem rangeOk_iff {size align bytes : Nat} {addr : Word} :
    rangeOk size align addr bytes = true ↔ addr.toNat % align = 0 ∧ addr.toNat + bytes ≤ size := by
  simp [rangeOk]

/-- A queue that holds its depth of entries has no room (R265). -/
theorem Fifo.full_of_length_eq {α : Type} {f : Fifo α} {u : Accel} (depth : f.entries.length = Config.depth u) :
    f.full u = true :=
  decide_eq_true depth.ge

/-- An instruction whose own rule stalls (R104 (b)). -/
theorem isStalled_of_rule {i : Instr} {s : State} {r : Result} {c : StallCause} (runs : exec i s = complete r s)
    (stalls : r = .stalled c) : IsStalled i s c :=
  isStalled_of_complete (stalls ▸ runs)

/-- A raw address is one relative to a pool at 0 (R246). -/
theorem dmaCommonAddr_eq (x : Word) (bp : Bool) :
    dmaCommonAddr x bp = x + (if bp then Config.bpoolBase else 0) := by
  cases bp <;> simp [dmaCommonAddr]

section
variable {s : State} (wake : Bool)

theorem dmaRule_of_full {op : DmaOp} (full : s.self.dma.full .dma = true)
    (sram : rangeOk Config.sramBytes 4 op.saddr (4 * op.nwords) = true)
    (common : rangeOk Config.commonBytes 4 op.caddr (4 * op.nwords) = true) :
    dmaRule wake op s = .stalled .dmaFull := by
  simp [dmaRule, sram, common, full]

theorem ruleHash_of_full (kw : KeyWidth) (tbl : LookupTable) (slot : BitVec 2) (rk : Reg)
    (full : s.self.hash.full .hash = true) : ruleHash wake kw tbl slot rk s = .stalled .hashFull := by
  simp [ruleHash, full]

theorem ruleCrc_of_full (slot prof : BitVec 2) {ra : Reg} {n : BitVec 10} (full : s.self.ramman.full .ramman = true)
    (sram : rangeOk Config.sramBytes 4 (s.reg ra) (4 * n.toNat) = true) :
    ruleCrc wake slot prof ra n s = .stalled .rammanBusy := by
  simp [ruleCrc, sram, full]

theorem ruleCam_of_full (slot tsz : BitVec 2) (rk rm : Reg) (full : s.self.ramman.full .ramman = true) :
    ruleCam wake slot tsz rk rm s = .stalled .rammanBusy := by
  simp [ruleCam, full]

theorem ruleCnt_of_full (dec : Bool) {w4 : Bool} (frz : Bool) {rc : Reg} (amt : BitVec 8)
    (full : s.self.counter.full .counter = true)
    (common : rangeOk Config.commonBytes (counterBytes w4) (s.reg rc) (counterBytes w4) = true) :
    ruleCnt wake dec w4 frz rc amt s = .stalled .counterBusy := by
  simp [ruleCnt, common, full]

theorem ruleBbtx_of_full (last inc : Bool) {rs : Reg} {len : BitVec 10} (full : s.self.bbtx.full .bbtx = true)
    (sram : rangeOk Config.sramBytes 4 (s.reg rs) len.toNat = true) :
    ruleBbtx wake last inc rs len s = .stalled .bbtxFull := by
  simp [ruleBbtx, sram, full]

theorem ruleBbmsg_of_full (w64 : Bool) (mtype dest : BitVec 4) (rp : Reg) (full : s.self.bbmsg.full .bbmsg = true) :
    ruleBbmsg wake w64 mtype dest rp s = .stalled .bbmsgFull := by
  simp [ruleBbmsg, full]

end

/-- The three DMA instructions are one rule at the addresses of R246 and R249. -/
theorem exec_dma_eq {s : State} {wake bp : Bool} {rs rc rb ri : Reg} {len : BitVec 10} {esz : BitVec 2} {i : Instr}
    {ca : Word} {bytes : Nat}
    (form : (i = .dmard wake bp rs rc len ∨ i = .dmawr wake bp rs rc len) ∧
        ca = s.reg rc + (if bp then Config.bpoolBase else 0) ∧ bytes = 4 * len.toNat ∨
      i = .dmal wake esz rs rb ri ∧
        ca = s.reg rb + s.reg ri * BitVec.ofNat 32 (4 * 2 ^ esz.toNat) ∧ bytes = 4 * 2 ^ esz.toNat) :
    ∃ kind nwords, bytes = 4 * nwords ∧ exec i s = complete (dmaRule wake ⟨kind, s.reg rs, ca, nwords⟩ s) s := by
  rcases form with ⟨rfl | rfl, rfl, rfl⟩ | ⟨rfl, rfl, rfl⟩
  · exact ⟨.rd, len.toNat, rfl, by rw [← dmaCommonAddr_eq]; rfl⟩
  · exact ⟨.wr, len.toNat, rfl, by rw [← dmaCommonAddr_eq]; rfl⟩
  · exact ⟨.lk, 2 ^ esz.toNat, rfl, rfl⟩

/-- Settles O55: legal operands pass the range checks, so the rule of each instruction is decided by the room in its
unit. -/
theorem fullUnitStallsTheInvocation : Obligations.FullUnitStallsTheInvocation := by
  intro s wake
  refine ⟨fun depth i bp rs rc rb ri len esz ca bytes form sram common => ?dma,
    fun depth => ⟨fun slot prof ra n sram => ?crc, fun slot tsz rk rm => ?cam⟩,
    fun depth kw tbl slot rk _ => ?hash, fun depth dec w4 frz rc amt common => ?counter,
    fun depth last inc rs len sram => ?bbtx, fun depth w64 mtype dest rp _ => ?bbmsg⟩
  case dma =>
    obtain ⟨kind, nwords, rfl, run⟩ := exec_dma_eq form
    exact isStalled_of_rule run
      (dmaRule_of_full wake (Fifo.full_of_length_eq depth) (rangeOk_iff.mpr sram) (rangeOk_iff.mpr common))
  case crc =>
    exact isStalled_of_rule rfl (ruleCrc_of_full wake slot prof (Fifo.full_of_length_eq depth) (rangeOk_iff.mpr sram))
  case cam => exact isStalled_of_rule rfl (ruleCam_of_full wake slot tsz rk rm (Fifo.full_of_length_eq depth))
  case hash => exact isStalled_of_rule rfl (ruleHash_of_full wake kw tbl slot rk (Fifo.full_of_length_eq depth))
  case counter =>
    exact isStalled_of_rule rfl
      (ruleCnt_of_full wake dec frz amt (Fifo.full_of_length_eq depth) (rangeOk_iff.mpr common))
  case bbtx =>
    exact isStalled_of_rule rfl (ruleBbtx_of_full wake last inc (Fifo.full_of_length_eq depth) (rangeOk_iff.mpr sram))
  case bbmsg =>
    exact isStalled_of_rule rfl (ruleBbmsg_of_full wake w64 mtype dest rp (Fifo.full_of_length_eq depth))

end Sys2Proof.Machine
end

section
/-! PROOFS. The ALU family (R120 to R129): operand B bit by bit; the twelve instructions share one shape, so each needs
only its exact result and when that result carries. -/

namespace Sys2Proof.Machine

/-! ## Operand B (R121) -/

/-- The inversion comes last: it flips every bit of the shifted word. -/
theorem getLsbD_operandB (b0 : Word) (m : AluMods) {k : Nat} (hk : k < 32) :
    (operandB b0 m).getLsbD k =
      (m.inv ^^ (if m.sdir then b0 >>> (8 * m.samt.toNat) else b0 <<< (8 * m.samt.toNat)).getLsbD k) := by
  unfold operandB
  cases m.inv
  case false => simp
  case true => simp [hk]

/-- Settles O16: the inversion is peeled off, and what is left is a shift in one of the two directions. -/
theorem operandBShiftsThenInverts : Obligations.OperandBShiftsThenInverts := by
  intro b0 m k hk
  rw [getLsbD_operandB b0 m hk]
  cases m.sdir
  case true => simp [Nat.add_comm]
  case false =>
    have low : (!decide (k < 8 * m.samt.toNat)) = decide (8 * m.samt.toNat ≤ k) := by simp [← decide_not]
    simp only [Bool.false_eq_true, if_false, BitVec.getLsbD_shiftLeft, hk, decide_true, Bool.true_and, low]

/-! ## The exact results and their carries (R122, R123) -/

section
variable {a b : Word}

theorem addOp_carry_iff : (addOp a b).2 = true ↔ 2 ^ 32 ≤ (a.toNat : Int) + b.toNat := decide_eq_true_iff

/-- The carry of a difference is a borrow. -/
theorem subOp_carry_iff : (subOp a b).2 = true ↔ (a.toNat : Int) < b.toNat :=
  decide_eq_true_iff.trans sub_neg

end

/-! ## The family (R120) -/

/-- An instruction whose rule has the shape of the family writes back what its operation gives. -/
theorem givesAluResult_of_aluRule {op : Word → Word → Int × Bool} {i : Instr} {rd ra : Reg} {m : AluMods} {b0 : Word}
    {s : State} {carry : Prop} (carries : (op (s.reg ra) (operandB b0 m)).2 = true ↔ carry)
    (run : exec i s = complete (aluRule op rd ra m b0 s) s) :
    GivesAluResult i s rd (op (s.reg ra) (operandB b0 m)).1 carry m.f :=
  givesAluResult_of_writeback carries run

/-- The same for an operation that never carries. -/
theorem givesAluResult_of_carryless {op : Word → Word → Int × Bool} {i : Instr} {rd ra : Reg} {m : AluMods}
    {b0 : Word} {s : State} (carryless : ∀ a b, (op a b).2 = false)
    (run : exec i s = complete (aluRule op rd ra m b0 s) s) :
    GivesAluResult i s rd (op (s.reg ra) (operandB b0 m)).1 False m.f :=
  givesAluResult_of_aluRule (by simp [carryless]) run

/-- Settles O17: each of the four is the family's shape at its operand B, and its carry is the statement's. -/
theorem addAndSubWriteTheExactResult : Obligations.AddAndSubWriteTheExactResult := by
  intro rd ra rb m imm10 s
  refine ⟨?addR, ?addI, ?subR, ?subI⟩
  case addR => exact givesAluResult_of_aluRule addOp_carry_iff rfl
  case addI => exact givesAluResult_of_aluRule addOp_carry_iff rfl
  case subR => exact givesAluResult_of_aluRule subOp_carry_iff rfl
  case subI => exact givesAluResult_of_aluRule subOp_carry_iff rfl

/-- Settles O18: the result is a word, so it is its own exact value, and none of the three operations carries. -/
theorem logicOpsWriteTheBitwiseResult : Obligations.LogicOpsWriteTheBitwiseResult := by
  intro rd ra rb m imm10 s
  refine ⟨?andR, ?andI, ?orR, ?orI, ?xorR, ?xorI⟩
  case andR => exact givesAluResult_of_carryless (op := andOp) (fun _ _ => rfl) rfl
  case andI => exact givesAluResult_of_carryless (op := andOp) (fun _ _ => rfl) rfl
  case orR => exact givesAluResult_of_carryless (op := orOp) (fun _ _ => rfl) rfl
  case orI => exact givesAluResult_of_carryless (op := orOp) (fun _ _ => rfl) rfl
  case xorR => exact givesAluResult_of_carryless (op := xorOp) (fun _ _ => rfl) rfl
  case xorI => exact givesAluResult_of_carryless (op := xorOp) (fun _ _ => rfl) rfl

/-- The exact product of two words as a natural number. -/
theorem mulOp_fst (a b : Word) : (mulOp a b).1 = ((a.toNat * b.toNat : Nat) : Int) := (Int.natCast_mul _ _).symm

/-- Settles O19: the statement's product is `mulOp`'s, and no product carries. -/
theorem mulWritesTheProduct : Obligations.MulWritesTheProduct := by
  intro rd ra rb m imm10 s
  simp only [← mulOp_fst]
  constructor
  case left => exact givesAluResult_of_carryless (fun _ _ => rfl) rfl
  case right => exact givesAluResult_of_carryless (fun _ _ => rfl) rfl

end Sys2Proof.Machine
end

section
/-! PROOFS. Move, shifts and bit fields (R140 to R149): each instruction does no more than write one word to `rd`, so
each needs only that word's halves, bits or value. -/

namespace Sys2Proof.Machine

/-! ## MOVI (R140) -/

/-- Settles O20: the word is the immediate and the other half side by side, in the order that `high` says. -/
theorem moviWritesOneHalf : Obligations.MoviWritesOneHalf := by
  intro rd high clear imm16 s
  cases high
  case false =>
    exact ⟨_ ++ imm16, BitVec.extractLsb'_append_eq_right, BitVec.extractLsb'_append_eq_left,
      givesRegister_of_setReg rfl⟩
  case true =>
    exact ⟨imm16 ++ _, BitVec.extractLsb'_append_eq_left, BitVec.extractLsb'_append_eq_right,
      givesRegister_of_setReg rfl⟩

/-! ## Shifts (R141 to R143) -/

/-- An amount from a register is that register modulo 32 (R141). -/
theorem shiftAmount_eq (v : Word) : shiftAmount v = v.toNat % 32 := by
  simp [shiftAmount]

/-- The two forms of one shift, whose bits `bit` gives: by the low five bits of `rb`, and by the immediate. -/
theorem givesRegister_of_shift {shift : Word → Nat → Word} {bit : Word → Nat → Nat → Bool}
    (bits : ∀ a n k, k < 32 → (shift a n).getLsbD k = bit a n k) {byReg byImm : Instr} {s : State} {rd ra rb : Reg}
    {amt5 : BitVec 5}
    (runReg : exec byReg s = complete (.done (s.setReg rd (shift (s.reg ra) (shiftAmount (s.reg rb))))) s)
    (runImm : exec byImm s = complete (.done (s.setReg rd (shift (s.reg ra) amt5.toNat))) s) (n : Nat) :
    ∃ v : Word, (∀ k, k < 32 → v.getLsbD k = bit (s.reg ra) n k) ∧
      (n = (s.reg rb).toNat % 32 → GivesRegister byReg s rd v) ∧ (n = amt5.toNat → GivesRegister byImm s rd v) := by
  refine ⟨shift (s.reg ra) n, bits _ n, ?byReg, ?byImm⟩
  case byReg =>
    rintro rfl
    rw [← shiftAmount_eq]
    exact givesRegister_of_setReg runReg
  case byImm =>
    rintro rfl
    exact givesRegister_of_setReg runImm

section
variable (a : Word) (n k : Nat)

theorem getLsbD_srl : (a >>> n).getLsbD k = (decide (k + n < 32) && a.getLsbD (k + n)) := by
  rw [BitVec.getLsbD_ushiftRight, Nat.add_comm]
  by_cases inside : k + n < 32
  · simp [inside]
  · simp [inside, BitVec.getLsbD_of_ge a _ (Nat.not_lt.mp inside)]

theorem getLsbD_sll (hk : k < 32) : (a <<< n).getLsbD k = (decide (n ≤ k) && a.getLsbD (k - n)) := by
  have vacated : (!decide (k < n)) = decide (n ≤ k) := by simp [← decide_not]
  rw [BitVec.getLsbD_shiftLeft, vacated, decide_eq_true hk, Bool.true_and]

theorem getLsbD_sra (hk : k < 32) : (a.sshiftRight n).getLsbD k = a.getLsbD (min (k + n) 31) := by
  rw [BitVec.getLsbD_sshiftRight, Nat.add_comm]
  by_cases inside : k + n < 32
  · simp [hk, inside, Nat.min_eq_left (Nat.le_of_lt_succ inside)]
  · simp [hk, inside, Nat.min_eq_right (show 31 ≤ k + n by omega), BitVec.msb_eq_getLsbD_last]

end

/-- Settles O21: the three shifts differ in their bits only. -/
theorem shiftsMoveEveryBit : Obligations.ShiftsMoveEveryBit := by
  intro rd ra rb amt5 s
  refine ⟨?sll, ?srl, ?sra⟩
  case sll => exact givesRegister_of_shift getLsbD_sll rfl rfl
  case srl => exact givesRegister_of_shift (fun a n k _ => getLsbD_srl a n k) rfl rfl
  case sra => exact givesRegister_of_shift getLsbD_sra rfl rfl

/-! ## Bit fields (R144, R145) -/

section
variable (x y : Word) (pos wm1 : BitVec 5) {n k : Nat} (hk : k < 32)
include hk

theorem getLsbD_lowOnes : (BitVec.ofNat 32 (2 ^ n - 1)).getLsbD k = decide (k < n) := by
  rw [BitVec.getLsbD_ofNat, Nat.testBit_two_pow_sub_one, decide_eq_true hk, Bool.true_and]

theorem getLsbD_fieldMask : (fieldMask pos wm1).getLsbD k =
    decide (pos.toNat ≤ k ∧ k < pos.toNat + (wm1.toNat + 1)) := by
  rw [fieldMask, getLsbD_sll _ _ _ hk, getLsbD_lowOnes (by omega), ← Bool.decide_and, decide_eq_decide]
  omega

/-- INSERT takes the bits under the mask from the shifted `y` and the rest from `x`. -/
theorem getLsbD_insertField :
    (x &&& ~~~fieldMask pos wm1 ||| y <<< pos.toNat &&& fieldMask pos wm1).getLsbD k =
      if pos.toNat ≤ k ∧ k < pos.toNat + (wm1.toNat + 1) then y.getLsbD (k - pos.toNat) else x.getLsbD k := by
  simp only [BitVec.getLsbD_or, BitVec.getLsbD_and, BitVec.getLsbD_not, getLsbD_fieldMask pos wm1 hk,
    getLsbD_sll y _ _ hk, hk]
  by_cases inField : pos.toNat ≤ k ∧ k < pos.toNat + (wm1.toNat + 1)
  · simp [inField]
  · simp [inField]

theorem getLsbD_extractField :
    (y >>> pos.toNat &&& BitVec.ofNat 32 (2 ^ (wm1.toNat + 1) - 1)).getLsbD k =
      (decide (k < wm1.toNat + 1) && y.getLsbD (pos.toNat + k)) := by
  rw [BitVec.getLsbD_and, getLsbD_lowOnes hk, BitVec.getLsbD_ushiftRight, Bool.and_comm]

end

/-- Settles O22: the words that INSERT and EXTRACT write, bit by bit. -/
theorem bitFieldsAreInsertedAndExtracted : Obligations.BitFieldsAreInsertedAndExtracted := by
  intro rd ra pos wm1 s w
  constructor
  case left => exact ⟨_, fun k hk => getLsbD_insertField _ _ pos wm1 hk, givesRegister_of_setReg rfl⟩
  case right => exact ⟨_, fun k hk => getLsbD_extractField _ pos wm1 hk, givesRegister_of_setReg rfl⟩

/-! ## Sign extension (R146) -/

/-- Settles O23: an extension to more bits keeps the two's-complement value. -/
theorem signExtensionKeepsTheValue : Obligations.SignExtensionKeepsTheValue := by
  intro rd ra s
  constructor
  case left => exact ⟨_, BitVec.toInt_signExtend_of_le (by decide), givesRegister_of_setReg rfl⟩
  case right => exact ⟨_, BitVec.toInt_signExtend_of_le (by decide), givesRegister_of_setReg rfl⟩

/-! ## FFI (R147) -/

theorem firstSet_zero : firstSet 0 = 32 := by decide

/-- The search ends at the first bit set, and a word that is not 0 has one. -/
theorem firstSet_of_ne_zero {a : Word} (nonzero : a ≠ 0) :
    firstSet a < 32 ∧ a.getLsbD (firstSet a) = true ∧ ∀ k, k < firstSet a → a.getLsbD k = false := by
  cases found : (List.range Config.xlen).find? (fun k => a.getLsbD k)
  case none =>
    have clear : ∀ k, k < 32 → ¬a.getLsbD k = true := fun k hk =>
      List.find?_eq_none.mp found k (List.mem_range.mpr hk)
    exact absurd (BitVec.eq_of_getLsbD_eq fun k hk => by simpa using clear k hk) nonzero
  case some n =>
    have first : firstSet a = n := by simp [firstSet, found]
    obtain ⟨set, inside, below⟩ := List.find?_range_eq_some.mp found
    rw [first]
    exact ⟨List.mem_range.mp inside, set, fun k hk => by simpa using below k hk⟩

/-- Settles O24: the number is `firstSet`'s. -/
theorem ffiFindsTheLowestSetBit : Obligations.FfiFindsTheLowestSetBit := by
  intro rd ra s
  refine ⟨firstSet (s.reg ra), givesRegister_of_setReg rfl, ?_⟩
  split
  case isTrue zero => rw [zero, firstSet_zero]
  case isFalse nonzero => exact firstSet_of_ne_zero nonzero

/-! ## ICHK and NOP (R148, R149) -/

/-- Settles O25: ICHK is a register write, and NOP is the bookkeeping alone. -/
theorem ichkAndNopComplete : Obligations.IchkAndNopComplete := by
  constructor
  case left => exact fun _ _ _ _ => givesRegister_of_setReg rfl
  case right =>
    exact fun s => ⟨s.retire, rfl, State.sequenced_retire rfl rfl rfl, s.retire_sequencedAs, s.readByte_retire⟩

end Sys2Proof.Machine
end

section
/-! PROOFS. The arithmetic of the effective addresses (R161), and the IO window as LD and ST reach it (R163, R164, R300):
the address picks the register, and the rule is that register's load or store. -/

namespace Sys2Proof.Machine

/-! ## The arithmetic of the addressing forms (R161) -/

/-- A size's code is the base-2 logarithm of its bytes, so the scaling of an index may be a shift. -/
theorem Size.two_pow_code (size : Size) : 2 ^ Size.code size = Size.bytes size := by
  cases size <;> rfl

section
variable (base : Word) (size : Size)

theorem eaDirect_toNat (off12 : BitVec 12) :
    ((eaDirect base off12).toNat : Int) = (base.toNat + off12.toInt) % 2 ^ 32 := by
  have sum : eaDirect base off12 = BitVec.ofInt 32 (base.toNat + off12.toInt) := by
    rw [BitVec.ofInt_add, BitVec.ofInt_natCast, BitVec.ofNat_toNat, BitVec.setWidth_eq]
    rfl
  rw [sum, BitVec.toNat_ofInt, Int.toNat_of_nonneg (Int.emod_nonneg _ (by decide))]
  rfl

theorem eaIndexImm_toNat (idx12 : BitVec 12) :
    (eaIndexImm base size idx12).toNat = (base.toNat + idx12.toNat * Size.bytes size) % 2 ^ 32 := by
  simp [eaIndexImm]

theorem eaIndexReg_toNat (idx : Word) :
    (eaIndexReg base size idx).toNat = (base.toNat + idx.toNat * Size.bytes size % 2 ^ 32) % 2 ^ 32 := by
  rw [eaIndexReg, BitVec.toNat_add, BitVec.toNat_shiftLeft, Nat.shiftLeft_eq, Size.two_pow_code]

end

/-- Settles O26: the three forms, each a sum of words. -/
theorem effectiveAddressesWrap : Obligations.EffectiveAddressesWrap :=
  fun base idx off12 size =>
    ⟨eaDirect_toNat base off12, eaIndexImm_toNat base size off12, eaIndexReg_toNat base size idx⟩

/-! ## The IO window (R163, R164, R300) -/

/-- The word at `0xC000 + 4 * k` of the window is register `k`. -/
theorem dataSpace_of_register {ea : Word} {k : IoIndex} (addr : ea.toNat = 0xC000 + 4 * k.val) :
    dataSpace ea .b32 = some (.io k) := by
  have bound := ioIndex_lt k
  have word : ea.toNat % 4 = 0 := by omega
  obtain ⟨j, reached, offset⟩ := dataSpace_of_window word (by omega) (by omega)
  have same : j = k := Fin.ext (by omega)
  rw [reached, same]

section
variable {ea : Word} {size : Size} {k : IoIndex} (rd : Reg) {s : State} (window : dataSpace ea size = some (.io k))
include window

theorem ldRule_io {v : Word} (value : s.ioLoad k = some v) : ldRule ea size rd s = .done (s.setReg rd v) := by
  simp only [ldRule, window, value]

theorem ldRule_io_pending (pending : s.ioLoad k = none) : ldRule ea size rd s = .stalled .loadIoPending := by
  simp only [ldRule, window, pending]

theorem stRule_io : stRule ea size rd s = .done (s.ioStoreWord k (s.reg rd)) := by
  simp only [stRule, window]

end

/-- A store to a register leaves the sequencing alone, so the bookkeeping is that of the instruction (R104 (a)). -/
theorem State.sequenced_ioStoreWord (s : State) (k : IoIndex) (v : Word) : Sequenced s (s.ioStoreWord k v).retire :=
  have frame := (s.ioStoreWord_effect k v).frame
  State.sequenced_retire frame.pc frame.pipe frame.stall

/-- Settles O33: the address reaches register `k`, so LD and ST are its load and its store in each of the three forms. -/
theorem ioWindowIsReachedByLdAndSt : Obligations.IoWindowIsReachedByLdAndSt := by
  intro rd ra rb imm12 ea k ld st s form addr
  have window := dataSpace_of_register addr
  have loads : Accesses .ldD .ldXI .ldXR ld rd ra rb .b32 imm12 ea s :=
    form.imp (fun ⟨i, _, a⟩ => ⟨i, a⟩) (Or.imp (fun ⟨i, _, a⟩ => ⟨i, a⟩) fun ⟨i, _, a⟩ => ⟨i, a⟩)
  have stores : Accesses .stD .stXI .stXR st rd ra rb .b32 imm12 ea s :=
    form.imp And.right (Or.imp And.right And.right)
  refine ⟨fun v value => ?value, fun pending => ?pending, ?store⟩
  case value => exact givesRegister_of_setReg (ldRule_io rd window value ▸ loads.exec_ld)
  case pending => exact isStalled_of_complete (ldRule_io_pending rd window pending ▸ loads.exec_ld)
  case store =>
    have run := stores.exec_st
    rw [stRule_io rd window, complete_done] at run
    exact ⟨_, run, s.sequenced_ioStoreWord k _, State.retire_sequencedAs _⟩

end Sys2Proof.Machine
end

section
/-! PROOFS. Jumps, branches, call and return (R180 to R190): from an empty delay-slot buffer each is `control` of one
branch, so each needs only its condition, its target and what it does to the call stack; from any other it is fatal. -/

namespace Sys2Proof.Machine

/-! ## The shape of a control transfer (R181, R182, R190) -/

/-- A control transfer is `control` of what it would do, the counterpart of `exec_eq_complete` (R190). -/
theorem exec_eq_control {i : Instr} (transfer : i.isControlTransfer = true) (s : State) :
    ∃ run, exec i s = control s run := by
  cases i <;> first | exact ⟨_, rfl⟩ | cases transfer

/-- Settles O44: what a control transfer would do is not run from the delay-slot buffer. -/
theorem controlTransferInDelaySlotIsFatal : Obligations.ControlTransferInDelaySlotIsFatal := by
  intro i s transfer inSlot
  obtain ⟨run, runs⟩ := exec_eq_control transfer s
  exact runs.trans (control_of_ne_nil inSlot run)

section
variable {i : Instr} {s : State} (empty : s.self.pipe = []) {taken c : Bool} {ds : DelayCount}
include empty

/-- An instruction fetched at `pc` that branches from `u`, the state that its call-stack operation leaves. -/
theorem exec_of_branch {u : State} {target : CodeOff} (runs : exec i s = control s (u.branch taken target ds))
    (kept : u.self.pipe = s.self.pipe) (condition : taken = c) : exec i s = .next (u.branched c target ds.val) := by
  rw [runs, control_of_nil empty, State.branch_eq (kept.trans empty), condition]

/-- A branch to a relative target, which counts from `pc` (R183, R187, R188). -/
theorem exec_of_relative_branch {n : Nat} {off : BitVec n}
    (runs : exec i s = control s (s.branch taken (relTarget s.ipc off) ds)) (condition : taken = c) :
    exec i s = .next (s.branched c (BitVec.ofInt 16 (s.self.pc.toNat + 4 * off.toInt)) ds.val) := by
  rw [exec_of_branch empty runs rfl condition, relTarget_eq, State.ipc_of_nil empty]

end

/-! ## JMP and JMPR (R183, R184) -/

/-- Settles O40: the condition of the statement is `condHolds`, test by test. -/
theorem shortJumpsBranchOnTheirCondition : Obligations.ShortJumpsBranchOnTheirCondition := by
  intro ds inv cond rc rt bit off9 s empty c
  have condition : condHolds cond s.self.flags (s.reg rc) bit = c := by cases cond <;> rfl
  have inverted := congrArg (· ^^ inv) condition
  exact ⟨exec_of_relative_branch empty rfl inverted, exec_of_branch empty rfl rfl inverted⟩

/-! ## BZ and CMPJ (R187, R188) -/

section
variable (a b : Word)

theorem halfIsZero_all : halfIsZero .all a = decide (a.toNat = 0) := by
  simp [halfIsZero, ← BitVec.toNat_inj, beq_eq_decide]

theorem halfIsZero_low : halfIsZero .low a = decide (a.toNat % 2 ^ 16 = 0) := by
  simp [halfIsZero, ← BitVec.toNat_inj, beq_eq_decide]

theorem halfIsZero_high : halfIsZero .high a = decide (a.toNat / 2 ^ 16 = 0) := by
  have bound : a.toNat / 2 ^ 16 < 2 ^ 16 := Nat.div_lt_of_lt_mul a.isLt
  simp only [halfIsZero, beq_eq_decide, ← BitVec.toNat_inj, BitVec.extractLsb'_toNat, Nat.shiftRight_eq_div_pow,
    Nat.mod_eq_of_lt bound, BitVec.ofNat_eq_ofNat, BitVec.toNat_ofNat, Nat.zero_mod]

theorem cmpHolds_eq : cmpHolds .eq a b = decide (a = b) := rfl

theorem cmpHolds_gt : cmpHolds .gt a b = decide (a.toNat > b.toNat) := rfl

theorem cmpHolds_bitOr : cmpHolds .bitOr a b = decide (a ||| b ≠ 0) := by
  simp only [cmpHolds, bne, beq_eq_decide, ne_eq, decide_not]

theorem cmpHolds_bitAnd : cmpHolds .bitAnd a b = decide (a &&& b ≠ 0) := by
  simp only [cmpHolds, bne, beq_eq_decide, ne_eq, decide_not]

end

/-- Settles O42: the tests of the statement are `halfIsZero` and `cmpHolds`, and the immediate is zero-extended. -/
theorem testBranchesCompareTheirOperands : Obligations.TestBranchesCompareTheirOperands := by
  intro ds inv half cmp ra rb imm5 off16 off10 s empty a z c
  have tested : halfIsZero half a = decide (z = 0) := by
    cases half
    case all => exact halfIsZero_all a
    case low => exact halfIsZero_low a
    case high => exact halfIsZero_high a
  have compared : ∀ b, cmpHolds cmp a b = c b := by
    intro b
    cases cmp
    case eq => exact cmpHolds_eq a b
    case gt => exact cmpHolds_gt a b
    case bitOr => exact cmpHolds_bitOr a b
    case bitAnd => exact cmpHolds_bitAnd a b
  refine ⟨?bz, ?cmpjR, ?cmpjI⟩
  case bz => exact exec_of_relative_branch empty rfl (congrArg (· ^^ inv) tested)
  case cmpjR => exact exec_of_relative_branch empty rfl (congrArg (· ^^ inv) (compared _))
  case cmpjI =>
    rw [BitVec.ofNat_toNat]
    exact exec_of_relative_branch empty rfl (congrArg (· ^^ inv) (compared _))

/-! ## The call stack (R17) -/

section
variable {p : Proc} (a : CodeOff)

theorem Proc.pushReturn_of_full (full : p.csDepth = 4) : p.pushReturn a = none := by
  simp [Proc.pushReturn, full]

theorem Proc.pushReturn_of_room (room : p.csDepth.val < 4) :
    p.pushReturn a = some { p with cs := p.cs.set p.csDepth.val a,
                                   csDepth := ⟨p.csDepth.val + 1, Nat.succ_lt_succ room⟩ } :=
  dif_pos room

theorem Proc.popReturn_of_empty (zero : p.csDepth = 0) : p.popReturn = none := by
  simp [Proc.popReturn, zero]

theorem Proc.popReturn_of_depth {k : Fin 4} (depth : p.csDepth.val = k.val + 1) :
    p.popReturn = some (p.cs[k.val], { p with csDepth := ⟨k.val, Nat.lt_succ_of_lt k.isLt⟩ }) := by
  simp [Proc.popReturn, depth]

end

/-! ## LJMP, LCALL and RET (R185, R186, R189) -/

section
variable {s : State}

/-- A fatal condition of an instruction fetched at `pc` (R109). -/
theorem isFatal_of_control {i : Instr} {cause : HaltCause} {info : HaltInfo} (empty : s.self.pipe = [])
    (runs : exec i s = control s (s.halt cause s.ipc info)) : IsFatal i s cause info :=
  runs.trans (control_of_nil empty _)

section
variable (ds : DelayCount) (addr16 : BitVec 16)

theorem exec_lcall_of_full (full : s.self.csDepth = 4) :
    exec (.lcall ds false addr16) s = control s (s.halt .stack s.ipc .push) := by
  simp [exec, execLcall, Proc.pushReturn_of_full _ full]

theorem exec_lcall_of_room (room : s.self.csDepth.val < 4) :
    exec (.lcall ds false addr16) s =
      control s (({ s with self := { s.self with
        cs := s.self.cs.set s.self.csDepth.val (maskPc (s.ipc + BitVec.ofNat 16 (4 * (1 + ds.val))))
        csDepth := ⟨s.self.csDepth.val + 1, Nat.succ_lt_succ room⟩ } } : State).branch true addr16 ds) := by
  simp [exec, execLcall, Proc.pushReturn_of_room _ room]

end

theorem exec_ret_of_empty (zero : s.self.csDepth = 0) : exec .ret s = control s (s.halt .stack s.ipc .pop) := by
  simp [exec, execRet, Proc.popReturn_of_empty zero]

theorem exec_ret_of_depth {k : Fin 4} (depth : s.self.csDepth.val = k.val + 1) :
    exec .ret s =
      control s (({ s with self := { s.self with csDepth := ⟨k.val, Nat.lt_succ_of_lt k.isLt⟩ } } : State).branch
        true s.self.cs[k.val] 2) := by
  simp [exec, execRet, Proc.popReturn_of_depth depth]

end

/-- Settles O41: a taken call is a branch from the state with the offset pushed, and one that is not taken a branch that
pushes nothing. -/
theorem longJumpsAndCallsBranch : Obligations.LongJumpsAndCallsBranch := by
  intro ds inv addr16 s empty
  refine ⟨exec_of_branch empty rfl rfl rfl, ?untaken, ?full, ?room⟩
  case untaken =>
    rintro rfl
    exact exec_of_branch empty rfl rfl rfl
  case full =>
    rintro rfl full
    exact isFatal_of_control empty (exec_lcall_of_full ds addr16 full)
  case room =>
    rintro rfl room
    refine ⟨_, exec_of_branch empty (exec_lcall_of_room ds addr16 room) rfl rfl, rfl, fun k => ?pushed, rfl⟩
    case pushed =>
      rw [State.ipc_of_nil empty]
      simp only [eq_comm (a := k.val)]
      exact Vector.getElem_set room k.isLt

/-- Settles O43: the return is a branch from the state without the newest entry. -/
theorem retPopsTheCallStack : Obligations.RetPopsTheCallStack := by
  intro s empty
  constructor
  case left => exact fun zero => isFatal_of_control empty (exec_ret_of_empty zero)
  case right => exact fun k depth => exec_of_branch empty (exec_ret_of_depth depth) rfl rfl

end Sys2Proof.Machine
end

section
/-! PROOFS. The swap procedure and CTXSWAP (R210 to R215, R219): a save area read word by word, the swap as the two ways
it ends, and a CTXSWAP as two shadow steps and what follows them. -/

namespace Sys2Proof.Machine

/-! ## Words of the context area (R13, R46, R215) -/

section
variable {m : Mem}

theorem Mem.read32_write32_other {a a' : Nat} (v : Word) (h : m.wf = true) (apart : a' + 4 ≤ a ∨ a + 4 ≤ a') :
    (m.write32 a v).read32 a' = m.read32 a' := by
  have same : ∀ k < 4, (m.write32 a v).read (a' + k) = m.read (a' + k) := fun k hk =>
    Mem.read_write32_other v h (by omega)
  have first : (m.write32 a v).read a' = m.read a' := same 0 (by decide)
  simp only [Mem.read32, first, same 1 (by decide), same 2 (by decide), same 3 (by decide)]

/-- Two words of the context area are the same word or have no byte in common (R13). -/
theorem ctxAddr_apart {t u : ThreadId} {k j : Fin Config.nPrivate} (differ : ¬(u = t ∧ j = k)) :
    ctxAddr u j.val + 4 ≤ ctxAddr t k.val ∨ ctxAddr t k.val + 4 ≤ ctxAddr u j.val := by
  have hk : k.val < 24 := k.isLt
  have hj : j.val < 24 := j.isLt
  simp only [Fin.ext_iff] at differ
  simp only [ctxAddr, Config.nPrivate]
  omega

theorem Mem.read32_write32_ctxAddr (h : m.wf = true) (t u : ThreadId) (k j : Fin Config.nPrivate) (v : Word) :
    (m.write32 (ctxAddr t k.val) v).read32 (ctxAddr u j.val) =
      if u = t ∧ j = k then v else m.read32 (ctxAddr u j.val) := by
  split
  case isTrue same =>
    obtain ⟨rfl, rfl⟩ := same
    exact Mem.read32_write32_self _ v h
  case isFalse differ => exact Mem.read32_write32_other v h (ctxAddr_apart differ)

/-- The words of a save area after some of the registers were stored there. -/
theorem read32_foldl_saveReg (h : m.wf = true) (t u : ThreadId) (j : Fin Config.nPrivate)
    (priv : Vector Word Config.nPrivate) (stored : List (Fin Config.nPrivate)) :
    (stored.foldl (fun m k => m.write32 (ctxAddr t k.val) priv[k.val]) m).read32 (ctxAddr u j.val) =
      if u = t ∧ j ∈ stored then priv[j.val] else m.read32 (ctxAddr u j.val) := by
  induction stored generalizing m with
  | nil => simp
  | cons k stored ih =>
    rw [List.foldl_cons, ih (Mem.write32_wf _ _ h), Mem.read32_write32_ctxAddr h]
    by_cases area : u = t
    · by_cases first : j = k
      · simp [area, first]
      · simp [area, first]
    · simp [area]

/-- A save fills the area of its own thread and leaves every other (R215). -/
theorem read32_saveRegs (h : m.wf = true) (t u : ThreadId) (j : Fin Config.nPrivate)
    (priv : Vector Word Config.nPrivate) :
    (saveRegs m t priv).read32 (ctxAddr u j.val) = if u = t then priv[j.val] else m.read32 (ctxAddr u j.val) := by
  rw [saveRegs, read32_foldl_saveReg h]
  simp

end

theorem State.ctxWord_eq (s : State) (t : ThreadId) (k : Nat) : s.ctxWord t k = s.self.ctx.read32 (ctxAddr t k) :=
  s.bytesWord_four .ctx _

/-! ## The swap procedure (R215, R219) -/

@[simp] theorem maskPc_maskPc (a : CodeOff) : maskPc (maskPc a) = maskPc a := by
  simp only [maskPc, BitVec.and_assoc, BitVec.and_self]

/-- The swap up to the resume address changes nothing but what R215 names. -/
theorem Proc.swapContexts_eq (p : Proc) (save : Bool) :
    p.swapContexts save = { p with
      ctx := (p.swapContexts save).ctx, priv := (p.swapContexts save).priv, prev := p.cur, cur := p.next,
      nextValid := false, saveCtx := false, threads := (p.swapContexts save).threads,
      stall := { p.stall with cause := .normal }, pipe := [] } := rfl

section
variable {s : State} (save : Bool) (ipc : CodeOff)

/-- The context area after a swap: the area of the thread that left holds the registers, if they were saved. -/
theorem State.doSwap_ctxWord (h : s.self.ctx.wf = true) (t : ThreadId) (k : Fin 24) :
    (s.doSwap save ipc).ctxWord t k.val =
      if save = true ∧ t = s.self.cur then s.self.priv[k.val] else s.ctxWord t k.val := by
  simp only [State.ctxWord_eq, State.doSwap_ctx]
  cases save
  case false => simp
  case true => simpa using read32_saveRegs h s.self.cur t k s.self.priv

/-- A restored register holds the word of the new thread's area. -/
theorem State.doSwap_priv_restored {k : Fin 24} (restored : k ≠ 0) :
    (s.doSwap save ipc).self.priv[k.val] = (s.doSwap save ipc).ctxWord s.self.next k.val := by
  rw [State.ctxWord_eq]
  simp [State.doSwap_priv, restoreRegs, restored]

theorem State.doSwap_thread (t : ThreadId) :
    (s.doSwap save ipc).self.threads[t.val] =
      if t = s.self.next then ⟨false, false, false, s.self.threads[t.val].mask, false⟩
      else s.self.threads[t.val] := by
  simp only [State.doSwap_threads, Proc.swapContexts_threads, Proc.onThread_threads]
  by_cases new : t = s.self.next
  · simp [new]
  · rw [if_neg new, Vector.getElem_set_ne _ _ (fun same => new (Fin.ext same.symm))]

theorem State.doSwap_resumePc : (s.doSwap save ipc).self.resumePc = (s.self.swapContexts save).resumePc := by
  rcases s.doSwap_cases save ipc with ended | ended <;> rw [ended] <;> rfl

theorem State.doSwap_of_panic (panics : (s.doSwap save ipc).self.resumePc = 0) :
    s.doSwap save ipc =
      ({ s with self := s.self.swapContexts save } : State).halt .panic ipc (.thread (s.self.swapContexts save).cur) :=
  if_pos (State.doSwap_resumePc save ipc ▸ panics)

theorem State.doSwap_of_resume (resumes : (s.doSwap save ipc).self.resumePc ≠ 0) :
    s.doSwap save ipc =
      ({ s with self := s.self.swapContexts save } : State).setPc (s.self.swapContexts save).resumePc :=
  if_neg (State.doSwap_resumePc save ipc ▸ resumes)

/-- A resume address of 0 is a panic that keeps `pc`; with any other the new thread resumes there (R215, R343). -/
theorem State.doSwap_ends :
    let t := s.doSwap save ipc
    if t.self.resumePc = 0 then
      t.self.halted = true ∧ t.self.haltCause = .panic ∧
      t.self.haltInfo = ⟨s.self.clk, ipc, .thread s.self.next⟩ ∧ t.self.pc = s.self.pc
    else
      t.self.halted = s.self.halted ∧ t.self.haltCause = s.self.haltCause ∧ t.self.haltInfo = s.self.haltInfo ∧
      t.self.pc = t.self.resumePc := by
  intro t
  split
  case isTrue panics =>
    have ended : t = _ := State.doSwap_of_panic save ipc panics
    simp [ended]
  case isFalse resumes =>
    have ended : t = _ := State.doSwap_of_resume save ipc resumes
    have address : t.self.resumePc = (s.self.swapContexts save).resumePc := State.doSwap_resumePc save ipc
    rw [address, ended]
    simp [Proc.resumePc]

/-- What a swap leaves unchanged: everything that the other lemmas about it do not name. -/
theorem State.doSwap_frame :
    let t := s.doSwap save ipc
    t = { s with self :=
      { s.self with ctx := t.self.ctx, priv := t.self.priv, prev := t.self.prev, cur := t.self.cur,
                    nextValid := false, saveCtx := false, threads := t.self.threads, stall := t.self.stall,
                    pipe := [], pc := t.self.pc, halted := t.self.halted, haltCause := t.self.haltCause,
                    haltInfo := t.self.haltInfo } } := by
  have swapped := s.self.swapContexts_eq save
  rcases s.doSwap_cases save ipc with ended | ended
  all_goals
    rw [ended]
    generalize s.self.swapContexts save = q at swapped
    rw [swapped]
    rfl

end

/-- Settles O47: each clause is the lemma of one field of the swap. -/
theorem swapProcedureMovesTheContext : Obligations.SwapProcedureMovesTheContext := by
  rintro save ipc s t canonical rfl
  exact ⟨State.doSwap_ctxWord save ipc canonical, s.doSwap_priv_zero save ipc,
    fun _ restored => State.doSwap_priv_restored save ipc restored, s.doSwap_prev save ipc, s.doSwap_cur save ipc,
    s.doSwap_nextValid save ipc, s.doSwap_saveCtx save ipc, State.doSwap_thread save ipc, s.doSwap_stall save ipc,
    s.doSwap_pipe save ipc, State.doSwap_ends save ipc, State.doSwap_frame save ipc⟩

/-- Settles O48: the second swap saves another thread's registers, so it restores the words that the first one saved;
`P[0]` is 0 before and after. -/
theorem contextRoundTripRestoresRegisters : Obligations.ContextRoundTripRestoresRegisters := by
  intro s t save ipc ipc' canonical zero canonical' zero' other returns kept k
  by_cases restored : k = 0
  · subst restored
    exact (t.doSwap_priv_zero save ipc').trans (zero'.trans zero.symm)
  · calc (t.doSwap save ipc').self.priv[k.val]
        = (t.doSwap save ipc').ctxWord s.self.cur k.val := by
          rw [State.doSwap_priv_restored save ipc' restored, returns]
      _ = t.ctxWord s.self.cur k.val := by
          rw [State.doSwap_ctxWord save ipc' canonical', if_neg (fun saved => other saved.2.symm)]
      _ = (s.doSwap true ipc).ctxWord s.self.cur k.val := kept k
      _ = s.self.priv[k.val] := by
          rw [State.doSwap_ctxWord true ipc canonical, if_pos ⟨rfl, rfl⟩]

/-! ## CTXSWAP (R212, R214) -/

section
variable {s s1 s2 : State} (save : Bool)

theorem execCtxswap_of_ran (fetched : s.self.pipe = []) (first : shadowStep 1 s = .ran s1)
    (second : shadowStep 2 s1 = .ran s2) : execCtxswap save s = .next (s2.swapOrPark save) := by
  simp only [execCtxswap, control_of_nil fetched, first, second]

/-- A shadow instruction that takes effect leaves the sequencing and the scheduler's choice (R212). -/
theorem ShadowRuns.frame {a : CodeOff} (runs : ShadowRuns s a s1) : RuleFrame s s1 := by
  obtain ⟨i, -, rule⟩ := runs
  exact (shadowRule_effect rule).frame

end

/-- Settles O45: both shadow steps run from the same `pc`, and what follows them is `swapOrPark`. -/
theorem ctxswapRunsItsShadowThenSwapsOrParks : Obligations.CtxswapRunsItsShadowThenSwapsOrParks := by
  refine ⟨fun i s plain => exec_eq_complete plain s, fun save s s1 s2 fetched first second => ?swaps⟩
  have frame := first.frame.trans second.frame
  rw [← first.pc] at second
  have runs : exec (.ctxswap save) s = .next (s2.swapOrPark save) :=
    execCtxswap_of_ran save fetched (shadowStep_of_runs (k := 1) first) (shadowStep_of_runs (k := 2) second)
  intro pc t
  rw [runs, State.swapOrPark, frame.pc]
  have clk : t.self.clk = s.self.clk := frame.clk
  rw [← clk]
  rfl

end Sys2Proof.Machine
end

section
/-! PROOFS. The scheduler (R216, R217): a pass is a search of the threads in order, so it finds the least thread that it
accepts, and the scheduler tick acts on the choice. -/

namespace Sys2Proof.Machine

/-! ## Arbitration (R216) -/

/-- Eight threads that follow each other. -/
def threadBlock (b : Nat) : List ThreadId := (List.range 8).map (fun t => Fin.ofNat _ (b * 8 + t))

/-- A pass visits the threads in rising order, each block of eight twice. -/
theorem scanOrder_eq_blocks : scanOrder = (List.range 4).flatMap (fun b => threadBlock b ++ threadBlock b) := by decide

theorem finRange_eq_blocks : List.finRange Config.nThreads = (List.range 4).flatMap threadBlock := by decide

/-- The second visit of a block finds nothing that the first did not, so a pass is a search of the threads in order. -/
theorem scanOrder_find? (accepts : ThreadId → Bool) : scanOrder.find? accepts = Fin.find? accepts := by
  rw [scanOrder_eq_blocks, Fin.find?_eq_find?_finRange, finRange_eq_blocks]
  simp only [List.find?_flatMap, List.find?_append, Option.or_self]

theorem scanOrder_find?_eq_some_iff {accepts : ThreadId → Bool} {t : ThreadId} :
    scanOrder.find? accepts = some t ↔ accepts t = true ∧ ∀ u < t, ¬accepts u = true := by
  simp only [scanOrder_find?, Fin.find?_eq_some_iff, Bool.not_eq_true]

theorem scanOrder_find?_eq_none_iff {accepts : ThreadId → Bool} :
    scanOrder.find? accepts = none ↔ ∀ t, ¬accepts t = true := by
  simp only [scanOrder_find?, Fin.find?_eq_none_iff, Bool.not_eq_true]

section
variable (p : Proc) (t : ThreadId)

theorem acceptsUrgent_iff : acceptsUrgent p.threads[t.val] = true ↔ p.UrgentReady t := by
  simp [acceptsUrgent]

theorem acceptsNormal_iff : acceptsNormal p.threads[t.val] = true ↔ p.NormalReady t := by
  simp [acceptsNormal]

end

theorem chooseThread_eq_or (threads : Vector ThreadBits Config.nThreads) :
    chooseThread threads = (scanOrder.find? (fun t => acceptsUrgent threads[t.val])).or
      (scanOrder.find? (fun t => acceptsNormal threads[t.val])) := by
  unfold chooseThread
  cases scanOrder.find? (fun t => acceptsUrgent threads[t.val]) <;> rfl

theorem chooseThread_eq_some_iff (p : Proc) (t : ThreadId) :
    chooseThread p.threads = some t ↔
      (p.UrgentReady t ∧ ∀ t', t' < t → ¬p.UrgentReady t') ∨
      ((∀ t', ¬p.UrgentReady t') ∧ p.NormalReady t ∧ ∀ t', t' < t → ¬p.NormalReady t') := by
  simp only [chooseThread_eq_or, Option.or_eq_some_iff, scanOrder_find?_eq_some_iff, scanOrder_find?_eq_none_iff,
    acceptsUrgent_iff, acceptsNormal_iff]

theorem chooseThread_eq_none_iff (p : Proc) :
    chooseThread p.threads = none ↔ ∀ t, ¬p.UrgentReady t ∧ ¬p.NormalReady t := by
  simp only [chooseThread_eq_or, Option.or_eq_none_iff, scanOrder_find?_eq_none_iff, acceptsUrgent_iff,
    acceptsNormal_iff, forall_and]

/-! ## The scheduler tick (R216, R217) -/

section
variable {s : State}

theorem State.schedTick_of_out_of_phase (out : s.self.clk % 16 ≠ 0) : s.schedTick = s := if_neg out

theorem State.arbitrate_of_none (nobody : chooseThread s.self.threads = none) :
    s.arbitrate = { s with self := { s.self with nextValid := false, noCandidate := true } } := by
  simp [State.arbitrate, nobody]

theorem State.arbitrate_of_some {t : ThreadId} (chosen : chooseThread s.self.threads = some t) :
    s.arbitrate = { s with self := { s.self with next := t, nextValid := true, noCandidate := false } } := by
  simp [State.arbitrate, chosen]

/-- In its phase the scheduler tick arbitrates, and a parked processor with a choice swaps. -/
theorem State.schedTick_of_phase (phase : s.self.clk % 16 = 0) :
    s.schedTick =
      if s.arbitrate.self.stall.cause = .noContext ∧ s.arbitrate.self.nextValid = true then
        s.arbitrate.doSwap s.arbitrate.self.saveCtx s.arbitrate.self.stall.resumePc
      else s.arbitrate :=
  if_pos phase

end

/-- Settles O49: a pass finds the least thread that it accepts, since the scan rises and names them all, and the tick
acts on the choice. -/
theorem schedulerPicksTheFirstReadyThread : Obligations.SchedulerPicksTheFirstReadyThread := by
  refine fun s => ⟨chooseThread_eq_some_iff s.self, chooseThread_eq_none_iff s.self,
    State.schedTick_of_out_of_phase, fun phase nobody => ?nobody, fun t phase chosen => ?chosen⟩
  case nobody =>
    rw [State.schedTick_of_phase phase, State.arbitrate_of_none nobody]
    simp
  case chosen =>
    rw [State.schedTick_of_phase phase, State.arbitrate_of_some chosen]
    simp

end Sys2Proof.Machine
end

section
/-! PROOFS. Every queued address stays inside its space and every memory inside its size: an invocation checks the
ranges that it captures, so a completion stores inside the memory it reaches (R45, R243, R245). -/

namespace Sys2Proof.Machine

/-! ## Stores inside a memory (R45, R49) -/

@[simp] theorem Mem.readBytes_length (m : Mem) (a n : Nat) : (m.readBytes a n).length = n := by
  induction n generalizing a with
  | zero => rfl
  | succ n ih => rw [Mem.readBytes, List.length_cons, ih]

/-- A write lists at most one address more. -/
theorem Mem.mem_write {m : Mem} {a : Nat} {v : Byte} {c : Host.Cell} (mem : c ∈ m.write a v) : c.1 = a ∨ c ∈ m := by
  induction m with
  | nil =>
    unfold Mem.write at mem
    split at mem <;> simp_all
  | cons d rest ih =>
    unfold Mem.write at mem
    split at mem
    · split at mem
      · exact .inr mem
      · exact (List.mem_cons.mp mem).imp (congrArg Prod.fst) id
    · split at mem
      · split at mem
        · exact .inr (List.mem_cons_of_mem _ mem)
        · exact (List.mem_cons.mp mem).imp (congrArg Prod.fst) (List.mem_cons_of_mem _)
      · rcases List.mem_cons.mp mem with rfl | later
        · exact .inr List.mem_cons_self
        · exact (ih later).imp_right (List.mem_cons_of_mem _)

section
variable {m : Mem} {size a : Nat} (h : m.Below size)

include h

theorem Mem.write_below (v : Byte) (inside : a < size) : (m.write a v).Below size :=
  fun c mem => (Mem.mem_write mem).elim (fun e => e ▸ inside) (h c)

theorem Mem.writeBytes_below {bytes : List Byte} (inside : a + bytes.length ≤ size) :
    (m.writeBytes a bytes).Below size := by
  induction bytes generalizing m a with
  | nil => exact h
  | cons b bytes ih =>
    rw [List.length_cons] at inside
    exact ih (Mem.write_below h b (by omega)) (by omega)

end

/-- The save areas of the threads fill the context area and do not leave it (R13, R46). -/
theorem saveRegs_below {ctx : Mem} (h : ctx.Below Config.ctxBytes) (t : ThreadId)
    (priv : Vector Word Config.nPrivate) : (saveRegs ctx t priv).Below Config.ctxBytes := by
  unfold saveRegs
  generalize List.finRange Config.nPrivate = indices
  induction indices generalizing ctx with
  | nil => exact h
  | cons k indices ih =>
    have thread : t.val < 32 := t.isLt
    have word : k.val < 24 := k.isLt
    refine ih (Mem.writeBytes_below h ?_)
    simp only [ctxAddr, wordBytes_length, Config.nPrivate, Config.ctxBytes]
    omega

/-! ## The invariant, one payload and one processor at a time -/

/-- The addresses of a transfer lie in the SRAM and in the common segment (R245). -/
abbrev DmaOp.InRange (op : DmaOp) : Prop :=
  rangeOk Config.sramBytes 4 op.saddr (4 * op.nwords) = true ∧
    rangeOk Config.commonBytes 4 op.caddr (4 * op.nwords) = true

/-- A counter lies in the common segment (R245). -/
abbrev CounterOp.InRange (op : CounterOp) : Prop :=
  rangeOk Config.commonBytes (counterBytes op.w4) op.caddr (counterBytes op.w4) = true

/-- The data of a buffer-transmit lie in the SRAM (R245). -/
abbrev BbtxOp.InRange (op : BbtxOp) : Prop := rangeOk Config.sramBytes 4 op.saddr op.len = true

/-- R245 and R45 for one processor: its queued addresses and its own memories. -/
abbrev Proc.AllInRange (p : Proc) : Prop :=
  p.QueuesInRange ∧ p.sram.Below Config.sramBytes ∧ p.ctx.Below Config.ctxBytes ∧ p.code.Below Config.codeBytes

/-- R45 for the memories that both processors reach. -/
abbrev Shared.AllInRange (m : Shared) : Prop :=
  m.common.Below Config.commonBytes ∧ m.ddr.Below Config.ddrBytes ∧ m.psram.Below Config.psramBytes

/-- The invariant, processor by processor. -/
abbrev State.AllInRange (s : State) : Prop :=
  s.self.AllInRange ∧ s.peer.AllInRange ∧ s.shared.AllInRange

theorem State.inRange_iff (s : State) : s.InRange ↔ s.AllInRange := by
  unfold State.InRange State.AllInRange Proc.AllInRange Shared.AllInRange
  tauto

theorem WakeupsOnly.allInRange {p q : Proc} (h : WakeupsOnly p q) (hp : p.AllInRange) : q.AllInRange := by
  rw [h.1]
  exact hp

/-- What holds of every queued payload and of one more holds of every payload after its enqueue. -/
theorem Fifo.forall_push {α : Type} {Q : α → Prop} {f : Fifo α} (h : ∀ e ∈ f.entries, Q e.payload)
    (clk lat : Nat) (owner : ThreadId) (wake : Bool) {op : α} (new : Q op) :
    ∀ e ∈ (f.push clk lat owner wake op).entries, Q e.payload := by
  intro e mem
  rcases List.mem_append.mp mem with queued | last
  · exact h e queued
  · rw [List.mem_singleton.mp last]
    exact new

section
variable {s : State} (hs : s.AllInRange)

include hs

/-! ## Instructions -/

theorem State.setSram_allInRange {a : Nat} {bytes : List Byte} (inside : a + bytes.length ≤ Config.sramBytes) :
    (s.setSram (s.self.sram.writeBytes a bytes)).AllInRange := by
  obtain ⟨⟨queues, sram, rest⟩, others⟩ := hs
  exact ⟨⟨queues, Mem.writeBytes_below sram inside, rest⟩, others⟩

theorem State.setCommon_allInRange {a : Nat} {bytes : List Byte} (inside : a + bytes.length ≤ Config.commonBytes) :
    (s.setCommon (s.shared.common.writeBytes a bytes)).AllInRange := by
  obtain ⟨self, peer, common, rest⟩ := hs
  exact ⟨self, peer, Mem.writeBytes_below common inside, rest⟩

/-- A rule that stores or enqueues has checked the range; the other rules touch no memory and no queue with
addresses. -/
theorem RuleEffect.allInRange {t : State} (h : RuleEffect s t) : t.AllInRange := by
  obtain ⟨⟨⟨dma, ramman, counter, bbtx⟩, memories⟩, others⟩ := id hs
  cases h
  case sram a bytes inside => exact State.setSram_allInRange hs inside
  case common a bytes inside => exact State.setCommon_allInRange hs inside
  case semaphores sem threads peer woken =>
    obtain ⟨self, old_peer, shared⟩ := hs
    exact ⟨self, woken.allInRange old_peer, shared⟩
  case dma wake op room sram common =>
    have pushed := Fifo.forall_push (Q := DmaOp.InRange) dma s.self.clk (Config.latency .dma s.draws) s.self.cur wake
      ⟨sram, common⟩
    exact ⟨⟨⟨pushed, ramman, counter, bbtx⟩, memories⟩, others⟩
  case ramman wake op room range =>
    have pushed := Fifo.forall_push (Q := fun op : RammanOp => op.inRange = true) ramman s.self.clk
      (Config.latency .ramman s.draws) s.self.cur wake range
    exact ⟨⟨⟨dma, pushed, counter, bbtx⟩, memories⟩, others⟩
  case counter wake op room range =>
    have pushed := Fifo.forall_push (Q := CounterOp.InRange) counter s.self.clk (Config.latency .counter s.draws)
      s.self.cur wake range
    exact ⟨⟨⟨dma, ramman, pushed, bbtx⟩, memories⟩, others⟩
  case bbtx priv glob wake op zero room range =>
    have pushed := Fifo.forall_push (Q := BbtxOp.InRange) bbtx s.self.clk (Config.latency .bbtx s.draws) s.self.cur
      wake range
    exact ⟨⟨⟨dma, ramman, counter, pushed⟩, memories⟩, others⟩
  all_goals exact hs

theorem State.retire_allInRange : s.retire.AllInRange := by
  rw [State.retire_eq]
  exact hs

theorem State.recordStall_allInRange (c : StallCause) : (s.recordStall c).AllInRange := by
  unfold State.recordStall
  split <;> exact hs

/-- A swap stores to the save area of a thread at most. -/
theorem State.doSwap_allInRange (save : Bool) (ipc : CodeOff) : (s.doSwap save ipc).AllInRange := by
  obtain ⟨⟨queues, sram, ctx, code⟩, peer, shared⟩ := hs
  have saved : (s.doSwap save ipc).self.ctx.Below Config.ctxBytes := by
    rw [State.doSwap_ctx]
    split
    · exact saveRegs_below ctx _ _
    · exact ctx
  exact ⟨⟨by simpa only [Proc.QueuesInRange, State.doSwap_dma, State.doSwap_ramman, State.doSwap_counter,
      State.doSwap_bbtx] using queues, by rwa [State.doSwap_sram], saved, by rwa [State.doSwap_code]⟩,
    by rwa [State.doSwap_peer], by rwa [State.doSwap_shared]⟩

theorem State.swapOrPark_allInRange (save : Bool) : (s.swapOrPark save).AllInRange := by
  have past : (s.endStall.setPc (s.self.pc + 12)).AllInRange := hs
  rcases s.swapOrPark_cases save with e | e <;> rw [e]
  · exact State.doSwap_allInRange past _ _
  · exact past

theorem ExecEffect.allInRange {t : State} (h : ExecEffect s t) : t.AllInRange := by
  cases h with
  | retired u rule => exact State.retire_allInRange (rule.allInRange hs)
  | stalled c => exact State.recordStall_allInRange hs c
  | halted => exact hs
  | branched => exact hs
  | shadowHalted u rule => exact rule.allInRange hs
  | swapped u v first second save =>
    exact State.swapOrPark_allInRange (second.allInRange (first.allInRange hs)) save

/-! ## Completions -/

theorem State.wakeOwner_allInRange (wake : Bool) (owner : ThreadId) : (s.wakeOwner wake owner).AllInRange := by
  unfold State.wakeOwner
  split <;> exact hs

/-- A transfer whose ranges were checked stores inside the memory that it reaches (R250). -/
theorem State.completeDma_allInRange {op : DmaOp} (range : op.InRange) : (s.completeDma op).AllInRange := by
  obtain ⟨sram, common⟩ := range
  obtain ⟨-, sram_inside⟩ := rangeOk_iff.mp sram
  obtain ⟨-, common_inside⟩ := rangeOk_iff.mp common
  unfold State.completeDma
  cases op.kind with
  | rd | lk => exact State.setSram_allInRange hs (by rwa [Mem.readBytes_length])
  | wr => exact State.setCommon_allInRange hs (by rwa [Mem.readBytes_length])

/-- A counter whose range was checked is stored inside the common segment (R259). -/
theorem State.completeCounter_allInRange {op : CounterOp} (range : op.InRange) :
    (s.completeCounter op).AllInRange := by
  obtain ⟨-, inside⟩ := rangeOk_iff.mp range
  unfold State.completeCounter
  cases w4 : op.w4 with
  | false => exact State.setCommon_allInRange hs (by simpa [w4, counterBytes] using inside)
  | true => exact State.setCommon_allInRange hs (by simpa [w4, counterBytes] using inside)

theorem State.completeBbmsg_allInRange (owner : ThreadId) (op : BbmsgOp) :
    (s.completeBbmsg owner op).AllInRange := by
  unfold State.completeBbmsg
  exact hs

/-- The entries behind the head of a queue are entries of the queue, and the head's own range makes its store safe. -/
theorem State.completeHead_allInRange (u : Accel) : (s.completeHead u).AllInRange := by
  obtain ⟨⟨⟨dma, ramman, counter, bbtx⟩, memories⟩, others⟩ := id hs
  unfold State.completeHead
  cases u <;> simp only
  case dma =>
    split
    case h_1 => exact hs
    case h_2 e rest queue =>
      rw [queue, List.forall_mem_cons] at dma
      obtain ⟨head, later⟩ := dma
      refine State.wakeOwner_allInRange (State.completeDma_allInRange ?_ head) _ _
      exact ⟨⟨⟨later, ramman, counter, bbtx⟩, memories⟩, others⟩
  case counter =>
    split
    case h_1 => exact hs
    case h_2 e rest queue =>
      rw [queue, List.forall_mem_cons] at counter
      obtain ⟨head, later⟩ := counter
      refine State.wakeOwner_allInRange (State.completeCounter_allInRange ?_ head) _ _
      exact ⟨⟨⟨dma, ramman, later, bbtx⟩, memories⟩, others⟩
  case ramman =>
    split
    case h_1 => exact hs
    case h_2 e rest queue =>
      rw [queue, List.forall_mem_cons] at ramman
      obtain ⟨-, later⟩ := ramman
      refine State.wakeOwner_allInRange ?_ _ _
      exact ⟨⟨⟨dma, later, counter, bbtx⟩, memories⟩, others⟩
  case bbtx =>
    split
    case h_1 => exact hs
    case h_2 e rest queue =>
      rw [queue, List.forall_mem_cons] at bbtx
      obtain ⟨-, later⟩ := bbtx
      refine State.wakeOwner_allInRange ?_ _ _
      exact ⟨⟨⟨dma, ramman, counter, later⟩, memories⟩, others⟩
  case hash =>
    split
    · exact hs
    · refine State.wakeOwner_allInRange ?_ _ _
      exact hs
  case bbmsg =>
    split
    · exact hs
    · refine State.wakeOwner_allInRange (State.completeBbmsg_allInRange ?_ _ _) _ _
      exact hs

end

/-- Settles O13: an enqueue has checked its range, and a checked range keeps the completion's store inside its
memory. -/
theorem stepKeepsAddressesInRange : Obligations.StepKeepsAddressesInRange := by
  intro s s' hs h
  rw [State.inRange_iff] at hs ⊢
  refine step_keeps (P := State.AllInRange)
    ?turn ?count ?instr ?completion ?choice ?swap ?timers ?clock hs h
  case turn => exact fun s ⟨self, peer, shared⟩ => ⟨peer, self, shared⟩
  case count => exact fun s n hs => hs
  case instr => exact fun s t _ hs effect => effect.allInRange hs
  case completion => exact fun s u hs => State.completeHead_allInRange hs u
  case choice => exact fun s _ _ _ hs => hs
  case swap => exact fun s save ipc hs => State.doSwap_allInRange hs save ipc
  case timers => exact fun s _ hs => hs
  case clock => exact fun s hs => hs

end Sys2Proof.Machine
end

section
/-! PROOFS. The invocations of the accelerator units (R240 to R264): a bad range is fatal before anything else, and with
legal operands and room an invocation queues its operation and retires; said once for each unit's rule. -/

namespace Sys2Proof.Machine

/-! ## Operands (R245, R251) -/

theorem rangeOk_eq_false_iff {size align bytes : Nat} {addr : Word} :
    rangeOk size align addr bytes = false ↔ addr.toNat % align ≠ 0 ∨ size < addr.toNat + bytes := by
  rw [← Bool.not_eq_true, rangeOk_iff, not_and_or, Nat.not_le]

/-- A hash key is the number that the register pair makes, cut to its width. -/
theorem toNat_hashKey (kw : KeyWidth) (hi lo : Word) :
    (hashKey kw hi lo).toNat = (hi.toNat * 2 ^ 32 + lo.toNat) % 2 ^ (match kw with | .k48 => 48 | .k60 => 60) := by
  have pair : (hi ++ lo).toNat = hi.toNat * 2 ^ 32 + lo.toNat := by
    rw [BitVec.toNat_append, ← Nat.shiftLeft_add_eq_or_of_lt lo.isLt, Nat.shiftLeft_eq]
  cases kw
  case k48 =>
    have fits : (hi.toNat * 2 ^ 32 + lo.toNat) % 2 ^ 48 < 2 ^ 60 := by omega
    simpa [hashKey, pair] using fits
  case k60 => simp [hashKey, pair]

/-- Byte `k` of a string that was read from memory. -/
theorem Mem.getD_readBytes (m : Mem) (a : Nat) {n k : Nat} (inside : k < n) :
    (m.readBytes a n).getD k 0 = m.read (a + k) := by
  induction n generalizing a k with
  | zero => cases inside
  | succ n ih =>
    cases k with
    | zero => rfl
    | succ k =>
      rw [Mem.readBytes, List.getD_cons_succ, ih (a + 1) (Nat.lt_of_succ_lt_succ inside)]
      congr 1
      omega

theorem Fifo.not_full_of_length_lt {α : Type} {f : Fifo α} {u : Accel} (room : f.entries.length < Config.depth u) :
    f.full u = false :=
  decide_eq_false (Nat.not_le.mpr room)

/-! ## Bad addresses (R245, R342) -/

/-- An instruction whose own rule is fatal (R104 (c)). -/
theorem isFatal_of_rule {i : Instr} {s : State} {r : Result} {k : HaltCause} {info : HaltInfo}
    (runs : exec i s = complete r s) (fails : r = .fatal k info) : IsFatal i s k info :=
  isFatal_of_complete (fails ▸ runs)

section
variable {s : State} (wake : Bool)

theorem dmaRule_of_bad_sram {op : DmaOp} (bad : rangeOk Config.sramBytes 4 op.saddr (4 * op.nwords) = false) :
    dmaRule wake op s = .fatal .access (.address op.saddr) := by
  simp [dmaRule, bad]

theorem dmaRule_of_bad_common {op : DmaOp} (sram : rangeOk Config.sramBytes 4 op.saddr (4 * op.nwords) = true)
    (bad : rangeOk Config.commonBytes 4 op.caddr (4 * op.nwords) = false) :
    dmaRule wake op s = .fatal .access (.address op.caddr) := by
  simp [dmaRule, sram, bad]

theorem ruleCrc_of_bad (slot prof : BitVec 2) {ra : Reg} {n : BitVec 10}
    (bad : rangeOk Config.sramBytes 4 (s.reg ra) (4 * n.toNat) = false) :
    ruleCrc wake slot prof ra n s = .fatal .access (.address (s.reg ra)) := by
  simp [ruleCrc, bad]

theorem ruleCnt_of_bad (dec : Bool) {w4 : Bool} (frz : Bool) {rc : Reg} (amt : BitVec 8)
    (bad : rangeOk Config.commonBytes (counterBytes w4) (s.reg rc) (counterBytes w4) = false) :
    ruleCnt wake dec w4 frz rc amt s = .fatal .access (.address (s.reg rc)) := by
  simp [ruleCnt, bad]

theorem ruleBbtx_of_bad (last inc : Bool) {rs : Reg} {len : BitVec 10}
    (bad : rangeOk Config.sramBytes 4 (s.reg rs) len.toNat = false) :
    ruleBbtx wake last inc rs len s = .fatal .access (.address (s.reg rs)) := by
  simp [ruleBbtx, bad]

theorem ruleCrypto_of_bad (first last : Bool) {rs : Reg} {len : BitVec 10}
    (bad : rangeOk Config.sramBytes 4 (s.reg rs) len.toNat = false) :
    ruleCrypto first last rs len s = .fatal .access (.address (s.reg rs)) := by
  simp [ruleCrypto, bad]

end

/-- Settles O54: every rule examines its ranges first, and the room in its unit only after them. -/
theorem badAcceleratorAddressIsFatalAccess : Obligations.BadAcceleratorAddressIsFatalAccess := by
  intro s wake
  refine ⟨fun i bp rs rc rb ri len esz ca bytes form => ?dma, fun slot prof ra n bad => ?crc,
    fun dec w4 frz rc amt bad => ?counter, fun last inc rs len bad => ?bbtx, fun first last rs len bad => ?crypto⟩
  case dma =>
    obtain ⟨kind, nwords, rfl, run⟩ := exec_dma_eq form
    refine ⟨fun bad => ?sram, fun good bad => ?common⟩
    case sram => exact isFatal_of_rule run (dmaRule_of_bad_sram wake (rangeOk_eq_false_iff.mpr bad))
    case common =>
      have sram : rangeOk Config.sramBytes 4 (s.reg rs) (4 * nwords) = true := by
        rw [← Bool.not_eq_false, rangeOk_eq_false_iff]
        exact good
      exact isFatal_of_rule run (dmaRule_of_bad_common wake sram (rangeOk_eq_false_iff.mpr bad))
  case crc => exact isFatal_of_rule rfl (ruleCrc_of_bad wake slot prof (rangeOk_eq_false_iff.mpr bad))
  case counter => exact isFatal_of_rule rfl (ruleCnt_of_bad wake dec frz amt (rangeOk_eq_false_iff.mpr bad))
  case bbtx => exact isFatal_of_rule rfl (ruleBbtx_of_bad wake last inc (rangeOk_eq_false_iff.mpr bad))
  case crypto => exact isFatal_of_rule rfl (ruleCrypto_of_bad first last (rangeOk_eq_false_iff.mpr bad))

/-! ## Invocations that complete (R104 (a), R242) -/

section
variable {s : State} (wake : Bool)

theorem dmaRule_of_room {op : DmaOp} (sram : rangeOk Config.sramBytes 4 op.saddr (4 * op.nwords) = true)
    (common : rangeOk Config.commonBytes 4 op.caddr (4 * op.nwords) = true)
    (room : s.self.dma.full .dma = false) : dmaRule wake op s = .done (s.enqueueDma wake op) := by
  simp [dmaRule, sram, common, room]

theorem ruleHash_of_room (kw : KeyWidth) (tbl : LookupTable) (slot : BitVec 2) (rk : Reg)
    (room : s.self.hash.full .hash = false) : ruleHash wake kw tbl slot rk s =
      .done (s.enqueueHash wake ⟨tbl, slot.toFin, kw, hashKey kw (s.reg rk) (s.reg (rk + 1))⟩) := by
  simp [ruleHash, room]

theorem ruleCrc_of_room (slot prof : BitVec 2) {ra : Reg} {n : BitVec 10}
    (sram : rangeOk Config.sramBytes 4 (s.reg ra) (4 * n.toNat) = true) (room : s.self.ramman.full .ramman = false) :
    ruleCrc wake slot prof ra n s = .done (s.enqueueRamman wake (.crc slot.toFin prof (s.reg ra) n.toNat)) := by
  simp [ruleCrc, sram, room]

theorem ruleCam_of_room (slot tsz : BitVec 2) (rk rm : Reg) (room : s.self.ramman.full .ramman = false) :
    ruleCam wake slot tsz rk rm s = .done (s.enqueueRamman wake (.cam slot.toFin (s.reg rk) (s.reg rm) tsz)) := by
  simp [ruleCam, room]

theorem ruleCnt_of_room (dec : Bool) {w4 : Bool} (frz : Bool) {rc : Reg} (amt : BitVec 8)
    (common : rangeOk Config.commonBytes (counterBytes w4) (s.reg rc) (counterBytes w4) = true)
    (room : s.self.counter.full .counter = false) :
    ruleCnt wake dec w4 frz rc amt s = .done (s.enqueueCounter wake ⟨s.reg rc, dec, w4, frz, amt⟩) := by
  simp [ruleCnt, common, room]

theorem ruleBbtx_of_room (last inc : Bool) {rs : Reg} {len : BitVec 10}
    (sram : rangeOk Config.sramBytes 4 (s.reg rs) len.toNat = true) (room : s.self.bbtx.full .bbtx = false) :
    ruleBbtx wake last inc rs len s =
      .done ((if inc then s.setReg rs (s.reg rs + len.setWidth 32) else s).enqueueBbtx wake
        ⟨s.reg rs, len.toNat, last⟩) := by
  simp [ruleBbtx, sram, room]

theorem ruleBbmsg_of_room (w64 : Bool) (mtype dest : BitVec 4) (rp : Reg) (room : s.self.bbmsg.full .bbmsg = false) :
    ruleBbmsg wake w64 mtype dest rp s =
      .done (s.enqueueBbmsg wake ⟨w64, mtype, dest, s.reg rp, if w64 then s.reg (rp + 1) else 0⟩) := by
  simp [ruleBbmsg, room]

theorem ruleCrypto_of_range (first last : Bool) {rs : Reg} {len : BitVec 10}
    (sram : rangeOk Config.sramBytes 4 (s.reg rs) len.toNat = true) :
    ruleCrypto first last rs len s = .done { s with self := { s.self with cryptoOut := s.self.cryptoOut ++
      [⟨s.self.cur, first, last, s.self.sram.readBytes (s.reg rs).toNat len.toNat, len.toNat⟩] } } := by
  simp [ruleCrypto, sram]

end

/-- An instruction whose own rule is done retires with the rule's effects (R104 (a)). -/
theorem exec_of_done {i : Instr} {s u : State} {r : Result} (runs : exec i s = complete r s) (done : r = .done u) :
    exec i s = .next u.retire := by
  rw [runs, done, complete_done]

/-- The three DMA instructions are one rule, whose operation each captures (R246 to R249). -/
theorem exec_dma_eq_of_op {s : State} {wake bp : Bool} {rs rc rb ri : Reg} {len : BitVec 10} {esz : BitVec 2}
    {i : Instr} {op : DmaOp}
    (form : i = .dmard wake bp rs rc len ∧
        op = ⟨.rd, s.reg rs, s.reg rc + (if bp then Config.bpoolBase else 0), len.toNat⟩ ∨
      i = .dmawr wake bp rs rc len ∧
        op = ⟨.wr, s.reg rs, s.reg rc + (if bp then Config.bpoolBase else 0), len.toNat⟩ ∨
      i = .dmal wake esz rs rb ri ∧
        op = ⟨.lk, s.reg rs, s.reg rb + s.reg ri * BitVec.ofNat 32 (4 * 2 ^ esz.toNat), 2 ^ esz.toNat⟩) :
    exec i s = complete (dmaRule wake op s) s := by
  rcases form with ⟨rfl, rfl⟩ | ⟨rfl, rfl⟩ | ⟨rfl, rfl⟩
  · rw [← dmaCommonAddr_eq]
    rfl
  · rw [← dmaCommonAddr_eq]
    rfl
  · rfl

/-- Settles O50: with legal ranges and room the one rule of the three enqueues the operation. -/
theorem dmaInstructionsQueueTheirTransfer : Obligations.DmaInstructionsQueueTheirTransfer := by
  intro i wake bp rs rc rb ri len esz op s form sram_aligned sram_inside common_aligned common_inside room
  have done := dmaRule_of_room wake (rangeOk_iff.mpr ⟨sram_aligned, sram_inside⟩)
    (rangeOk_iff.mpr ⟨common_aligned, common_inside⟩) (Fifo.not_full_of_length_lt (u := .dma) room)
  exact ⟨_, exec_of_done (exec_dma_eq_of_op form) done, State.sequenced_retire rfl rfl rfl,
    State.retire_sequencedAs _⟩

/-! ### The ready bits of the result units (R251, R253) -/

theorem State.retire_lkReady (s : State) : s.retire.self.lkReady = s.self.lkReady := by
  rw [State.retire_eq]

theorem State.retire_rmReady (s : State) : s.retire.self.rmReady = s.self.rmReady := by
  rw [State.retire_eq]

/-- An enqueue on the hash unit clears the ready bit of its own result and no other. -/
theorem State.enqueueHash_ready (s : State) (wake : Bool) (op : HashOp) (t : LookupTable) (j : ResultSlot) :
    (s.enqueueHash wake op).self.lkReady[t.val][j.val] =
      if t = op.tbl ∧ j = op.slot then false else s.self.lkReady[t.val][j.val] := by
  rw [State.enqueueHash_self]
  by_cases table : t = op.tbl
  · subst table
    by_cases slot : j = op.slot
    · simp [slot]
    · simp [slot, Vector.getElem_set_ne _ _ (fun same => slot (Fin.ext same.symm))]
  · simp [table, Vector.getElem_set_ne _ _ (fun same => table (Fin.ext same.symm))]

/-- An enqueue on the CRC/CAM unit clears the ready bit of its own result and no other. -/
theorem State.enqueueRamman_ready (s : State) (wake : Bool) (op : RammanOp) (j : ResultSlot) :
    (s.enqueueRamman wake op).self.rmReady[j.val] = if j = op.slot then false else s.self.rmReady[j.val] := by
  rw [State.enqueueRamman_self]
  by_cases slot : j = op.slot
  · simp [slot]
  · simp [slot, Vector.getElem_set_ne _ _ (fun same => slot (Fin.ext same.symm))]

/-- CRC with a legal range and CAM enqueue the operation that they capture, if the unit is free. -/
theorem exec_ramman_of_room {s : State} {wake : Bool} {slot prof tsz : BitVec 2} {ra rk rm : Reg} {n : BitVec 10}
    {i : Instr} {op : RammanOp} (room : s.self.ramman.full .ramman = false)
    (form : i = .crc wake slot prof ra n ∧ op = .crc slot.toFin prof (s.reg ra) n.toNat ∧
        (s.reg ra).toNat % 4 = 0 ∧ (s.reg ra).toNat + 4 * n.toNat ≤ 0xC000 ∨
      i = .cam wake slot tsz rk rm ∧ op = .cam slot.toFin (s.reg rk) (s.reg rm) tsz) :
    exec i s = .next (s.enqueueRamman wake op).retire := by
  rcases form with ⟨rfl, rfl, aligned, inside⟩ | ⟨rfl, rfl⟩
  · exact exec_of_done rfl (ruleCrc_of_room wake slot prof (rangeOk_iff.mpr ⟨aligned, inside⟩) room)
  · exact exec_of_done rfl (ruleCam_of_room wake slot tsz rk rm room)

/-- Settles O51: the enqueue of either unit clears one ready bit, and the bookkeeping keeps it. -/
theorem resultUnitsClearReadyAndQueue : Obligations.ResultUnitsClearReadyAndQueue := by
  intro wake s
  refine ⟨fun kw tbl slot rk _ room => ?hash, fun i slot prof tsz ra rk rm n k op form slot_eq empty => ?ramman⟩
  case hash =>
    have done := ruleHash_of_room wake kw tbl slot rk (Fifo.not_full_of_length_lt (u := .hash) room)
    refine ⟨_, exec_of_done rfl done, State.sequenced_retire rfl rfl rfl, fun t j => ?ready,
      ⟨tbl, slot.toFin, kw, hashKey kw (s.reg rk) (s.reg (rk + 1))⟩, rfl, rfl, rfl, toNat_hashKey kw _ _, ?frame⟩
    case ready =>
      simp only [State.retire_lkReady, State.enqueueHash_ready, Fin.ext_iff]
      rfl
    case frame =>
      rw [State.retire_lkReady]
      exact State.retire_sequencedAs _
  case ramman =>
    obtain rfl : k = slot.toFin := Fin.ext slot_eq
    have slot_op : op.slot = slot.toFin := by
      rcases form with ⟨-, rfl, -⟩ | ⟨-, rfl⟩ <;> rfl
    have room : s.self.ramman.full .ramman = false := Fifo.not_full_of_length_lt (by simp [empty, Config.depth])
    refine ⟨_, exec_ramman_of_room room form, State.sequenced_retire rfl rfl rfl, fun j => ?ready, ?frame⟩
    case ready =>
      simp only [State.retire_rmReady, State.enqueueRamman_ready, slot_op]
    case frame =>
      rw [State.retire_rmReady]
      exact State.retire_sequencedAs _

/-! ### Counters and buffers (R258, R260, R262) -/

theorem State.retire_priv (s : State) : s.retire.self.priv = s.self.priv := by
  rw [State.retire_eq]

theorem State.retire_glob (s : State) : s.retire.self.glob = s.self.glob := by
  rw [State.retire_eq]

/-- A register write changes general registers alone. -/
theorem State.setReg_eq (s : State) (r : Reg) (v : Word) : s.setReg r v = { s with self :=
    { s.self with priv := (s.setReg r v).self.priv, glob := (s.setReg r v).self.glob } } :=
  congrArg (fun p => ({ s with self := p } : State)) (Proc.setReg_eq s.self r v)

/-- BBTX with a legal range and room: the address register is moved if asked, and the operation is queued. -/
theorem exec_bbtx_of_room {s : State} (wake last inc : Bool) {rs : Reg} {len : BitVec 10}
    (sram : rangeOk Config.sramBytes 4 (s.reg rs) len.toNat = true) (room : s.self.bbtx.full .bbtx = false) :
    ∃ priv glob,
      exec (.bbtx wake last inc rs len) s = .next (({ s with self := { s.self with priv := priv, glob := glob } } :
        State).enqueueBbtx wake ⟨s.reg rs, len.toNat, last⟩).retire ∧
      (if inc then Writes rs (BitVec.ofNat 32 ((s.reg rs).toNat + len.toNat)) s
          { s with self := { s.self with priv := priv, glob := glob } }
        else priv = s.self.priv ∧ glob = s.self.glob) := by
  have done := ruleBbtx_of_room wake last inc sram room
  cases inc
  case false => exact ⟨_, _, exec_of_done rfl done, rfl, rfl⟩
  case true =>
    have past : s.reg rs + len.setWidth 32 = BitVec.ofNat 32 ((s.reg rs).toNat + len.toNat) := by
      simp [BitVec.ofNat_add, BitVec.ofNat_toNat]
    have writes := s.writes_setReg rs (s.reg rs + len.setWidth 32)
    rw [if_pos rfl, State.setReg_eq] at done
    rw [State.setReg_eq, past] at writes
    exact ⟨_, _, exec_of_done rfl done, by rwa [past]⟩

/-- Settles O52: a legal range and room leave each rule its enqueue, which for BBTX follows the move of the address
register. -/
theorem counterAndBufferUnitsQueue : Obligations.CounterAndBufferUnitsQueue := by
  intro wake s
  refine ⟨fun dec w4 frz rc amt aligned inside room => ?counter, fun last inc rs len aligned inside room => ?bbtx,
    fun w64 mtype dest rp _ room => ?bbmsg⟩
  case counter =>
    have done := ruleCnt_of_room wake dec frz amt (rangeOk_iff.mpr ⟨aligned, inside⟩)
      (Fifo.not_full_of_length_lt (u := .counter) room)
    exact ⟨_, exec_of_done rfl done, State.sequenced_retire rfl rfl rfl, State.retire_sequencedAs _⟩
  case bbtx =>
    obtain ⟨priv, glob, run, registers⟩ := exec_bbtx_of_room wake last inc (rangeOk_iff.mpr ⟨aligned, inside⟩)
      (Fifo.not_full_of_length_lt (u := .bbtx) room)
    refine ⟨_, run, State.sequenced_retire rfl rfl rfl, ?moved, ?frame⟩
    case moved =>
      cases inc
      case false => simpa [State.retire_priv, State.retire_glob] using registers
      case true => exact fun r => (State.reg_retire _ r).trans (registers r)
    case frame =>
      rw [State.retire_priv, State.retire_glob]
      exact State.retire_sequencedAs _
  case bbmsg =>
    have done := ruleBbmsg_of_room wake w64 mtype dest rp (Fifo.not_full_of_length_lt (u := .bbmsg) room)
    exact ⟨_, exec_of_done rfl done, State.sequenced_retire rfl rfl rfl, State.retire_sequencedAs _⟩

/-! ### Crypto (R264) -/

/-- Settles O53: with a legal range the rule is one record, whose data are the bytes read at issue. -/
theorem cryptoEmitsItsChunk : Obligations.CryptoEmitsItsChunk := by
  intro first last rs len s aligned inside
  have done := ruleCrypto_of_range first last (rangeOk_iff.mpr ⟨aligned, inside⟩)
  refine ⟨_, s.self.sram.readBytes (s.reg rs).toNat len.toNat, exec_of_done rfl done,
    State.sequenced_retire rfl rfl rfl, fun sp a => ?memory, Mem.readBytes_length _ _ _,
    fun k chunk => Mem.getD_readBytes _ _ chunk, State.retire_sequencedAs _⟩
  case memory =>
    rw [State.readByte_retire]
    cases sp <;> rfl

end Sys2Proof.Machine
end

section
/-! PROOFS. The queues of the accelerator units (R242, R243): the completion clock that an enqueue gives, and the order
in which the accelerator tick completes the heads that are due. -/

namespace Sys2Proof.Machine

/-! ## Enqueue (R242) -/

/-- A latency lies in the window of its unit (R242, R268). -/
theorem latency_mem_window (u : Accel) (n : Nat) :
    Config.latMin u ≤ Config.latency u n ∧ Config.latency u n ≤ Config.latMax u := by
  have draw : Config.latencyDraw n % (Config.latSpan u + 1) < Config.latSpan u + 1 := Nat.mod_lt _ (Nat.succ_pos _)
  unfold Config.latency Config.latMax
  omega

/-- A running maximum is its start or the key of an element. -/
theorem foldl_max_attained {α : Type} (key : α → Nat) (l : List α) (m : Nat) :
    l.foldl (fun m e => max m (key e)) m = m ∨ ∃ e ∈ l, key e = l.foldl (fun m e => max m (key e)) m := by
  induction l generalizing m with
  | nil => exact .inl rfl
  | cons a l ih =>
    rw [List.foldl_cons]
    rcases ih (max m (key a)) with start | ⟨e, mem, attained⟩
    · rw [start]
      rcases Nat.le_total (key a) m with le | le
      · exact .inl (Nat.max_eq_left le)
      · exact .inr ⟨a, List.mem_cons_self, (Nat.max_eq_right le).symm⟩
    · exact .inr ⟨e, List.mem_cons_of_mem a mem, attained⟩

/-- The furthest clock of a queue that is not empty is the clock of an entry (R242). -/
theorem Fifo.exists_comp_eq_furthest {α : Type} {f : Fifo α} (some_queued : f.entries ≠ []) :
    ∃ e ∈ f.entries, e.comp = f.furthest := by
  rcases foldl_max_attained (fun e : Entry α => e.comp) f.entries 0 with zero | attained
  · obtain ⟨e, mem⟩ := List.exists_mem_of_ne_nil _ some_queued
    have le : e.comp ≤ f.furthest := f.comp_le_furthest e mem
    have start : f.furthest = 0 := zero
    exact ⟨e, mem, by omega⟩
  · exact attained

/-- Settles O56: the floor of an enqueue is the furthest clock queued. -/
theorem enqueueFloorsTheCompletionClock : Obligations.EnqueueFloorsTheCompletionClock := by
  refine ⟨fun u n => ⟨Nat.succ_pos _, latency_mem_window u n⟩, fun α f clk lat owner wake op => ?_⟩
  refine ⟨max (clk + lat) f.furthest, f.furthest, rfl, rfl, f.comp_le_furthest, ?_⟩
  split
  case isTrue empty => simp [Fifo.furthest, empty]
  case isFalse some_queued => exact Fifo.exists_comp_eq_furthest some_queued

/-! ## Which head completes next (R243) -/

/-- The head of unit `u` is due, with completion clock `c`. -/
def Proc.Due (p : Proc) (u : Accel) (c : Nat) : Prop := p.headComp u = some c ∧ c ≤ p.clk

/-- A clock and unit come before another: the clock is less, or equal and the unit no later in the order of R243. -/
def ComesFirst (u : Accel) (c : Nat) (v : Accel) (d : Nat) : Prop :=
  c < d ∨ (c = d ∧ Accel.inOrder.idxOf u ≤ Accel.inOrder.idxOf v)

/-- A choice among some units is right: nothing only if none of them is due, else the one of them that is due and comes
before every other. -/
def RightChoice (p : Proc) (units : List Accel) : Option (Accel × Nat) → Prop
  | none => ∀ v ∈ units, ∀ d, ¬p.Due v d
  | some (u, c) => u ∈ units ∧ p.Due u c ∧ ∀ v ∈ units, ∀ d, p.Due v d → ComesFirst u c v d

theorem ComesFirst.refl (u : Accel) (c : Nat) : ComesFirst u c u c := .inr ⟨rfl, Nat.le_refl _⟩

/-- Two heads that each come before the other are the same head. -/
theorem ComesFirst.antisymm {u v : Accel} {c d : Nat} (h : ComesFirst u c v d) (h' : ComesFirst v d u c) : u = v := by
  unfold ComesFirst at h h'
  have place : Accel.inOrder.idxOf u = Accel.inOrder.idxOf v := by omega
  exact (List.idxOf_inj (Accel.mem_inOrder u)).mp place

section
variable {p : Proc}

theorem Proc.Due.unique {u : Accel} {c d : Nat} (h : p.Due u c) (h' : p.Due u d) : c = d :=
  Option.some.inj (h.1.symm.trans h'.1)

/-! ### One round of the choice -/

theorem earlierDue_of_not_due {v : Accel} (best : Option (Accel × Nat)) (rests : ∀ d, ¬p.Due v d) :
    earlierDue p best v = best := by
  unfold earlierDue
  split
  · rfl
  · rename_i d head
    exact if_neg fun due => rests d ⟨head, due⟩

theorem earlierDue_none_of_due {v : Accel} {d : Nat} (due : p.Due v d) : earlierDue p none v = some (v, d) := by
  simp [earlierDue, due.1, due.2]

theorem earlierDue_some_of_due {u v : Accel} {c d : Nat} (due : p.Due v d) :
    earlierDue p (some (u, c)) v = if d < c then some (v, d) else some (u, c) := by
  simp [earlierDue, due.1, due.2]

/-- A round keeps the choice right when its unit stands behind all the units before. -/
theorem RightChoice.round {units : List Accel} {v : Accel} {best : Option (Accel × Nat)}
    (right : RightChoice p units best) (behind : ∀ u ∈ units, Accel.inOrder.idxOf u < Accel.inOrder.idxOf v) :
    RightChoice p (units ++ [v]) (earlierDue p best v) := by
  by_cases rests : ∀ d, ¬p.Due v d
  · rw [earlierDue_of_not_due best rests]
    cases best with
    | none => exact List.forall_mem_append.mpr ⟨right, by simpa using rests⟩
    | some best =>
      obtain ⟨mem, due, first⟩ := right
      exact ⟨List.mem_append_left _ mem, due,
        List.forall_mem_append.mpr ⟨first, by simpa using fun d h => absurd h (rests d)⟩⟩
  · simp only [not_forall, not_not] at rests
    obtain ⟨d, due⟩ := rests
    have own : ∀ {u c}, ComesFirst u c v d → ∀ w ∈ [v], ∀ e, p.Due w e → ComesFirst u c w e := by
      intro u c comes w mem e h
      obtain rfl := List.mem_singleton.mp mem
      rwa [← due.unique h]
    cases best with
    | none =>
      rw [earlierDue_none_of_due due]
      exact ⟨by simp, due, List.forall_mem_append.mpr ⟨fun w mem e h => absurd h (right w mem e), own (.refl v d)⟩⟩
    | some best =>
      obtain ⟨u, c⟩ := best
      obtain ⟨mem, u_due, first⟩ := right
      rw [earlierDue_some_of_due due]
      split
      case isTrue less =>
        refine ⟨by simp, due, List.forall_mem_append.mpr ⟨fun w w_mem e h => ?_, own (.refl v d)⟩⟩
        have comes := first w w_mem e h
        unfold ComesFirst at comes ⊢
        omega
      case isFalse not_less =>
        have before := behind u mem
        have comes : ComesFirst u c v d := by
          unfold ComesFirst
          omega
        exact ⟨List.mem_append_left _ mem, u_due, List.forall_mem_append.mpr ⟨first, own comes⟩⟩

/-! ### All rounds -/

theorem rightChoice_foldl (units : List Accel)
    (ordered : units.Pairwise (fun u v => Accel.inOrder.idxOf u < Accel.inOrder.idxOf v)) :
    RightChoice p units (units.foldl (earlierDue p) none) := by
  induction units using List.reverseRecOn with
  | nil => exact fun v mem => nomatch mem
  | append_singleton units v ih =>
    rw [List.pairwise_append] at ordered
    obtain ⟨earlier, -, behind⟩ := ordered
    rw [List.foldl_append]
    exact (ih earlier).round fun u mem => behind u mem v (by simp)

theorem rightChoice_inOrder (p : Proc) : RightChoice p Accel.inOrder (Accel.inOrder.foldl (earlierDue p) none) :=
  rightChoice_foldl _ (by decide)

/-- The unit that completes next is the due one that comes before every other. -/
theorem nextDue_eq_some_iff {u : Accel} :
    p.nextDue = some u ↔ ∃ c, p.Due u c ∧ ∀ v d, p.Due v d → ComesFirst u c v d := by
  have right := rightChoice_inOrder p
  unfold Proc.nextDue
  cases chosen : Accel.inOrder.foldl (earlierDue p) none with
  | none =>
    rw [chosen] at right
    simp only [Option.map_none, reduceCtorEq, false_iff, not_exists]
    exact fun c ⟨due, _⟩ => right u (Accel.mem_inOrder u) c due
  | some best =>
    obtain ⟨v, d⟩ := best
    rw [chosen] at right
    obtain ⟨-, due, first⟩ := right
    simp only [Option.map_some, Option.some.injEq]
    constructor
    · rintro rfl
      exact ⟨d, due, fun w e h => first w (Accel.mem_inOrder w) e h⟩
    · rintro ⟨c, u_due, u_first⟩
      exact (first u (Accel.mem_inOrder u) c u_due).antisymm (u_first v d due)

theorem nextDue_eq_none_iff : p.nextDue = none ↔ ∀ u c, p.headComp u = some c → p.clk < c := by
  refine ⟨nextDue_eq_none, fun later => ?_⟩
  cases chosen : p.nextDue with
  | none => rfl
  | some u =>
    obtain ⟨c, ⟨head, due⟩, -⟩ := nextDue_eq_some_iff.mp chosen
    exact absurd due (Nat.not_le.mpr (later u c head))

end

/-! ## The accelerator tick (R243) -/

section
variable {s : State}

theorem State.accTick_of_none (none_due : s.self.nextDue = none) : s.accTick = s := by
  unfold State.accTick
  cases s.self.queued with
  | zero => rfl
  | succ n => simp only [accLoop, none_due]

/-- A completion leaves one operation less queued, so the rounds left are those of its own accelerator tick. -/
theorem State.accTick_of_some {u : Accel} (next : s.self.nextDue = some u) :
    s.accTick = (s.completeHead u).accTick := by
  have one_less := State.completeHead_queued (nextDue_isHead next)
  unfold State.accTick
  rw [← one_less, accLoop, next]

end

/-- Settles O57: the choice of a round is the first of the due heads, and the loop is one round and the loop again. -/
theorem acceleratorTickCompletesDueHeadsInOrder : Obligations.AcceleratorTickCompletesDueHeadsInOrder := by
  refine fun s => ⟨fun u => ?next, nextDue_eq_none_iff, ?unfolding, s.accTick_nextDue⟩
  case next => simp only [nextDue_eq_some_iff, Proc.Due, ComesFirst, and_assoc, and_imp]
  case unfolding =>
    split
    case h_1 none_due => exact State.accTick_of_none none_due
    case h_2 u next => exact State.accTick_of_some next

end Sys2Proof.Machine
end

section
/-! PROOFS. The CRC as polynomial arithmetic over the field of two elements (R254, R255): a register is a polynomial,
one message bit is one step of a long division by `X^W + poly`, and a message is divided bit by bit. -/

namespace Sys2Proof.Machine

open Polynomial (X)

/-! ## Registers and bits as polynomials -/

/-- A bit as an element of the field of two elements, as a polynomial. -/
noncomputable def bitPoly (b : Bool) : Polynomial (ZMod 2) := if b then 1 else 0

/-- The polynomial of a register: bit `i` is the coefficient of `X^i`. -/
noncomputable def regPoly {w : Nat} (v : BitVec w) : Polynomial (ZMod 2) :=
  ∑ i ∈ Finset.range w, if v.getLsbD i then X ^ i else 0

/-- The polynomial of message bits, the first one the highest. -/
noncomputable def bitsPoly (bits : List Bool) : Polynomial (ZMod 2) :=
  bits.foldl (fun a b => a * X + if b then 1 else 0) 0

theorem bitsPoly_append_singleton (bits : List Bool) (b : Bool) :
    bitsPoly (bits ++ [b]) = bitsPoly bits * X + bitPoly b := by
  rw [bitsPoly, List.foldl_append]
  rfl

theorem bitPoly_xor (a b : Bool) : bitPoly (a ^^ b) = bitPoly a + bitPoly b := by
  cases a <;> cases b <;> simp [bitPoly, CharTwo.add_self_eq_zero]

section
variable {w : Nat}

theorem regPoly_eq_sum (v : BitVec w) : regPoly v = ∑ i ∈ Finset.range w, bitPoly (v.getLsbD i) * X ^ i := by
  simp [regPoly, bitPoly]

/-- Addition of polynomials is exclusive or of registers. -/
theorem regPoly_xor (a b : BitVec w) : regPoly (a ^^^ b) = regPoly a + regPoly b := by
  simp only [regPoly_eq_sum, BitVec.getLsbD_xor, bitPoly_xor, add_mul, Finset.sum_add_distrib]

/-- Multiplication by `X` is a shift, and the bit that is shifted out is the coefficient of `X^W`. -/
theorem regPoly_shiftLeft_one (v : BitVec w) :
    regPoly v * X = regPoly (v <<< 1) + bitPoly v.msb * X ^ w := by
  cases w with
  | zero => simp [regPoly, bitPoly, BitVec.eq_nil v]
  | succ n =>
    have low : bitPoly ((v <<< 1).getLsbD 0) = 0 := by simp [bitPoly]
    have moved : ∀ i ∈ Finset.range n,
        bitPoly ((v <<< 1).getLsbD (i + 1)) * X ^ (i + 1) = bitPoly (v.getLsbD i) * X ^ (i + 1) := fun i mem => by
      have below : i < n := Finset.mem_range.mp mem
      simp [below, BitVec.getLsbD_eq_getElem (Nat.lt_succ_of_lt below)]
    calc regPoly v * X
        = ∑ i ∈ Finset.range (n + 1), bitPoly (v.getLsbD i) * X ^ (i + 1) := by
          simp only [regPoly_eq_sum, Finset.sum_mul, mul_assoc, ← pow_succ]
      _ = ∑ i ∈ Finset.range n, bitPoly (v.getLsbD i) * X ^ (i + 1) + bitPoly v.msb * X ^ (n + 1) := by
          rw [Finset.sum_range_succ, BitVec.msb_eq_getLsbD_last, Nat.add_sub_cancel]
      _ = regPoly (v <<< 1) + bitPoly v.msb * X ^ (n + 1) := by
          rw [regPoly_eq_sum, Finset.sum_range_succ', low, zero_mul, add_zero, Finset.sum_congr rfl moved]

end

/-! ## One step of the division -/

/-- One message bit is one step of the division by the generator (R255). -/
theorem regPoly_crcBit {w : Nat} (p : Config.CrcParams w) (reg : BitVec w) (b : Bool) :
    regPoly reg * X + bitPoly b * X ^ w =
      bitPoly (reg.msb ^^ b) * (X ^ w + regPoly p.poly) + regPoly (crcBit p reg b) := by
  have step : regPoly (crcBit p reg b) = regPoly (reg <<< 1) + bitPoly (reg.msb ^^ b) * regPoly p.poly := by
    unfold crcBit
    cases reg.msb ^^ b
    case false => simp [bitPoly]
    case true => simp [bitPoly, regPoly_xor]
  have cancels := CharTwo.add_self_eq_zero (bitPoly (reg.msb ^^ b) * regPoly p.poly)
  rw [regPoly_shiftLeft_one, step, bitPoly_xor]
  rw [bitPoly_xor] at cancels
  linear_combination -cancels

/-! ## A whole message -/

/-- The register that a row of message bits leaves is their remainder, the old register standing in front of them. -/
theorem foldl_crcBit_remainder {w : Nat} (p : Config.CrcParams w) (reg : BitVec w) (bits : List Bool) :
    ∃ q, bitsPoly bits * X ^ w + regPoly reg * X ^ bits.length =
      q * (X ^ w + regPoly p.poly) + regPoly (bits.foldl (crcBit p) reg) := by
  induction bits using List.reverseRecOn with
  | nil => exact ⟨0, by simp [bitsPoly]⟩
  | append_singleton bits b ih =>
    obtain ⟨q, divided⟩ := ih
    have step := regPoly_crcBit p (bits.foldl (crcBit p) reg) b
    refine ⟨q * X + bitPoly ((bits.foldl (crcBit p) reg).msb ^^ b), ?_⟩
    rw [bitsPoly_append_singleton, List.foldl_append, List.length_append, List.length_singleton, pow_succ]
    simp only [List.foldl_cons, List.foldl_nil]
    linear_combination X * divided + step

/-- The message bits in the order in which they are fed (R255). -/
def messageBits (reflect : Bool) (bytes : List Byte) : List Bool :=
  bytes.flatMap (fun b => (List.range 8).map (fun i => b.getLsbD (if reflect then i else 7 - i)))

theorem crcBits_eq (reflect : Bool) (b : Byte) :
    crcBits reflect b = (List.range 8).map (fun i => b.getLsbD (if reflect then i else 7 - i)) := by
  cases reflect <;> rfl

theorem messageBits_length (reflect : Bool) (bytes : List Byte) :
    (messageBits reflect bytes).length = 8 * bytes.length := by
  simp [messageBits, List.length_flatMap, Nat.mul_comm]

/-- Feeding the bytes is feeding the message bits. -/
theorem foldl_crcByte {w : Nat} (p : Config.CrcParams w) (reg : BitVec w) (bytes : List Byte) :
    bytes.foldl (crcByte p) reg = (messageBits p.reflect bytes).foldl (crcBit p) reg := by
  rw [messageBits, List.foldl_flatMap]
  simp only [← crcBits_eq]
  rfl

/-- Without the xor-out and the reflection a CRC is the register that the loop leaves (R255). -/
theorem register_of_crc {w : Nat} (p : Config.CrcParams w) (bytes : List Byte) :
    (if p.reflect then (crc p bytes ^^^ p.xorout).reverse else crc p bytes ^^^ p.xorout) =
      bytes.foldl (crcByte p) p.init := by
  unfold crc
  simp only [BitVec.xor_assoc, BitVec.xor_self, BitVec.xor_zero]
  cases p.reflect
  case false => rfl
  case true => simp

theorem crc_remainder {w : Nat} (p : Config.CrcParams w) (bytes : List Byte) :
    ∃ q, bitsPoly (messageBits p.reflect bytes) * X ^ w + regPoly p.init * X ^ (8 * bytes.length) =
      q * (X ^ w + regPoly p.poly) +
        regPoly (if p.reflect then (crc p bytes ^^^ p.xorout).reverse else crc p bytes ^^^ p.xorout) := by
  rw [register_of_crc, foldl_crcByte, ← messageBits_length p.reflect]
  exact foldl_crcBit_remainder p p.init _

/-- Settles O58: the loop divides the message bit by bit; the four values of profile 0 are computed. -/
theorem crcIsThePolynomialRemainder : Obligations.CrcIsThePolynomialRemainder := by
  refine ⟨fun w p bytes => crc_remainder p bytes, fun bytes => ⟨rfl, rfl, rfl, rfl⟩, ?digits, ?word, ?zeros, ?empty⟩
  case digits | word | zeros | empty => decide +kernel

end Sys2Proof.Machine
end

section
/-! PROOFS. What each unit's completion does to its processor and to the memories (R244, R250, R252, R257, R259, R261,
R263): the head of the queue is removed, its effect is applied, and its owner is woken if it asked. -/

namespace Sys2Proof.Machine

/-! ## The removal of a head (R243, R244) -/

section
variable (s : State)

theorem State.completeHead_dma {e : Entry DmaOp} {rest : List (Entry DmaOp)} (queue : s.self.dma.entries = e :: rest) :
    s.completeHead .dma = (({ s with self := { s.self with dma := ⟨rest, s.self.dma.hwm⟩ } } :
      State).completeDma e.payload).wakeOwner e.wake e.owner := by
  simp only [State.completeHead, queue]

theorem State.completeHead_ramman {e : Entry RammanOp} {rest : List (Entry RammanOp)}
    (queue : s.self.ramman.entries = e :: rest) :
    s.completeHead .ramman = (({ s with self := { s.self with ramman := ⟨rest, s.self.ramman.hwm⟩ } } :
      State).completeRamman e.payload).wakeOwner e.wake e.owner := by
  simp only [State.completeHead, queue]

theorem State.completeHead_hash {e : Entry HashOp} {rest : List (Entry HashOp)}
    (queue : s.self.hash.entries = e :: rest) :
    s.completeHead .hash = (({ s with self := { s.self with hash := ⟨rest, s.self.hash.hwm⟩ } } :
      State).completeHash e.payload).wakeOwner e.wake e.owner := by
  simp only [State.completeHead, queue]

theorem State.completeHead_counter {e : Entry CounterOp} {rest : List (Entry CounterOp)}
    (queue : s.self.counter.entries = e :: rest) :
    s.completeHead .counter = (({ s with self := { s.self with counter := ⟨rest, s.self.counter.hwm⟩ } } :
      State).completeCounter e.payload).wakeOwner e.wake e.owner := by
  simp only [State.completeHead, queue]

theorem State.completeHead_bbtx {e : Entry BbtxOp} {rest : List (Entry BbtxOp)}
    (queue : s.self.bbtx.entries = e :: rest) :
    s.completeHead .bbtx = (({ s with self := { s.self with bbtx := ⟨rest, s.self.bbtx.hwm⟩ } } :
      State).completeBbtx e.owner e.payload).wakeOwner e.wake e.owner := by
  simp only [State.completeHead, queue]

theorem State.completeHead_bbmsg {e : Entry BbmsgOp} {rest : List (Entry BbmsgOp)}
    (queue : s.self.bbmsg.entries = e :: rest) :
    s.completeHead .bbmsg = (({ s with self := { s.self with bbmsg := ⟨rest, s.self.bbmsg.hwm⟩ } } :
      State).completeBbmsg e.owner e.payload).wakeOwner e.wake e.owner := by
  simp only [State.completeHead, queue]

/-! ## The wakeup of the owner (R244) -/

variable (wake : Bool) (owner : ThreadId)

/-- A wakeup changes scheduler bits alone. -/
theorem State.wakeOwner_eq : s.wakeOwner wake owner =
    { s with self := { s.self with threads := (s.wakeOwner wake owner).self.threads } } := by
  cases wake <;> rfl

/-- A wakeup posts `sync` to the owner, if the entry asked for it. -/
theorem State.wakeOwner_thread (th : ThreadId) : (s.wakeOwner wake owner).self.threads[th.val] =
    if wake = true ∧ th = owner then { s.self.threads[th.val] with sync := true } else s.self.threads[th.val] := by
  cases wake
  case false => simp [State.wakeOwner]
  case true =>
    simp only [State.wakeOwner, Proc.postSync, if_true, Proc.onThread_threads, true_and]
    by_cases woken : th = owner
    · simp [woken]
    · rw [if_neg woken, Vector.getElem_set_ne _ _ (fun same => woken (Fin.ext same.symm))]

end

/-! ## Completions that write result registers and records (R252, R257, R261, R263) -/

/-- Fields that do not overlap: their disjunction is their sum. -/
theorem or_fields_eq_add {w x y : Nat} (hx : x < 2 ^ 4) (hy : y < 2 ^ 4) :
    w * 2 ^ 8 ||| x * 2 ^ 4 ||| y = w * 2 ^ 8 + x * 2 ^ 4 + y := by
  have upper : w * 2 ^ 8 ||| x * 2 ^ 4 = 2 ^ 4 * (w * 2 ^ 4 + x) := by
    rw [Nat.mul_comm w, ← Nat.two_pow_add_eq_or_of_lt (by omega)]
    omega
  rw [upper, ← Nat.two_pow_add_eq_or_of_lt hy]
  omega

/-- The header of a message is its three fields side by side. -/
theorem msgHeader_eq (op : BbmsgOp) : msgHeader op =
    BitVec.ofNat 32 ((if op.w64 then 1 else 0) * 2 ^ 8 + op.mtype.toNat * 2 ^ 4 + op.dest.toNat) := by
  have low : op.dest.toNat < 16 := op.dest.isLt
  have middle : op.mtype.toNat < 16 := op.mtype.isLt
  have bit : (BitVec.ofBool op.w64).toNat = if op.w64 then 1 else 0 := by cases op.w64 <;> rfl
  have small : (BitVec.ofBool op.w64).toNat < 2 := (BitVec.ofBool op.w64).isLt
  rw [← bit]
  apply BitVec.eq_of_toNat_eq
  simp only [msgHeader, BitVec.toNat_or, BitVec.toNat_shiftLeft, BitVec.toNat_setWidth, BitVec.toNat_ofNat,
    Nat.shiftLeft_eq]
  simp (disch := omega) only [Nat.mod_eq_of_lt]
  exact or_fields_eq_add middle low

/-- Settles O60: with the head of the queue removed each completion is the update that its rule names. -/
theorem resultCompletionsWriteTheirRegisters : Obligations.ResultCompletionsWriteTheirRegisters := by
  refine ⟨fun s e rest queue => ?hash, fun s e rest queue => ?ramman, fun s e rest queue => ?bbtx,
    fun s e rest queue => ?bbmsg, fun s wake owner => ⟨s.wakeOwner_eq wake owner, s.wakeOwner_thread wake owner⟩⟩
  case hash =>
    rw [State.completeHead_hash s queue]
    rfl
  case ramman =>
    rw [State.completeHead_ramman s queue]
    obtain ⟨comp, owner, wake, payload⟩ := e
    cases payload <;> rfl
  case bbtx =>
    rw [State.completeHead_bbtx s queue]
    rfl
  case bbmsg =>
    simp only [State.completeHead_bbmsg s queue, ← msgHeader_eq]
    rfl

/-! ## Completions that move and count in memory (R250, R259) -/

/-- Every byte after a string was copied from one memory into another, as it was then. -/
theorem Mem.read_copied {m : Mem} (h : m.wf = true) (source : Mem) (a b n a' : Nat) :
    (m.writeBytes a (source.readBytes b n)).read a' =
      if a ≤ a' ∧ a' < a + n then source.read (b + (a' - a)) else m.read a' := by
  rw [Mem.read_writeBytes h, Mem.readBytes_length]
  split
  case isTrue inside => exact Mem.getD_readBytes _ _ (by omega)
  case isFalse => rfl

section
variable (s : State) (wake : Bool) (owner : ThreadId)

theorem State.wakeOwner_shared : (s.wakeOwner wake owner).shared = s.shared := by
  rw [State.wakeOwner_eq]

theorem State.wakeOwner_dma : (s.wakeOwner wake owner).self.dma = s.self.dma := by
  rw [State.wakeOwner_eq]

theorem State.wakeOwner_counter : (s.wakeOwner wake owner).self.counter = s.self.counter := by
  rw [State.wakeOwner_eq]

theorem State.wakeOwner_sram : (s.wakeOwner wake owner).self.sram = s.self.sram := by
  rw [State.wakeOwner_eq]

theorem State.readByte_wakeOwner (sp : Space) (a : Nat) :
    (s.wakeOwner wake owner).readByte sp a = s.readByte sp a := by
  rw [State.wakeOwner_eq]
  cases sp <;> rfl

end

/-! ### DMA (R250) -/

section
variable {s : State} {op : DmaOp}

theorem State.completeDma_of_wr (kind : op.kind = .wr) : s.completeDma op =
    s.setCommon (s.shared.common.writeBytes op.caddr.toNat
      (s.self.sram.readBytes op.saddr.toNat (4 * op.nwords))) := by
  simp only [State.completeDma, kind]

theorem State.completeDma_of_ne_wr (kind : op.kind ≠ .wr) : s.completeDma op =
    s.setSram (s.self.sram.writeBytes op.saddr.toNat
      (s.shared.common.readBytes op.caddr.toNat (4 * op.nwords))) := by
  unfold State.completeDma
  cases k : op.kind with
  | rd | lk => rfl
  | wr => exact absurd k kind

/-- A transfer changes one of the two memories. -/
theorem State.completeDma_eq : s.completeDma op =
    { s with shared := { s.shared with common := (s.completeDma op).shared.common },
             self := { s.self with sram := (s.completeDma op).self.sram } } := by
  by_cases kind : op.kind = .wr
  · rw [State.completeDma_of_wr kind]
    rfl
  · rw [State.completeDma_of_ne_wr kind]
    rfl

end

/-! ### Counters (R259) -/

/-- The next value of a counter in the words of R259, its limit the greatest number of its bytes. -/
theorem counterNext_eq (w4 dec frz : Bool) (v amt : Nat) :
    let b := if w4 then 4 else 2
    let L := 2 ^ (8 * b) - 1
    counterNext w4 dec frz v amt =
      if dec = false then if v + amt ≤ L then v + amt else if frz then L else v + amt - 2 ^ (8 * b)
      else if amt ≤ v then v - amt else if frz then 0 else v + 2 ^ (8 * b) - amt := by
  have size : 2 ^ (if w4 then 32 else 16) = 2 ^ (8 * (if w4 then 4 else 2)) := by cases w4 <;> rfl
  have below : v + amt < 2 ^ (8 * (if w4 then 4 else 2)) ↔ v + amt ≤ 2 ^ (8 * (if w4 then 4 else 2)) - 1 :=
    Nat.lt_iff_le_pred (Nat.two_pow_pos _)
  unfold counterNext
  simp only [size, below]
  cases dec <;> rfl

/-- The completion of a counter stores its next value over its own bytes. -/
theorem State.completeCounter_eq (s : State) (op : CounterOp) : s.completeCounter op =
    s.setCommon (s.shared.common.writeBytes op.caddr.toNat (storedBytes (counterBytes op.w4) (BitVec.ofNat 32
      (counterNext op.w4 op.dec op.frz (s.bytesWord .common op.caddr.toNat (counterBytes op.w4)).toNat
        op.amt.toNat)))) := by
  unfold State.completeCounter
  cases op.w4
  case true =>
    simp only [counterBytes, if_true, State.bytesWord_four, State.mem_common]
    exact congrArg s.setCommon (storeTo_eq _ _ .b32 _ 0)
  case false =>
    have cut : ∀ n : Nat, BitVec.ofNat 16 n = (BitVec.ofNat 32 n).extractLsb' 0 16 := fun n => by
      apply BitVec.eq_of_toNat_eq
      simp
    have value : ∀ x : BitVec 16, (x.setWidth 32).toNat = x.toNat := fun x => BitVec.toNat_setWidth_of_le (by decide)
    simp only [counterBytes, Bool.false_eq_true, if_false, State.bytesWord_two, State.mem_common, cut, value]
    exact congrArg s.setCommon (storeTo_eq _ _ .b16 _ 0)

/-- Settles O59: a transfer copies bytes between two memories, a counter is stored over its own bytes, and the wakeup
that follows touches neither. -/
theorem memoryCompletionsMoveAndCount : Obligations.MemoryCompletionsMoveAndCount := by
  refine ⟨fun s e rest queue sram_wf common_wf => ?dma, fun s e rest queue common_wf => ?counter⟩
  case dma =>
    simp only [State.completeHead_dma s queue]
    refine ⟨?queue, fun kind => ?wr, fun kind => ?rd, fun th => ?woken, ?frame⟩
    case queue => rw [State.wakeOwner_dma, State.completeDma_eq]
    case wr =>
      rw [State.completeDma_of_wr kind]
      refine ⟨State.wakeOwner_sram _ _ _, fun a => ?_⟩
      rw [State.readByte_wakeOwner]
      exact Mem.read_copied common_wf _ _ _ _ _
    case rd =>
      rw [State.completeDma_of_ne_wr kind]
      refine ⟨State.wakeOwner_shared _ _ _, fun a => ?_⟩
      rw [State.readByte_wakeOwner]
      exact Mem.read_copied sram_wf _ _ _ _ _
    case woken => rw [State.wakeOwner_thread, State.completeDma_eq]
    case frame =>
      rw [State.wakeOwner_eq, State.completeDma_eq]
  case counter =>
    intro t b a v L n
    have ended : t = (({ s with self := { s.self with counter := ⟨rest, s.self.counter.hwm⟩ } } : State).setCommon
        (s.shared.common.writeBytes a (storedBytes b (BitVec.ofNat 32 n)))).wakeOwner e.wake e.owner := by
      rw [show t = _ from State.completeHead_counter s queue, State.completeCounter_eq, counterNext_eq]
      rfl
    rw [ended]
    refine ⟨State.wakeOwner_counter _ _ _, fun sp a => ?stores, State.wakeOwner_thread _ _ _, ?frame⟩
    case stores =>
      rw [State.readByte_wakeOwner]
      exact State.stores_setCommon _ _ common_wf sp a
    case frame =>
      rw [State.wakeOwner_eq]
      rfl

end Sys2Proof.Machine
end

section
/-! PROOFS. The map of the IO register file: the class of the register at each index, what a load of it returns, and the
stores to storage and read-only registers (R26, R301 to R305). -/

namespace Sys2Proof.Machine

/-! ## The map of the window (R26, R301, R302) -/

/-- The storage registers that the map names (R304). -/
def IoReg.isNamedStorage : IoReg → Bool
  | .control | .parserSum | .parserCsum | .gpio | .intCtrl _ => true
  | _ => false

/-- The registers of class RO (R302). -/
def IoReg.isReadOnly : IoReg → Bool
  | .semCtrl1 | .timer _ | .msg _ | .lkupRes _ _ | .rammanRes _ => true
  | _ => false

/-- The registers whose load is the stored word in every state (R301). -/
def IoReg.isReadStored : IoReg → Bool
  | .msg _ | .unnamed => true
  | r => r.isNamedStorage

section
variable {k : Fin 256}

theorem ioReg_isNamedStorage_iff : (ioReg k).isNamedStorage = true ↔ k.val ∈ [0, 4, 5, 13, 14, 15, 16] := by
  fun_cases ioReg k <;> simp [IoReg.isNamedStorage] <;> omega

theorem ioReg_isReadOnly_iff : (ioReg k).isReadOnly = true ↔
    k.val ∈ [3, 8, 9, 10, 11, 17, 18, 19] ∨ (32 ≤ k.val ∧ k.val < 44) ∨ (48 ≤ k.val ∧ k.val < 52) := by
  fun_cases ioReg k <;> simp [IoReg.isReadOnly] <;> omega

theorem ioReg_isReadStored_iff : (ioReg k).isReadStored = true ↔
    k.val ∈ [0, 4, 5, 7, 13, 14, 15, 16, 17, 18, 19] ∨ (20 ≤ k.val ∧ k.val < 32) ∨ (44 ≤ k.val ∧ k.val < 48) ∨
      (52 ≤ k.val ∧ k.val < 64) ∨ 96 ≤ k.val := by
  fun_cases ioReg k <;> simp [IoReg.isReadStored, IoReg.isNamedStorage] <;> omega

theorem ioReg_eq_unnamed_iff : ioReg k = .unnamed ↔
    k.val = 7 ∨ (20 ≤ k.val ∧ k.val < 32) ∨ (44 ≤ k.val ∧ k.val < 48) ∨ (52 ≤ k.val ∧ k.val < 64) ∨ 96 ≤ k.val := by
  fun_cases ioReg k <;> simp <;> omega

end

/-- The word index of `TIMER[i]` (R26: offset 0x020 + 4i). -/
def timerIndex (i : Fin 4) : Fin 256 := ⟨8 + i.val, by omega⟩

/-- The word index of `THREAD_WAKEUP[t]` (R26: offset 0x100 + 4t). -/
def threadWakeupIndex (t : Fin 32) : Fin 256 := ⟨64 + t.val, by omega⟩

theorem ioReg_timerIndex : ∀ i, ioReg (timerIndex i) = .timer i := by decide

theorem ioReg_threadWakeupIndex : ∀ t, ioReg (threadWakeupIndex t) = .threadWakeup t := by decide

theorem ioReg_lkupIndex : ∀ t j, ioReg (lkupIndex t j) = .lkupRes t j := by decide

theorem ioReg_rammanIndex : ∀ j, ioReg (rammanIndex j) = .rammanRes j := by decide

/-! ## Words of status bits (R301, R310, R317, R319) -/

theorem getLsbD_packBits {bs : List Bool} (fits : bs.length ≤ 32) (i : Nat) :
    (packBits bs).getLsbD i = bs.getD i false := by
  rw [packBits, BitVec.getLsbD_setWidth, BitVec.getLsbD_ofBoolListLE]
  by_cases inside : i < 32
  · simp [inside]
  · rw [List.getD_eq_default _ _ (by omega), Bool.and_false]

/-- The five bits of a thread, from bit 0 upward, and zeros (R310). -/
theorem getLsbD_threadWord (b : ThreadBits) :
    (threadWord b).getLsbD 0 = b.sync ∧ (threadWord b).getLsbD 1 = b.asyncN ∧ (threadWord b).getLsbD 2 = b.asyncU ∧
      (threadWord b).getLsbD 3 = b.mask ∧ (threadWord b).getLsbD 4 = b.aen ∧
      ∀ j, 5 ≤ j → (threadWord b).getLsbD j = false := by
  have bits : ∀ j, (threadWord b).getLsbD j = [b.sync, b.asyncN, b.asyncU, b.mask, b.aen].getD j false :=
    getLsbD_packBits (by simp)
  exact ⟨bits 0, bits 1, bits 2, bits 3, bits 4, fun j above => (bits j).trans (List.getD_eq_default _ _ above)⟩

section
variable (me : ProcId)

/-- The low byte of `SEM_CTRL1` is the held bits, the next one those of this processor's semaphores (R317). -/
theorem getLsbD_semStatusWord (sem : Vector Semaphore 8) :
    (∀ j : Fin 8, (semStatusWord me sem).getLsbD j.val = sem[j.val].held) ∧
    (∀ j : Fin 8, (semStatusWord me sem).getLsbD (8 + j.val) = (sem[j.val].held && sem[j.val].owner == me)) ∧
    (∀ j, 16 ≤ j → (semStatusWord me sem).getLsbD j = false) := by
  have bits := getLsbD_packBits
    (bs := sem.toList.map (fun m => m.held) ++ sem.toList.map (fun m => m.held && m.owner == me)) (by simp)
  refine ⟨fun j => (bits _).trans ?_, fun j => (bits _).trans ?_, fun j above => (bits _).trans ?_⟩
  · rw [List.getD_append _ _ _ _ (by simp)]
    simp
  · rw [List.getD_append_right _ _ _ _ (by simp)]
    simp
  · exact List.getD_eq_default _ _ (by simpa using above)

theorem getLsbD_counterLockWord (l : CtrLock) :
    (counterLockWord me l).getLsbD 0 = (l.held && l.owner == me) ∧
    (counterLockWord me l).getLsbD 1 = (l.held && l.owner == me.other) ∧
    ∀ j, 2 ≤ j → (counterLockWord me l).getLsbD j = false := by
  have bits : ∀ j, (counterLockWord me l).getLsbD j =
      [l.held && l.owner == me, l.held && l.owner == me.other].getD j false := getLsbD_packBits (by simp)
  exact ⟨bits 0, bits 1, fun j above => (bits j).trans (List.getD_eq_default _ _ above)⟩

/-- The value of `COUNTER_LOCK`: 0 free, 1 held by this processor, 2 held by the peer (R319). -/
theorem counterLockWord_toNat (l : CtrLock) :
    (counterLockWord me l).toNat = if l.held = false then 0 else if l.owner = me then 1 else 2 := by
  obtain ⟨held, owner⟩ := l
  cases held <;> cases owner <;> cases me <;> rfl

end

/-! ## Loads (R301) -/

section
variable (s : State) {k : Fin 256}

theorem State.ioLoad_of_isReadStored (stored : (ioReg k).isReadStored = true) :
    s.ioLoad k = some s.self.ioStore[k.val] := by
  unfold State.ioLoad
  cases reg : ioReg k <;> simp_all [IoReg.isReadStored, IoReg.isNamedStorage]

theorem State.ioLoad_wakeup : s.ioLoad 1 = some 0 := rfl

theorem State.ioLoad_semCtrl0 : s.ioLoad 2 = some 0 := rfl

theorem State.ioLoad_semCtrl1 : s.ioLoad 3 = some (semStatusWord s.me s.shared.sem) := rfl

theorem State.ioLoad_timerCtrl : s.ioLoad 6 = some (timerCtrlWord s.self) := rfl

theorem State.ioLoad_counterLock : s.ioLoad 12 = some (counterLockWord s.me s.shared.ctrLock) := rfl

theorem State.ioLoad_timer {j : Fin 4} (index : k.val = 8 + j.val) :
    s.ioLoad k = some (s.self.timer[j.val].setWidth 32) := by
  obtain rfl : k = timerIndex j := Fin.ext index
  simp only [State.ioLoad, ioReg_timerIndex]

theorem State.ioLoad_lkupRes {t : Fin 3} {j : Fin 4} (index : k.val = 32 + 4 * t.val + j.val) :
    s.ioLoad k = if s.self.lkReady[t.val][j.val] then some s.self.ioStore[k.val] else none := by
  obtain rfl : k = lkupIndex t j := Fin.ext index
  simp only [State.ioLoad, ioReg_lkupIndex]

theorem State.ioLoad_rammanRes {j : Fin 4} (index : k.val = 48 + j.val) :
    s.ioLoad k = if s.self.rmReady[j.val] then some s.self.ioStore[k.val] else none := by
  obtain rfl : k = rammanIndex j := Fin.ext index
  simp only [State.ioLoad, ioReg_rammanIndex]

theorem State.ioLoad_threadWakeup {t : ThreadId} (index : k.val = 64 + t.val) :
    s.ioLoad k = some (threadWord s.self.threads[t.val]) := by
  obtain rfl : k = threadWakeupIndex t := Fin.ext index
  simp only [State.ioLoad, ioReg_threadWakeupIndex]

end

/-- Settles O34: by the class or the name of the register, and the bits of each status word. -/
theorem ioLoadReturnsTheRegister : Obligations.IoLoadReturnsTheRegister := fun s =>
  ⟨fun _ stored => s.ioLoad_of_isReadStored (ioReg_isReadStored_iff.mpr stored),
    s.ioLoad_wakeup, s.ioLoad_semCtrl0,
    ⟨_, s.ioLoad_semCtrl1, getLsbD_semStatusWord s.me s.shared.sem⟩,
    s.ioLoad_timerCtrl,
    fun _ _ index => s.ioLoad_timer index,
    ⟨_, s.ioLoad_counterLock, getLsbD_counterLockWord s.me s.shared.ctrLock⟩,
    fun _ _ _ index => s.ioLoad_lkupRes index,
    fun _ _ index => s.ioLoad_rammanRes index,
    fun _ t index => ⟨_, s.ioLoad_threadWakeup index, getLsbD_threadWord s.self.threads[t.val]⟩⟩

/-! ## Stores to storage and read-only registers (R302 to R305) -/

section
variable (s : State) {k : Fin 256} (v : Word)

theorem State.ioStoreWord_of_isReadOnly (readOnly : (ioReg k).isReadOnly = true) : s.ioStoreWord k v = s := by
  unfold State.ioStoreWord
  cases reg : ioReg k <;> simp_all [IoReg.isReadOnly]

theorem State.ioStoreWord_of_isNamedStorage (named : (ioReg k).isNamedStorage = true) :
    s.ioStoreWord k v = s.storeMasked k v (Config.wmask (4 * k.val)) := by
  unfold State.ioStoreWord
  cases reg : ioReg k <;> simp_all [IoReg.isNamedStorage]

theorem State.ioStoreWord_of_unnamed (unnamed : ioReg k = .unnamed) :
    s.ioStoreWord k v = s.storeMasked k v 0xFFFFFFFF := by
  simp only [State.ioStoreWord, unnamed]

end

/-- A mask of ones lets the whole word through (R305). -/
theorem masked_allOnes (old v : Word) : masked old v 0xFFFFFFFF = v := by
  have ones : (0xFFFFFFFF : Word) = BitVec.allOnes 32 := by decide
  simp only [masked, ones, BitVec.not_allOnes, BitVec.and_zero, BitVec.zero_or, BitVec.and_allOnes]

/-- Settles O35: by the class of the register. -/
theorem ioStoreKeepsToTheWriteMask : Obligations.IoStoreKeepsToTheWriteMask := by
  refine fun s k v => ⟨fun readOnly => ?readOnly, fun named => ?named, fun unnamed => ?unnamed⟩
  case readOnly => exact s.ioStoreWord_of_isReadOnly v (ioReg_isReadOnly_iff.mpr readOnly)
  case named => exact s.ioStoreWord_of_isNamedStorage v (ioReg_isNamedStorage_iff.mpr named)
  case unnamed =>
    rw [s.ioStoreWord_of_unnamed v (ioReg_eq_unnamed_iff.mpr unnamed), State.storeMasked, masked_allOnes]
    rfl

end Sys2Proof.Machine
end

section
/-! PROOFS. The wakeup registers and the timers: a store changes the scheduler bits of one thread, and a timer tick takes
the timers from the lowest upward (R306, R310, R311, R313). -/

namespace Sys2Proof.Machine

/-! ## Scheduler registers (R306, R310) -/

/-- A two-bit field of a word, by its value. -/
theorem extractTwo_eq_iff (v : Word) (i : Nat) (n : BitVec 2) :
    v.extractLsb' i 2 = n ↔ (v.toNat / 2 ^ i) % 4 = n.toNat := by
  rw [← BitVec.toNat_inj, BitVec.extractLsb'_toNat, Nat.shiftRight_eq_div_pow]

theorem Proc.onThread_thread (p : Proc) (t u : ThreadId) (f : ThreadBits → ThreadBits) :
    (p.onThread t f).threads[u.val] = if u = t then f p.threads[u.val] else p.threads[u.val] := by
  rw [Proc.onThread_threads]
  by_cases same : u = t
  · simp [same]
  · rw [if_neg same, Vector.getElem_set_ne _ _ (fun e => same (Fin.ext e.symm))]

/-- The thread that a store to `WAKEUP` names (R306): the one of the low bits, or the current one. -/
def State.wakeupThread (s : State) (v : Word) : ThreadId :=
  if (v.toNat / 2 ^ 5) % 4 = 0 then Fin.ofNat 32 v.toNat else s.self.cur

/-- The scheduler bits after a wakeup of a kind (R306). -/
def ThreadBits.woken (kind : Nat) (b : ThreadBits) : ThreadBits :=
  { b with sync := b.sync || kind == 0, asyncN := b.asyncN || kind == 1, asyncU := b.asyncU || kind == 2 }

section
variable (s : State) (v : Word)

theorem State.ioStoreWord_wakeup : s.ioStoreWord 1 v = s.storeWakeup v := rfl

theorem State.ioStoreWord_threadWakeup {k : Fin 256} {t : ThreadId} (index : k.val = 64 + t.val) :
    s.ioStoreWord k v = { s with self := s.self.onThread t (fun _ => threadBitsOf v) } := by
  obtain rfl : k = threadWakeupIndex t := Fin.ext index
  simp only [State.ioStoreWord, ioReg_threadWakeupIndex]

theorem State.wakeupThread_val :
    (s.wakeupThread v).val = if (v.toNat / 2 ^ 5) % 4 = 0 then v.toNat % 32 else s.self.cur.val := by
  unfold State.wakeupThread
  split <;> rfl

theorem wakeup_reserved_iff : 2 ≤ (v.extractLsb' 5 2).toNat ∨ v.extractLsb' 7 2 = 3 ↔
    2 ≤ (v.toNat / 2 ^ 5) % 4 ∨ (v.toNat / 2 ^ 7) % 4 = 3 := by
  rw [extractTwo_eq_iff, BitVec.extractLsb'_toNat, Nat.shiftRight_eq_div_pow]
  rfl

theorem State.storeWakeup_of_reserved (reserved : 2 ≤ (v.toNat / 2 ^ 5) % 4 ∨ (v.toNat / 2 ^ 7) % 4 = 3) :
    s.storeWakeup v = s :=
  if_pos ((wakeup_reserved_iff v).mpr reserved)

/-- The bit that a store to `WAKEUP` sets, by the value of its kind. -/
theorem wakeup_set_eq {v : Word} (kind : (v.toNat / 2 ^ 7) % 4 < 3) (b : ThreadBits) :
    (if v.extractLsb' 7 2 = 0 then { b with sync := true }
      else if v.extractLsb' 7 2 = 1 then { b with asyncN := true }
      else { b with asyncU := true }) = b.woken ((v.toNat / 2 ^ 7) % 4) := by
  simp only [extractTwo_eq_iff]
  generalize (v.toNat / 2 ^ 7) % 4 = n at kind
  interval_cases n <;> simp [ThreadBits.woken]

theorem State.storeWakeup_of_legal (mode : (v.toNat / 2 ^ 5) % 4 < 2) (kind : (v.toNat / 2 ^ 7) % 4 < 3) :
    s.storeWakeup v =
      { s with self := s.self.onThread (s.wakeupThread v) (ThreadBits.woken ((v.toNat / 2 ^ 7) % 4)) } := by
  have legal := (wakeup_reserved_iff v).not.mpr (by omega)
  have thread : (if v.extractLsb' 5 2 = 0 then (v.extractLsb' 0 5).toFin else s.self.cur) = s.wakeupThread v := by
    simp only [extractTwo_eq_iff]
    rfl
  exact (if_neg legal).trans
    (congrArg₂ (fun th f => ({ s with self := s.self.onThread th f } : State)) thread (funext (wakeup_set_eq kind)))

end

/-- Settles O36: a wakeup changes one thread by one bit; the other register replaces a thread's bits. -/
theorem wakeupStoresSetSchedulerBits : Obligations.WakeupStoresSetSchedulerBits := by
  intro s v tmode kind
  refine ⟨s.ioLoad_wakeup, s.storeWakeup_of_reserved v, fun mode legal => ?wakeup, fun k th index => ?thread⟩
  case wakeup =>
    refine ⟨_, (s.ioStoreWord_wakeup v).trans (s.storeWakeup_of_legal v mode legal), rfl, fun th => ?_⟩
    simp only [Proc.onThread_thread, Fin.ext_iff, State.wakeupThread_val]
    rfl
  case thread =>
    obtain ⟨sync, asyncN, asyncU, mask, aen, rest⟩ := getLsbD_threadWord s.self.threads[th.val]
    exact ⟨_, _, s.ioLoad_threadWakeup index, sync, asyncN, asyncU, mask, aen, rest,
      s.ioStoreWord_threadWakeup v index, rfl, fun th' => s.self.onThread_thread th th' _⟩

/-! ## Timers (R311, R313) -/

section
variable (s : State) (v : Word)

theorem State.ioStoreWord_timerCtrl : s.ioStoreWord 6 v = s.storeTimerCtrl v := rfl

theorem State.storeTimerCtrl_timer (i : Fin 4) : (s.storeTimerCtrl v).self.timer[i.val] =
    if v.getLsbD (4 + i.val) then 0 else s.self.timer[i.val] :=
  Vector.getElem_ofFn i.isLt

end

/-- The state of a timer tick after the timers below `n`: those that count have advanced, the others are as before,
and the flag says whether timer `n - 1` wrapped (set at the start, when timer 0 counts clocks). -/
structure TimersDone (p : Proc) (n : Nat) (acc : Vector (BitVec 16) 4 × Bool) : Prop where
  timer : ∀ i : Fin 4, acc.1[i.val] =
    if i.val < n ∧ p.timerCounts i.val = true then p.timer[i.val] + 1 else p.timer[i.val]
  wrapped : acc.2 = if n = 0 then true else p.timerWraps (n - 1)

theorem TimersDone.start (p : Proc) : TimersDone p 0 (p.timer, true) :=
  ⟨fun _ => by simp, rfl⟩

/-- A timer wraps when it counts from its last value. -/
theorem Proc.timerWraps_eq (p : Proc) (i : Fin 4) :
    p.timerWraps i.val = (p.timerCounts i.val && p.timer[i.val] + 1 == 0) := by
  have last : ∀ x : BitVec 16, (x + 1 == 0) = (x == 0xFFFF) := fun x => by
    rw [Bool.eq_iff_iff, beq_iff_eq, beq_iff_eq]
    bv_omega
  rw [last]
  obtain ⟨_ | i, inside⟩ := i
  case zero => rfl
  case succ =>
    have entry : p.timer.toList.getD (i + 1) 0 = p.timer[i + 1] := by simp [inside]
    rw [Proc.timerWraps, Proc.timerCounts, entry]

section
variable {p : Proc} {acc : Vector (BitVec 16) 4 × Bool} {i : Fin 4} (done : TimersDone p i.val acc)
include done

/-- The flag that the timer below leaves decides whether timer `i` counts. -/
theorem TimersDone.counts : (!p.tpause.getLsbD i.val &&
    (!(decide (i.val ≠ 0) && p.tchain.getLsbD (i.val - 1)) || acc.2)) = p.timerCounts i.val := by
  rw [done.wrapped]
  obtain ⟨_ | i, inside⟩ := i <;> simp [Proc.timerCounts]

/-- A timer that the tick has not reached is as before. -/
theorem TimersDone.waiting : acc.1[i.val] = p.timer[i.val] := by
  rw [done.timer i, if_neg (fun reached => lt_irrefl _ reached.1)]

theorem TimersDone.timerStep_eq : timerStep p.tpause p.tchain acc i =
    if p.timerCounts i.val = true then (acc.1.set i.val (p.timer[i.val] + 1), p.timer[i.val] + 1 == 0)
    else (acc.1, false) := by
  simp only [timerStep, done.counts, done.waiting]

theorem TimersDone.step : TimersDone p (i.val + 1) (timerStep p.tpause p.tchain acc i) := by
  have wrapped := p.timerWraps_eq i
  have below : ∀ j : Fin 4, j ≠ i → (j.val < i.val + 1 ↔ j.val < i.val) := by omega
  rw [done.timerStep_eq]
  split
  case isTrue counts =>
    refine ⟨fun j => ?_, by simp [wrapped, counts]⟩
    by_cases here : j = i
    · simp [here, counts]
    · rw [Vector.getElem_set_ne _ _ (fun e => here (Fin.ext e.symm)), done.timer j]
      simp only [below j here]
  case isFalse idle =>
    refine ⟨fun j => ?_, by simp [wrapped, idle]⟩
    by_cases here : j = i
    · simp [here, idle, done.waiting]
    · rw [done.timer j]
      simp only [below j here]

end

/-- A timer tick is four steps, so it ends with every timer done. -/
theorem State.timerTick_timer (s : State) (i : Fin 4) : s.timerTick.self.timer[i.val] =
    if s.self.timerCounts i.val = true then s.self.timer[i.val] + 1 else s.self.timer[i.val] := by
  have all := ((((TimersDone.start s.self).step (i := 0)).step (i := 1)).step (i := 2)).step (i := 3)
  have reached : i.val < (3 : Fin 4).val + 1 := i.isLt
  exact (all.timer i).trans (by simp only [reached, true_and])

theorem timerCtrlWord_toNat (p : Proc) : (timerCtrlWord p).toNat = p.tchain.toNat * 2 ^ 8 + p.tpause.toNat := by
  have chain := p.tchain.isLt
  have pause := p.tpause.isLt
  rw [timerCtrlWord, BitVec.toNat_or, BitVec.toNat_shiftLeft, BitVec.toNat_setWidth_of_le (by decide),
    BitVec.toNat_setWidth_of_le (by decide), Nat.shiftLeft_eq, Nat.mod_eq_of_lt (by omega), ← Nat.shiftLeft_eq,
    ← Nat.shiftLeft_add_eq_or_of_lt (by omega)]

/-- Settles O37: a store is one update, and a tick takes the timers one after another. -/
theorem timersCountAndAreControlled : Obligations.TimersCountAndAreControlled := fun s v =>
  ⟨⟨_, s.ioLoad_timerCtrl, timerCtrlWord_toNat s.self⟩,
    ⟨_, s.ioStoreWord_timerCtrl v, rfl, s.storeTimerCtrl_timer v⟩,
    s.timerTick_eq, s.timerTick_timer⟩

end Sys2Proof.Machine
end

section
/-! PROOFS. The semaphore and counter-lock commands: an acquire or a release replaces one semaphore, a release also posts
a wakeup to one thread of one processor (R315, R316, R319). -/

namespace Sys2Proof.Machine

/-! ## Semaphores (R315, R316) -/

/-- A semaphore after an acquire by a thread of a processor (R315). -/
def Semaphore.acquired (m : Semaphore) (me : ProcId) (cur : ThreadId) (wait : Bool) : Semaphore :=
  if m.held = false then { m with held := true, owner := me }
  else if wait then { m with waiter := cur, waitProc := me, wakeOnRelease := true }
  else m

/-- A semaphore after a release (R316). -/
def Semaphore.released (m : Semaphore) : Semaphore := { m with held := false, owner := .p0, wakeOnRelease := false }

section
variable (s : State) (k j : Fin 8) (m : Semaphore)

theorem State.setSem_sem : (s.setSem k m).shared.sem[j.val] = if j = k then m else s.shared.sem[j.val] := by
  rw [State.setSem_shared]
  by_cases same : j = k
  · simp [same]
  · rw [if_neg same, Vector.getElem_set_ne _ _ (fun e => same (Fin.ext e.symm))]

theorem State.setSem_self_sem : s.setSem k s.shared.sem[k.val] = s := by
  simp [State.setSem]

theorem State.acquire_eq (wait : Bool) :
    s.acquire k wait = s.setSem k (s.shared.sem[k.val].acquired s.me s.self.cur wait) := by
  cases held : s.shared.sem[k.val].held
  case false => simp [State.acquire, Semaphore.acquired, held]
  case true =>
    cases wait
    case false => simp [State.acquire, Semaphore.acquired, held, State.setSem_self_sem]
    case true => simp [State.acquire, Semaphore.acquired, held]

theorem State.postSyncTo_proc (q p : ProcId) (t : ThreadId) :
    (s.postSyncTo q t).proc p = if p = q then (s.proc p).postSync t else s.proc p := by
  unfold State.postSyncTo State.proc
  cases p <;> cases q <;> cases s.me <;> rfl

/-- A posted wakeup changes one thread of one processor. -/
theorem State.postSyncTo_thread (q p : ProcId) (t th : ThreadId) : ((s.postSyncTo q t).proc p).threads[th.val] =
    if p = q ∧ th = t then { (s.proc p).threads[th.val] with sync := true } else (s.proc p).threads[th.val] := by
  rw [State.postSyncTo_proc]
  by_cases addressed : p = q
  · subst addressed
    rw [if_pos rfl]
    simp only [true_and]
    exact (s.proc p).onThread_thread t th _
  · rw [if_neg addressed, if_neg (fun both => addressed both.1)]

/-- A posted wakeup changes scheduler bits alone. -/
theorem State.postSyncTo_eq (q : ProcId) (t : ThreadId) : s.postSyncTo q t =
    { s with self := { s.self with threads := (s.postSyncTo q t).self.threads },
             peer := { s.peer with threads := (s.postSyncTo q t).peer.threads } } := by
  unfold State.postSyncTo
  split <;> rfl

theorem State.release_of_noWaiter (quiet : s.shared.sem[k.val].wakeOnRelease = false) :
    s.release k = s.setSem k s.shared.sem[k.val].released :=
  if_neg (by simp [quiet])

theorem State.release_of_waiter (waiting : s.shared.sem[k.val].wakeOnRelease = true) :
    s.release k = (s.setSem k s.shared.sem[k.val].released).postSyncTo s.shared.sem[k.val].waitProc
      s.shared.sem[k.val].waiter :=
  if_pos waiting

/-- A release changes the semaphores and scheduler bits alone. -/
theorem State.release_eq : s.release k =
    { s with shared := { s.shared with sem := (s.release k).shared.sem },
             self := { s.self with threads := (s.release k).self.threads },
             peer := { s.peer with threads := (s.release k).peer.threads } } := by
  cases waiter : s.shared.sem[k.val].wakeOnRelease
  case false => rw [s.release_of_noWaiter k waiter]; rfl
  case true => rw [s.release_of_waiter k waiter, State.postSyncTo_eq]; rfl

theorem State.release_sem : (s.release k).shared.sem[j.val] =
    if j = k then s.shared.sem[k.val].released else s.shared.sem[j.val] := by
  cases waiter : s.shared.sem[k.val].wakeOnRelease
  case false => rw [s.release_of_noWaiter k waiter, State.setSem_sem]
  case true => rw [s.release_of_waiter k waiter, State.postSyncTo_eq]; exact s.setSem_sem k j _

theorem State.release_thread (q : ProcId) (th : ThreadId) : ((s.release k).proc q).threads[th.val] =
    if s.shared.sem[k.val].wakeOnRelease = true ∧ q = s.shared.sem[k.val].waitProc ∧ th = s.shared.sem[k.val].waiter then
      { (s.proc q).threads[th.val] with sync := true }
    else (s.proc q).threads[th.val] := by
  have keeps : (s.setSem k s.shared.sem[k.val].released).proc q = s.proc q := rfl
  cases waiter : s.shared.sem[k.val].wakeOnRelease
  case false => simp [s.release_of_noWaiter k waiter, keeps]
  case true => simp only [s.release_of_waiter k waiter, State.postSyncTo_thread, keeps, true_and]

end

section
variable (s : State) (v : Word)

theorem State.ioStoreWord_semCtrl0 : s.ioStoreWord 2 v = s.storeSemCtrl v := rfl

/-- The command of a store to `SEM_CTRL0`, by the value of its field (R315). -/
theorem State.storeSemCtrl_eq {k : Fin 8} (index : k.val = v.toNat % 8) : s.storeSemCtrl v =
    if (v.toNat / 2 ^ 3) % 4 = 1 then s.acquire k (v.getLsbD 5)
    else if (v.toNat / 2 ^ 3) % 4 = 2 then s.release k
    else s := by
  have named : (v.extractLsb' 0 3).toFin = k := Fin.ext index.symm
  simp only [State.storeSemCtrl, extractTwo_eq_iff, named]
  rfl

end

/-- Settles O38: by the command; an acquire replaces one semaphore, a release also posts a wakeup. -/
theorem semaphoreCommandsAcquireAndRelease : Obligations.SemaphoreCommandsAcquireAndRelease := by
  intro s t v k index stored m cmd
  rw [s.ioStoreWord_semCtrl0, s.storeSemCtrl_eq v index] at stored
  refine ⟨s.ioLoad_semCtrl0, ?_⟩
  have command : cmd = 1 ∨ cmd = 2 ∨ (cmd = 0 ∨ cmd = 3) := by omega
  rcases command with acquire | release | neither
  · obtain rfl : s.setSem k (m.acquired s.me s.self.cur (v.getLsbD 5)) = t := by
      rw [← stored, if_pos acquire, State.acquire_eq]
    refine ⟨fun j other => (s.setSem_sem k j _).trans (if_neg other), rfl, by omega, fun _ => ⟨rfl, rfl, ?_⟩, by omega⟩
    exact (s.setSem_sem k k _).trans (if_pos rfl)
  · obtain rfl : s.release k = t := by
      rw [← stored, if_neg (by omega), if_pos release]
    exact ⟨fun j other => (s.release_sem k j).trans (if_neg other), s.release_eq k, by omega, by omega,
      fun _ => ⟨(s.release_sem k k).trans (if_pos rfl), s.release_thread k⟩⟩
  · obtain rfl : s = t := by
      rw [← stored, if_neg (by omega), if_neg (by omega)]
    exact ⟨fun _ _ => rfl, rfl, fun _ => rfl, by omega, by omega⟩

/-! ## The counter lock (R319) -/

/-- The lock after a store: taken if it is free, given back by its holder (R319). -/
def CtrLock.stored (l : CtrLock) (me : ProcId) (v : Word) : CtrLock :=
  if v.getLsbD 0 then (if l.held then l else ⟨true, me⟩)
  else if l.held = true ∧ l.owner = me then ⟨false, l.owner⟩ else l

theorem State.ioStoreWord_counterLock (s : State) (v : Word) : s.ioStoreWord 12 v = s.storeCounterLock v := rfl

theorem State.storeCounterLock_eq (s : State) (v : Word) : s.storeCounterLock v =
    { s with shared := { s.shared with ctrLock := s.shared.ctrLock.stored s.me v } } := by
  unfold State.storeCounterLock CtrLock.stored
  cases v.getLsbD 0
  case true => cases held : s.shared.ctrLock.held <;> simp [held]
  case false => by_cases mine : s.shared.ctrLock.held = true ∧ s.shared.ctrLock.owner = s.me <;> simp [mine]

/-- Settles O39: by what a store leaves and the value of the status word. -/
theorem counterLockIsATryLock : Obligations.CounterLockIsATryLock := fun s v =>
  ⟨(s.ioStoreWord_counterLock v).trans (s.storeCounterLock_eq v),
    _, s.ioLoad_counterLock, counterLockWord_toNat s.me s.shared.ctrLock⟩

end Sys2Proof.Machine
end
